-- ==== Sys2Proof/Word.lean ====
section
/-! DEFINITION. The byte and the byte string, the block's only data widths (00_scope.md rule R8: "A byte is 8 bits";
all other quantities of the block are natural numbers, rules R7 and R8). -/

namespace Sys2Proof

/-- One byte, bit 7 its most significant bit (R8). -/
abbrev Byte := BitVec 8

/-- A byte string; no byte string has an implicit terminator (R8). -/
abbrev Bytes := List Byte

end Sys2Proof
end

