-- ==== Sys2Proof/Config.lean ====
section
/-! DEFINITION. The fixed constants of 00_scope.md rule R5 and the open parameters of rule R6 (TERM, SEP_LEN, RX_TIMEOUT).
The open parameters are plain data and stand in State as the field `cfg`, which no step writes: a statement about every state
is thereby a statement about every choice of them. -/

namespace Sys2Proof

/-! ### Fixed constants (R5) -/

/-- UNIT: bytes per unit. -/
abbrev unitLen : Nat := 1024
/-- HALF: bytes per half-unit. -/
abbrev halfLen : Nat := 512
/-- FILLER: the value of every staging-buffer byte that does not hold valid data. -/
abbrev filler : Byte := 0xFF#8
/-- FLASH_LIMIT: the flash address range is [0, 44032). -/
abbrev flashLimit : Nat := 44032
/-- SECTOR_FIRST. -/
abbrev sectorFirst : Nat := 0
/-- SECTOR_LAST. -/
abbrev sectorLast : Nat := 29
/-- RAM_ADDR_1: target RAM address of the first half. -/
abbrev ramAddr1 : Nat := 268435968
/-- RAM_ADDR_2: target RAM address of the second half. -/
abbrev ramAddr2 : Nat := 268436480
/-- LINE_MAX: maximum raw bytes per encoded line. -/
abbrev lineMax : Nat := 45
/-- UNLOCK_CODE. -/
abbrev unlockCode : Nat := 23130
/-- VERSION_FIELD_LEN: characters in the numeric field of the version response. -/
abbrev versionFieldLen : Nat := 10
/-- ENC_OFFSET. -/
abbrev encOffset : Byte := 0x20#8
/-- ENC_SENTINEL. -/
abbrev encSentinel : Byte := 0x60#8
/-- SYNC_STRING: `Synchronized`. -/
abbrev syncString : Bytes :=
  [0x53#8, 0x79#8, 0x6E#8, 0x63#8, 0x68#8, 0x72#8, 0x6F#8, 0x6E#8, 0x69#8, 0x7A#8, 0x65#8, 0x64#8]
/-- ACK_VALUE: `0`. -/
abbrev ackValue : Bytes := [0x30#8]
/-- START_TOKEN: `?`. -/
abbrev startToken : Bytes := [0x3F#8]
/-- TOK_PROTO: `0`. -/
abbrev tokProto : Bytes := [0x30#8]
/-- TOK_DATA: `OK`. -/
abbrev tokData : Bytes := [0x4F#8, 0x4B#8]

/-! ### Open parameters (R6) -/

/-- The parameters the source leaves to the implementation (R6; decisions D5, D6, D23). -/
structure Config where
  /-- TERM: the bytes `sendWithTerminator` appends; R6 asks for at least one byte (`State.Inv` carries that). -/
  term : Bytes
  /-- SEP_LEN: length in bytes of every separator in a response shape. -/
  sepLen : Nat
  /-- Whether RX_TIMEOUT bounds a receive. The model has no time (R200), so only whether a bound is in force matters:
  with one, a receive the transport never answers is a Timeout; with none it is a hang (R222). -/
  rxTimeoutSet : Bool
  deriving DecidableEq, Repr

/-- TERM and SEP_LEN at the defaults of R6 (0D 0A and 2, from general knowledge, K2 and K3), with a receive bound in force
(R200: "must add a bounded timeout per blocking receive"; log entry 3, DESIGN CHOICE). -/
def Config.default : Config :=
  { term := [0x0D#8, 0x0A#8], sepLen := 2, rxTimeoutSet := true }

end Sys2Proof
end

