-- ==== Sys2Proof/Syntax.lean ====
section
/-! DEFINITION. The syntax: one constructor of `Instr` per row of spec/opcode_table.json (8 host operations, 4 transcoder
functions, 12 protocol lines, 5 internal sequences), the operand types they carry, and the requests the ports deliver. -/

namespace Sys2Proof

/-- One of the two 512-byte parts of a unit (R9). -/
inductive Half where
  | half0
  | half1
  deriving DecidableEq, Repr

/-- A status token: `0` ("protocol-accept") or `OK` ("data-accept") (R5, R9). -/
inductive Token where
  | proto
  | data
  deriving DecidableEq, Repr

/-- The response shapes of 30_encoding.md rule R58. -/
inductive Shape where
  | literal (lit : Bytes)
  | echo
  | echoStatus (tok : Token)
  | echoStatusField (tok : Token) (fieldLen : Nat)
  deriving DecidableEq, Repr

/-- The reasons 1 to 13 of 60_exceptions.md rule R180 (code 0, `None`, is that of an accepted result). -/
inductive Reason where
  | handshakeFailure
  | versionUnsupported
  | transactionMismatch
  | unlockRejected
  | sectorPrepareRejected
  | eraseRejected
  | ramWriteRejected
  | checksumRejected
  | copyToFlashRejected
  | transportTimeout
  | noSession
  | rangeExceeded
  | badRecord
  deriving DecidableEq, Repr

/-- One constructor per row of the opcode table, in the table's order. -/
inductive Instr where
  -- host operations (R52)
  | openSession
  | handshake
  | version
  | prepare
  /-- `record` is the command record as delivered; its length is `recLen` (R32). -/
  | write (record : Bytes)
  | finish
  | closeSession
  | start
  -- transcoder functions (R53)
  | encGroup (b0 b1 b2 : Byte)
  | decGroup (c0 c1 c2 c3 : Byte)
  | encLine (raw : Bytes)
  | decLine (line : Bytes)
  -- protocol lines (R55)
  | txStart
  | txSyncAck
  | txAckVal
  | txVersion
  | txUnlock
  | txPrepare (first last : Nat)
  | txErase (first last : Nat)
  | txWriteRam1
  | txWriteRam2
  | txDataLine (line : Bytes)
  | txChecksum (sum : BitVec 32)
  | txCopy
  -- internal sequences (not selectable from any port)
  | execute (text : Bytes) (term : Bool) (shape : Shape) (why : Reason)
  | parseDec (field : Bytes)
  | encHalf (half : Bytes)
  | sendHalf (h : Half)
  | flushUnit
  deriving DecidableEq, Repr

/-- Where a request is presented. `hostOp` and `transcoder` are the block's own ports (R52, R53). The three line ports are the
model's own (log entry 5, DESIGN CHOICE): a line kind with a select byte in the opcode table is named on `letterLine`, and the
two kinds that R54 says have no distinguishing first byte have a port each. -/
inductive Port where
  | hostOp
  | transcoder
  | letterLine
  | dataLine
  | checksumLine
  deriving DecidableEq, Repr

/-- What a port carries for one invocation: the select (where the port has one) and the operand bytes. -/
structure Request where
  port : Port
  bytes : Bytes
  deriving DecidableEq, Repr

/-- Why a request names no instruction. -/
inductive DecodeError where
  /-- The port was given no byte at all, so no select. -/
  | emptyRequest
  /-- The host port's select byte is above 7: `op_sel` has three bits (R52). -/
  | noSuchOperation
  /-- The transcoder port's select byte is above 3: `xc_sel` has two bits (R53). -/
  | noSuchFunction
  /-- An operation or group function came with operand bytes it does not take, or with too few. -/
  | wrongOperandLength
  /-- ENC_LINE of 0 or of more than 45 raw bytes: "the port refuses them" (R85). -/
  | encLineDomain
  /-- The bytes are neither the select byte nor the text of a letter line (R55). -/
  | noSuchLine
  /-- The operands of a `P` or `E` line lie outside the sector index space [0, 29] (R35). -/
  | sectorOutOfRange
  /-- The text is no encoded data line (R59). -/
  | malformedDataLine
  /-- The text is not the shortest decimal text of a 32-bit value (R56, R120). -/
  | malformedChecksum
  deriving DecidableEq, Repr

end Sys2Proof
end

