-- ==== Sys2Proof/WellFormed.lean ====
section
/-! DEFINITION. Which terms of `Instr` the spec's operand descriptions admit. `Instr.wf` is a Bool, one arm per constructor. -/

namespace Sys2Proof

/-- A character of the encoded body: every one is in 0x21..0x60 (R59, R60). -/
def isLineChar (c : Byte) : Bool := 0x21 ≤ c.toNat && c.toNat ≤ 0x60

/-- Characters of a line of `n` raw bytes: `1 + 4*ceil(n/3)` (R59). -/
def lineLen (n : Nat) : Nat := 1 + 4 * ((n + 2) / 3)

/-- The data line format of R59: length byte 0x21..0x4D, the body length it calls for, every body character in 0x21..0x60. -/
def isDataLine : Bytes → Bool
  | [] => false
  | l :: body =>
    0x21 ≤ l.toNat && l.toNat ≤ 0x4D && (body.length + 1 == lineLen (l.toNat - 0x20)) && body.all isLineChar

/-- A sector index (R35: the closed interval [0, 29]). -/
def isSector (n : Nat) : Bool := n ≤ sectorLast

/-- The reasons a mismatch in a transaction can give (R180, rows raised by "mismatch in TX_..."). -/
def isMismatchReason : Reason → Bool
  | .handshakeFailure | .transactionMismatch | .unlockRejected | .sectorPrepareRejected | .eraseRejected
  | .ramWriteRejected | .checksumRejected | .copyToFlashRejected => true
  | .versionUnsupported | .transportTimeout | .noSession | .rangeExceeded | .badRecord => false

/-- A shape EXECUTE is called with: a literal is not empty, since `Recv(0)` is never issued (R37). -/
def isShape : Shape → Bool
  | .literal lit => !lit.isEmpty
  | .echo | .echoStatus _ | .echoStatusField _ _ => true

/-- Well-formedness of an instruction (the operand lines of each rule). -/
def Instr.wf : Instr → Bool
  | .openSession | .handshake | .version | .prepare | .finish | .closeSession | .start => true
  -- any byte string may be delivered as a record; WRITE itself validates it (R150)
  | .write _ => true
  | .encGroup _ _ _ | .decGroup _ _ _ _ => true
  | .encLine raw => 1 ≤ raw.length && raw.length ≤ lineMax
  -- a line that is no line is a legal operand: its result is `invalid` (R86)
  | .decLine _ => true
  | .txStart | .txSyncAck | .txAckVal | .txVersion | .txUnlock | .txWriteRam1 | .txWriteRam2 | .txCopy => true
  | .txPrepare first last => isSector first && isSector last
  | .txErase first last => isSector first && isSector last
  | .txDataLine line => isDataLine line
  | .txChecksum _ => true
  | .execute text _ shape why => !text.isEmpty && isShape shape && isMismatchReason why
  | .parseDec field => field.length == versionFieldLen
  | .encHalf half => half.length == halfLen
  | .sendHalf _ | .flushUnit => true

end Sys2Proof
end

