-- ==== Sys2Proof/Machine/Codec.lean ====
section
/-! DEFINITION. The transcoder as pure functions (40_transcoder.md): it has no state, so nothing here mentions State. -/

namespace Sys2Proof.Machine

/-! ### Building blocks -/

/-- `SPLIT(b0, b1, b2)`, value `s0` (R80): `b0[7:2]`. The bit order is decision D9 (log entry 6). -/
def splitS0 (b0 : Byte) : BitVec 6 := b0.extractLsb' 2 6
/-- `s1 = b0[1:0] ++ b1[7:4]` (R80). -/
def splitS1 (b0 b1 : Byte) : BitVec 6 := b0.extractLsb' 0 2 ++ b1.extractLsb' 4 4
/-- `s2 = b1[3:0] ++ b2[7:6]` (R80). -/
def splitS2 (b1 b2 : Byte) : BitVec 6 := b1.extractLsb' 0 4 ++ b2.extractLsb' 6 2
/-- `s3 = b2[5:0]` (R80). -/
def splitS3 (b2 : Byte) : BitVec 6 := b2.extractLsb' 0 6

/-- `ENC6(v)` (R81): the offset added, and the sentinel in place of a byte equal to the offset. Its range is 0x21..0x60,
never 0x20, which is the printable range of R88. -/
def enc6 (v : BitVec 6) : Byte := if v = 0#6 then encSentinel else v.setWidth 8 + encOffset

/-- `DEC6(c)` (R83); `none` is `invalid`. -/
def dec6 (c : Byte) : Option (BitVec 6) :=
  if c = encSentinel then some 0#6
  else if 0x21 ≤ c.toNat ∧ c.toNat ≤ 0x5F then some ((c - encOffset).setWidth 6)
  else none

/-! ### Groups -/

/-- ENC_GROUP (R82): three raw bytes to four characters, each in the printable range, and injective (R88; laws
`groupEncode_printable`, `groupEncode_injective`). -/
def groupEncode (b0 b1 b2 : Byte) : Bytes :=
  [enc6 (splitS0 b0), enc6 (splitS1 b0 b1), enc6 (splitS2 b1 b2), enc6 (splitS3 b2)]

/-- The three bytes of four six-bit values (R84): `s0 ++ s1[5:4]`, `s1[3:0] ++ s2[5:2]`, `s2[1:0] ++ s3`. -/
def joinSix (s0 s1 s2 s3 : BitVec 6) : Bytes :=
  [s0 ++ s1.extractLsb' 4 2, s1.extractLsb' 0 4 ++ s2.extractLsb' 2 4, s2.extractLsb' 0 2 ++ s3]

/-- DEC_GROUP (R84): `none` is `invalid`, given when any character is. It recovers the three bytes of every group that `groupEncode`
makes (R88; law `groupDecode_groupEncode`). -/
def groupDecode (c0 c1 c2 c3 : Byte) : Option Bytes :=
  match dec6 c0, dec6 c1, dec6 c2, dec6 c3 with
  | some s0, some s1, some s2, some s3 => some (joinSix s0 s1 s2 s3)
  | _, _, _, _ => none

/-! ### Lines -/

/-- The groups of ENC_LINE (R85); a final group of one or two bytes is padded with 0x00 (R89, decision D10). -/
def bodyEncode : Bytes → Bytes
  | [] => []
  | [a] => groupEncode a 0#8 0#8
  | [a, b] => groupEncode a b 0#8
  | a :: b :: c :: rest => groupEncode a b c ++ bodyEncode rest

/-- ENC_LINE (R85): the length byte `n + 0x20`, not sentinel-substituted, then the groups. Its domain is 1 to 45 raw bytes,
where it is injective and gives no byte outside 0x21..0x60 (R88; laws `lineEncode_printable`, `lineEncode_injective`). -/
def lineEncode (raw : Bytes) : Bytes := BitVec.ofNat 8 (raw.length + 0x20) :: bodyEncode raw

/-- The group loop of DEC_LINE (R86): an invalid group, or a body that is no whole number of groups, is `invalid`. -/
def bodyDecode : Bytes → Option Bytes
  | [] => some []
  | a :: b :: c :: d :: rest =>
    match groupDecode a b c d, bodyDecode rest with
    | some g, some r => some (g ++ r)
    | _, _ => none
  | _ => none

/-- DEC_LINE (R86): the length byte must be 0x21..0x4D and the body as long as it calls for; the padding is discarded by count
and never inspected. `none` is `invalid`. -/
def lineDecode : Bytes → Option Bytes
  | [] => none
  | l :: body =>
    let n := l.toNat - 0x20
    if l.toNat < 0x21 || 0x4D < l.toNat then none
    else if body.length + 1 != lineLen n then none
    else (bodyDecode body).map (List.take n)

/-- ENC_HALF (R87): a 512-byte half as 11 lines of 45 raw bytes and one of 17. -/
def halfEncode (h : Bytes) : List Bytes :=
  (List.range 11).map (fun k => lineEncode ((h.drop (45 * k)).take 45)) ++ [lineEncode ((h.drop 495).take 17)]

end Sys2Proof.Machine
end

