-- ==== Sys2Proof/Machine/Operands.lean ====
section
/-! DEFINITION. Every operand form: decimal text (R56), the texts of the protocol lines (R55, R57), the fields of a command record
(R51, R38), the word swap (R39), and the response shapes (R58). Nothing here mentions State. -/

namespace Sys2Proof.Machine

/-! ### Decimal text -/

/-- A digit character, 0x30..0x39. -/
def isDigit (b : Byte) : Bool := 0x30 ≤ b.toNat && b.toNat ≤ 0x39

/-- The character of a digit 0..9. -/
def digitChar (d : Nat) : Byte := BitVec.ofNat 8 (0x30 + d)

/-- The digits of `n` put before `acc`, most significant first; `fuel` bounds the number of digits. -/
def decAux : Nat → Nat → Bytes → Bytes
  | 0, _, acc => acc
  | fuel + 1, n, acc => if n < 10 then digitChar n :: acc else decAux fuel (n / 10) (digitChar (n % 10) :: acc)

/-- `dec(n)` (R56): the shortest decimal text of `n`, no sign, no leading zero, `0` for zero. -/
def dec (n : Nat) : Bytes := decAux (n.log2 + 1) n []

/-- PARSE_DEC (R136): digits accumulate left to right without wraparound, any other byte is skipped. -/
def parseDigits (field : Bytes) : Nat :=
  field.foldl (fun v b => if isDigit b then v * 10 + (b.toNat - 0x30) else v) 0

/-- The value of a text that is exactly `dec n` for some `n`. -/
def readDec (text : Bytes) : Option Nat := if dec (parseDigits text) = text then some (parseDigits text) else none

/-! ### The texts of the protocol lines (R55, R57) -/

/-- The space byte that joins the fields of a letter command (R57). -/
abbrev space : Bytes := [0x20#8]

/-- `?` -/
def textStart : Bytes := startToken
/-- `Synchronized` -/
def textSyncAck : Bytes := syncString
/-- `0` -/
def textAckVal : Bytes := ackValue
/-- `J` -/
def textVersion : Bytes := [0x4A#8]
/-- `U 23130` -/
def textUnlock : Bytes := [0x55#8] ++ space ++ dec unlockCode
/-- `P <first> <last>` -/
def textPrepare (first last : Nat) : Bytes := [0x50#8] ++ space ++ dec first ++ space ++ dec last
/-- `E <first> <last>` -/
def textErase (first last : Nat) : Bytes := [0x45#8] ++ space ++ dec first ++ space ++ dec last
/-- `W <address> 512` -/
def textWriteRam (address : Nat) : Bytes := [0x57#8] ++ space ++ dec address ++ space ++ dec halfLen
/-- `dec(sum)` -/
def textChecksum (sum : BitVec 32) : Bytes := dec sum.toNat
/-- `C <cursor> 268435968 1024` -/
def textCopy (cursor : Nat) : Bytes := [0x43#8] ++ space ++ dec cursor ++ space ++ dec ramAddr1 ++ space ++ dec unitLen

/-! ### The command record (R51) -/

/-- `MemRead(REC, 4, 4)` as a big-endian number (R38). -/
def recordSize (record : Bytes) : Nat :=
  (((record.getD 4 0#8).toNat * 256 + (record.getD 5 0#8).toNat) * 256 + (record.getD 6 0#8).toNat) * 256
    + (record.getD 7 0#8).toNat

/-- `MemRead(REC, 8, size)`: the payload (R51); bytes 0..3 and bytes beyond `8 + size` are never read. -/
def recordPayload (record : Bytes) : Bytes := (record.drop 8).take (recordSize record)

/-- `SWAP` (R39): the bytes of each 4-byte word reversed, the words kept in order. -/
def swapWords : Bytes → Bytes
  | a :: b :: c :: d :: rest => d :: c :: b :: a :: swapWords rest
  | short => short

/-- `q` of R151: the payload as it enters the staging buffer. -/
def recordData (record : Bytes) : Bytes := swapWords (recordPayload record)

/-! ### Response shapes (R58) -/

/-- The bytes of a status token (R5). -/
def tokenBytes : Token → Bytes
  | .proto => tokProto
  | .data => tokData

/-- The response length `N` of a shape for a sent `text`, with `SEP_LEN` = `sepLen`. -/
def shapeLength (shape : Shape) (text : Bytes) (sepLen : Nat) : Nat :=
  match shape with
  | .literal lit => lit.length
  | .echo => text.length
  | .echoStatus tok => text.length + sepLen + (tokenBytes tok).length
  | .echoStatusField tok f => text.length + sepLen + (tokenBytes tok).length + sepLen + f

/-- The field bytes handed to the caller uncompared (R106); no other shape has any. -/
def shapeField (shape : Shape) (text : Bytes) (sepLen : Nat) (r : Bytes) : Bytes :=
  match shape with
  | .literal _ | .echo | .echoStatus _ => []
  | .echoStatusField tok _ => r.drop (text.length + sepLen + (tokenBytes tok).length + sepLen)

/-- Half `h` of the staging buffer is `sb[halfBase h .. halfBase h + 512)` (R11). -/
def halfBase : Half → Nat
  | .half0 => 0
  | .half1 => 512

/-- The target RAM address of a half (R33). -/
def halfAddress : Half → Nat
  | .half0 => ramAddr1
  | .half1 => ramAddr2

/-- A half's checksum (R155): the plain unsigned sum of its bytes, with 32-bit wraparound. -/
def checksum (bytes : Bytes) : BitVec 32 := bytes.foldl (fun acc b => acc + b.setWidth 32) 0#32

end Sys2Proof.Machine
end

