-- ==== Sys2Proof/Decode.lean ====
section
/-! DEFINITION. From a request to an instruction, and back. `decode` is total on any bytes at any port and rejects by name;
`encode` writes the request of an instruction from the same encodings (30_encoding.md rules R51 to R59, opcode_table.json).
The internal sequences are "not selectable from any port" and have no encoding. -/

namespace Sys2Proof

open Sys2Proof.Machine (dec readDec textSyncAck textUnlock textPrepare textErase textWriteRam textChecksum)

/-! ### Decoding -/

/-- The host operation port (R52): byte 0 is `op_sel`, and only WRITE takes an operand, the record that follows. -/
def decodeHostOp : Bytes → Except DecodeError Instr
  | [] => .error .emptyRequest
  | sel :: operand =>
    match sel.toNat, operand with
    | 0, [] => .ok .openSession
    | 1, [] => .ok .handshake
    | 2, [] => .ok .version
    | 3, [] => .ok .prepare
    | 4, record => .ok (.write record)
    | 5, [] => .ok .finish
    | 6, [] => .ok .closeSession
    | 7, [] => .ok .start
    | n, _ => .error (if n ≤ 7 then .wrongOperandLength else .noSuchOperation)

/-- The transcoder port (R53): byte 0 is `xc_sel`, then the function's input bytes. ENC_LINE outside its domain is refused by the
port (R85). -/
def decodeTranscoder : Bytes → Except DecodeError Instr
  | [] => .error .emptyRequest
  | sel :: input =>
    match sel.toNat, input with
    | 0, [b0, b1, b2] => .ok (.encGroup b0 b1 b2)
    | 1, [c0, c1, c2, c3] => .ok (.decGroup c0 c1 c2 c3)
    | 2, raw => if (Instr.encLine raw).wf then .ok (.encLine raw) else .error .encLineDomain
    | 3, line => .ok (.decLine line)
    | n, _ => .error (if n ≤ 3 then .wrongOperandLength else .noSuchFunction)

/-- The bytes between spaces. -/
def splitSpaces : Bytes → List Bytes
  | [] => [[]]
  | c :: cs =>
    if c = 0x20#8 then [] :: splitSpaces cs
    else
      match splitSpaces cs with
      | [] => [[c]]
      | w :: ws => (c :: w) :: ws

/-- The texts `P <first> <last>` and `E <first> <last>` (R55, R57). -/
def decodeSectorLine (text : Bytes) : Except DecodeError Instr :=
  match splitSpaces text with
  | [letter, f, l] =>
    match readDec f, readDec l with
    | some first, some last =>
      if letter = [0x50#8] then
        if (Instr.txPrepare first last).wf then .ok (.txPrepare first last) else .error .sectorOutOfRange
      else if letter = [0x45#8] then
        if (Instr.txErase first last).wf then .ok (.txErase first last) else .error .sectorOutOfRange
      else .error .noSuchLine
    | _, _ => .error .noSuchLine
  | _ => .error .noSuchLine

/-- A line named by the select byte of its opcode-table row, its first byte (R54), with the operands the block always passes.
The two `W` rows share their select byte: it names the first (log entry 5). -/
def decodeLineSelect (b : Byte) : Except DecodeError Instr :=
  match b.toNat with
  | 0x3F => .ok .txStart
  | 0x53 => .ok .txSyncAck
  | 0x30 => .ok .txAckVal
  | 0x4A => .ok .txVersion
  | 0x55 => .ok .txUnlock
  | 0x50 => .ok (.txPrepare sectorFirst sectorLast)
  | 0x45 => .ok (.txErase sectorFirst sectorLast)
  | 0x57 => .ok .txWriteRam1
  | 0x43 => .ok .txCopy
  | _ => .error .noSuchLine

/-- A letter line: one byte is a select byte, more are the line's whole text (R55). The text of a `C` line holds `cursor`, which is
the block's to supply, so TX_COPY is named by its select byte only. -/
def decodeLetterLine : Bytes → Except DecodeError Instr
  | [] => .error .emptyRequest
  | [b] => decodeLineSelect b
  | text =>
    if text = textSyncAck then .ok .txSyncAck
    else if text = textUnlock then .ok .txUnlock
    else if text = textWriteRam ramAddr1 then .ok .txWriteRam1
    else if text = textWriteRam ramAddr2 then .ok .txWriteRam2
    else decodeSectorLine text

/-- An encoded data line (R59). -/
def decodeDataLine (text : Bytes) : Except DecodeError Instr :=
  if (Instr.txDataLine text).wf then .ok (.txDataLine text) else .error .malformedDataLine

/-- A checksum line: the decimal text of a 32-bit value (R55 row 11, R56). -/
def decodeChecksumLine (text : Bytes) : Except DecodeError Instr :=
  match readDec text with
  | some n => if n < 4294967296 then .ok (.txChecksum (BitVec.ofNat 32 n)) else .error .malformedChecksum
  | none => .error .malformedChecksum

/-- The instruction a request names, or the reason it names none. -/
def decode (r : Request) : Except DecodeError Instr :=
  match r.port with
  | .hostOp => decodeHostOp r.bytes
  | .transcoder => decodeTranscoder r.bytes
  | .letterLine => decodeLetterLine r.bytes
  | .dataLine => decodeDataLine r.bytes
  | .checksumLine => decodeChecksumLine r.bytes

/-! ### Encoding -/

/-- The request of an instruction; `none` for the internal sequences, which no port selects. -/
def encode : Instr → Option Request
  | .openSession => some ⟨.hostOp, [0x00#8]⟩
  | .handshake => some ⟨.hostOp, [0x01#8]⟩
  | .version => some ⟨.hostOp, [0x02#8]⟩
  | .prepare => some ⟨.hostOp, [0x03#8]⟩
  | .write record => some ⟨.hostOp, 0x04#8 :: record⟩
  | .finish => some ⟨.hostOp, [0x05#8]⟩
  | .closeSession => some ⟨.hostOp, [0x06#8]⟩
  | .start => some ⟨.hostOp, [0x07#8]⟩
  | .encGroup b0 b1 b2 => some ⟨.transcoder, [0x00#8, b0, b1, b2]⟩
  | .decGroup c0 c1 c2 c3 => some ⟨.transcoder, [0x01#8, c0, c1, c2, c3]⟩
  | .encLine raw => some ⟨.transcoder, 0x02#8 :: raw⟩
  | .decLine line => some ⟨.transcoder, 0x03#8 :: line⟩
  | .txStart => some ⟨.letterLine, Machine.textStart⟩
  | .txSyncAck => some ⟨.letterLine, textSyncAck⟩
  | .txAckVal => some ⟨.letterLine, Machine.textAckVal⟩
  | .txVersion => some ⟨.letterLine, Machine.textVersion⟩
  | .txUnlock => some ⟨.letterLine, textUnlock⟩
  | .txPrepare first last => some ⟨.letterLine, textPrepare first last⟩
  | .txErase first last => some ⟨.letterLine, textErase first last⟩
  | .txWriteRam1 => some ⟨.letterLine, textWriteRam ramAddr1⟩
  | .txWriteRam2 => some ⟨.letterLine, textWriteRam ramAddr2⟩
  | .txDataLine line => some ⟨.dataLine, line⟩
  | .txChecksum sum => some ⟨.checksumLine, textChecksum sum⟩
  | .txCopy => some ⟨.letterLine, [0x43#8]⟩
  | .execute _ _ _ _ | .parseDec _ | .encHalf _ | .sendHalf _ | .flushUnit => none

/-! ### Words as spec/opcode_table.json numbers them -/

/-- The bytes of a table word, the first at the lowest address: byte `k` is bits `8k+7..8k`. -/
def tableBytes (nbits w : Nat) : Bytes := (List.range ((nbits + 7) / 8)).map (fun k => BitVec.ofNat 8 (w >>> (8 * k)))

/-- The request a table word stands for. The table numbers three selects (`op_sel`, `xc_sel`, first byte of a line) from bit 0 and
does not say which port a word is for: a word of two bits is an `xc_sel`, else a first byte below 8 is an `op_sel`, else the word is
a letter line (log entry 5). Operands the table gives no bits are zero: WRITE's record is then eight zero bytes, a group's input
zero bytes, and a line function's input one zero byte. -/
def requestOfTableWord (nbits w : Nat) : Request :=
  if nbits = 2 then
    match w % 4 with
    | 0 => ⟨.transcoder, [0x00#8, 0#8, 0#8, 0#8]⟩
    | 1 => ⟨.transcoder, [0x01#8, 0#8, 0#8, 0#8, 0#8]⟩
    | 2 => ⟨.transcoder, [0x02#8, 0#8]⟩
    | _ => ⟨.transcoder, [0x03#8, 0#8]⟩
  else
    match tableBytes nbits w with
    | [] => ⟨.hostOp, []⟩
    | b :: operand =>
      if b = 0x04#8 then ⟨.hostOp, b :: (operand ++ List.replicate (8 - operand.length) 0#8)⟩
      else if b.toNat < 8 then ⟨.hostOp, b :: operand⟩
      else ⟨.letterLine, b :: operand⟩

/-- The instruction the decoder reads from a table word. -/
def decodeTableWord (nbits w : Nat) : Option Instr :=
  match decode (requestOfTableWord nbits w) with
  | .ok i => some i
  | .error _ => none

end Sys2Proof
end

