-- ==== Sys2Proof/Machine/Flags.lean ====
section
/-! DEFINITION. The block "has no flags, condition codes or predicates" (R17). What stands here is what it has in their place: the
conditions its operations test, "only ... on `fill`, `cursor`, `hs`, `valid`, the record's size field and received bytes", as
functions of those values. -/

namespace Sys2Proof.Machine

/-- The record tests of R150, after `valid`: true when the record is to be rejected with `BadRecord`. -/
def recordRejected (fill : Nat) (record : Bytes) : Bool :=
  record.length < 8 || recordSize record % 4 != 0 || 2047 < fill + recordSize record || record.length < 8 + recordSize record

/-- The path choice of R154: a flush is due unless `fill + size < 1024`. -/
def flushDue (fill : Nat) (record : Bytes) : Bool := !(fill + recordSize record < unitLen)

/-- The range test of R156: true when a due flush is to be refused. -/
def rangeExceeded (cursor : Nat) : Bool := flashLimit < cursor + unitLen

/-- The echo comparison: `r[0..L) = text` (R101, R105). -/
def echoMatches (text r : Bytes) : Bool := r.take text.length == text

/-- The status-token comparison: `r[L+SEP_LEN .. L+SEP_LEN+len(tok)) = tok`; the separator is not compared (R105). -/
def tokenMatches (text : Bytes) (sepLen : Nat) (tok : Token) (r : Bytes) : Bool :=
  (r.drop (text.length + sepLen)).take (tokenBytes tok).length == tokenBytes tok

/-- Whether the `N` received bytes satisfy the checked regions of the shape (R58, R103 to R106). -/
def shapeMatches (shape : Shape) (text : Bytes) (sepLen : Nat) (r : Bytes) : Bool :=
  match shape with
  | .literal lit => r == lit
  | .echo => r == text
  | .echoStatus tok => echoMatches text r && tokenMatches text sepLen tok r
  | .echoStatusField tok _ => echoMatches text r && tokenMatches text sepLen tok r

end Sys2Proof.Machine
end

