-- ==== Sys2Proof/Machine/State.lean ====
section
/-! DEFINITION. The state as plain data, its value after reset, and the reasons a step can stop. -/

namespace Sys2Proof.Machine

/-- `handshakeState` (10_state.md rule R14), in the order of its forward progression. -/
inductive HandshakeState where
  | start
  | syn
  | ack
  | successful
  deriving DecidableEq, Repr

/-- The staging-buffer space (20_memory.md rule R31): byte cells, addresses strictly rising, none equal to the filler. An unlisted
address reads as FILLER = 0xFF, the reset contents (R25). -/
abbrev Memory := List Host.Cell

/-- One event at the transport (R37), in program order (R45). -/
inductive Event where
  /-- The bytes of one `Send` or `SendT`, the terminator included. -/
  | send (bytes : Bytes)
  /-- One `Recv(n)` and what it gave: `n` bytes, or `none` for `Timeout`. -/
  | recv (n : Nat) (answer : Option Bytes)
  deriving DecidableEq, Repr

/-- One item of the transport's future on the receive side (log entry 2): a byte that arrives, or a gap, that is the transport
reporting `Timeout` to the receive that waits there. -/
inductive RxItem where
  | byte (b : Byte)
  | gap
  deriving DecidableEq, Repr

/-- What an operation, function or sequence gives its caller (R16): `Accepted` with what it returns, `Rejected` with a reason, or the
output of a transcoder function. -/
inductive Output where
  /-- `(Accepted, None)`. -/
  | accepted
  /-- `Accepted` with the parsed version number (VERSION and START, R135, R64). -/
  | acceptedVersion (v : Nat)
  /-- `Accepted` with the uncompared field bytes (TX_VERSION and EXECUTE with a field, R106). -/
  | acceptedField (field : Bytes)
  /-- `(Rejected, reason)`. -/
  | rejected (reason : Reason)
  /-- Bytes from a transcoder function (R53). -/
  | bytes (b : Bytes)
  /-- The `invalid` result of a decoder function: a value, not a rejection (R8, R84, R86). -/
  | invalid
  /-- The twelve lines of ENC_HALF (R87). -/
  | lines (ls : List Bytes)
  /-- The number of PARSE_DEC (R136). -/
  | number (n : Nat)
  deriving DecidableEq, Repr

/-- The machine's state. `sb`, `fill`, `cursor`, `hs` and `valid` are the whole of the block's own state (R10); `out` and `trace` are what
its ports have shown; `rx` and `program` are its inputs, as data that a step consumes; `cfg` is fixed. -/
structure State where
  /-- Open parameters (R6); no step writes them. -/
  cfg : Config
  /-- `stagingBuffer` (R11). -/
  sb : Memory
  /-- `stagingFill` (R12). -/
  fill : Nat
  /-- `flashCursor` (R13). -/
  cursor : Nat
  /-- `handshakeState` (R14). -/
  hs : HandshakeState
  /-- `sessionValid` (R15). -/
  valid : Bool
  /-- The result port: the last result given (R16); no operation reads it. -/
  out : Option Output
  /-- What has passed the transport, oldest first (R36, R45); no operation reads it. -/
  trace : List Event
  /-- The receive stream still to come (R23, R36). -/
  rx : List RxItem
  /-- The requests the host still presents, the next first (R19, R52). -/
  program : List Request
  deriving DecidableEq, Repr

/-- Why the machine stops with a fault. -/
inductive Fault where
  /-- Raised by a receive that the transport never answers while no RX_TIMEOUT is in force: "a hang of the block" (R222, treatment
  `stuck` of U7). Safe: the block is busy for ever there too. -/
  | receiveHang
  deriving DecidableEq, Repr

/-- Why the model gives a step no meaning. -/
inductive Refusal where
  /-- Raised by exec for an instruction with no meaning yet. Safe: nothing is claimed of it. -/
  | notModelled (mnemonic : String)
  /-- Raised by step for a request that names no instruction. Safe: the block's ports cannot carry it (R52, R53) or refuse it (R85). -/
  | undecodable (error : DecodeError)
  /-- Raised by ENC_LINE given 0 or more than 45 raw bytes: "the port refuses them (no output defined)" (R85). Safe. -/
  | encLineDomain
  deriving DecidableEq, Repr

/-- The machine after hardware reset (R25, R210): `valid` = 0, `hs` = START, `fill` = 0, `cursor` = 0, every `sb[i]` = 0xFF, idle, nothing
sent. `cfg` is at its default (log entries 3, 4), and no input is pending (log entries 1, 2). -/
def State.reset : State :=
  { cfg := Config.default
    sb := []
    fill := 0
    cursor := 0
    hs := .start
    valid := false
    out := none
    trace := []
    rx := []
    program := [] }

end Sys2Proof.Machine
end

