-- ==== Sys2Proof/Machine/Ops.lean ====
section
/-! DEFINITION. The named operations over memory, transport and result port, and the two ways an operation ends: `Accepted`, and
`raise Rejected(reason)`, the block's analogue of taking an exception (60_exceptions.md rule R196). -/

namespace Sys2Proof.Machine

/-! ### The staging buffer (R31, R164) -/

/-- `sb[a]`: an unlisted address reads as the filler. -/
def Memory.read : Memory → Nat → Byte
  | [], _ => filler
  | (b, w) :: rest, a => if a = b then w else Memory.read rest a

/-- `sb[a] <- v`, keeping the canonical form: the filler is never listed. -/
def Memory.write : Memory → Nat → Byte → Memory
  | [], a, v => if v = filler then [] else [(a, v)]
  | (b, w) :: rest, a, v =>
    if a < b then (if v = filler then (b, w) :: rest else (a, v) :: (b, w) :: rest)
    else if a = b then (if v = filler then rest else (a, v) :: rest)
    else (b, w) :: Memory.write rest a v

/-- `MemWrite(SB, a, n, v)`: `sb[a+k] <- v[k]` for `k` in 0..n-1 (R8). -/
def Memory.writeBytes : Memory → Nat → Bytes → Memory
  | m, _, [] => m
  | m, a, v :: vs => Memory.writeBytes (m.write a v) (a + 1) vs

/-- Bytes `a` to `a+n-1` in ascending order. -/
def Memory.readBytes (m : Memory) (a n : Nat) : Bytes := (List.range n).map (fun i => m.read (a + i))

/-- `for i in a..1023: sb[i] <- 0xFF`, the refill of an aborted flush (R159). -/
def Memory.refillFrom (m : Memory) (a : Nat) : Memory := m.writeBytes a (List.replicate (unitLen - a) filler)

/-- The whole buffer at the filler (R24, R153, R160). -/
def Memory.allFiller : Memory := []

/-- The canonical form from address `lo` up: addresses strictly rising and below `hi`, no cell equal to the filler. -/
def Memory.wfFrom : Nat → Nat → Memory → Bool
  | _, _, [] => true
  | lo, hi, (b, w) :: rest => lo ≤ b && b < hi && w != filler && Memory.wfFrom (b + 1) hi rest

/-- The canonical form over the staging-buffer space, addresses 0..1023. -/
def Memory.wf (m : Memory) : Bool := Memory.wfFrom 0 unitLen m

/-- The bytes of half `h` (R11). -/
def halfBytes (h : Half) (s : State) : Bytes := s.sb.readBytes (halfBase h) halfLen

/-! ### Read-only status ports (R18) -/

/-- The 2-bit code of `handshakeState` (R14). -/
def HandshakeState.code : HandshakeState → BitVec 2
  | .start => 0#2
  | .syn => 1#2
  | .ack => 2#2
  | .successful => 3#2

/-- The 4-bit code of a reason (R180); 0 is `None`, 14 and 15 are never produced. -/
def Reason.code : Reason → BitVec 4
  | .handshakeFailure => 1#4
  | .versionUnsupported => 2#4
  | .transactionMismatch => 3#4
  | .unlockRejected => 4#4
  | .sectorPrepareRejected => 5#4
  | .eraseRejected => 6#4
  | .ramWriteRejected => 7#4
  | .checksumRejected => 8#4
  | .copyToFlashRejected => 9#4
  | .transportTimeout => 10#4
  | .noSession => 11#4
  | .rangeExceeded => 12#4
  | .badRecord => 13#4

/-- The 4-bit `reason` output that goes with a result (R16, R180): `None` unless rejected. -/
def Output.reasonCode : Output → BitVec 4
  | .rejected r => Reason.code r
  | .accepted | .acceptedVersion _ | .acceptedField _ | .bytes _ | .invalid | .lines _ | .number _ => 0#4

/-- The status read ports `valid`, `hs`, `fill`, `cursor` (R18), with no side effect. -/
def statusPorts (s : State) : Bool × BitVec 2 × Nat × Nat := (s.valid, HandshakeState.code s.hs, s.fill, s.cursor)

/-- The test read port `sb[i]` (R18), with no side effect. -/
def sbPort (s : State) (i : Fin 1024) : Byte := s.sb.read i.val

/-! ### How a sequence runs -/

/-- What running part of an operation comes to: it goes on with a value, it raises a rejection, or it waits for ever. -/
inductive Run (α : Type) where
  | ok (value : α) (s : State)
  | raise (reason : Reason) (s : State)
  | hang
  deriving Repr

/-- Sequencing: the next step runs only after one that went on, on the state that one left; a rejection ends the whole
("fail-fast and non-retrying at this layer", R196a). -/
def Run.andThen {α β : Type} (x : Run α) (f : α → State → Run β) : Run β :=
  match x with
  | .ok a s => f a s
  | .raise r s => .raise r s
  | .hang => .hang

/-- Putting a result on the result port (R16). -/
def returnResult (o : Output) (s : State) : State := { s with out := some o }

/-- Taking a rejection (R196): the operation stops with the reason on the result port; nothing is saved, no mode changes, and
`valid` is not cleared. -/
def takeRejection (r : Reason) (s : State) : State := returnResult (.rejected r) s

/-- The end of an operation: its result on the port and the block idle again, which is also the return from a rejection (R197); or
the hang of R222. -/
def Run.report {α : Type} (x : Run α) (accept : α → Output) : Host.Outcome State Fault Refusal :=
  match x with
  | .ok a s => .next (returnResult (accept a) s)
  | .raise r s => .next (takeRejection r s)
  | .hang => .fault .receiveHang

/-! ### The transport primitives (R37) -/

/-- `Send(bytes)`: the bytes appended to the transmit stream; it cannot fail (D28). -/
def send (bytes : Bytes) (s : State) : State := { s with trace := s.trace ++ [.send bytes] }

/-- `SendT(bytes)` is `Send(bytes ++ TERM)` (D5). -/
def sendT (bytes : Bytes) (s : State) : State := send (bytes ++ s.cfg.term) s

/-- What the receive stream holds for a receive of `n` bytes. -/
inductive Arrival where
  /-- `n` bytes, and the stream after them. -/
  | got (bytes : Bytes) (rest : List RxItem)
  /-- The transport reports `Timeout`; the stream after it is whatever follows the gap. -/
  | timedOut (rest : List RxItem)
  /-- Fewer than `n` bytes and nothing after them, ever. -/
  | silence
  deriving DecidableEq, Repr

/-- The next `n` bytes of the receive stream in arrival order (R23, R37). -/
def arrival : Nat → List RxItem → Arrival
  | 0, rx => .got [] rx
  | _ + 1, [] => .silence
  | _ + 1, .gap :: rest => .timedOut rest
  | n + 1, .byte b :: rest =>
    match arrival n rest with
    | .got bytes rest' => .got (b :: bytes) rest'
    | .timedOut rest' => .timedOut rest'
    | .silence => .silence

/-- `Recv(n)` (R37): the next `n` bytes, or the rejection `TransportTimeout` that R102 gives a `Timeout` in any transaction. Silence is a
`Timeout` when a receive bound is in force and a hang when none is (R222). The fate of bytes that arrived before the `Timeout` is left
open (R37, U11): the model drops them, both before a gap and before a silence that the bound ends, where the stream is then empty
(log entry 2, DESIGN CHOICE). -/
def recv (n : Nat) (s : State) : Run Bytes :=
  match arrival n s.rx with
  | .got bytes rest => .ok bytes { s with rx := rest, trace := s.trace ++ [.recv n (some bytes)] }
  | .timedOut rest => .raise .transportTimeout { s with rx := rest, trace := s.trace ++ [.recv n none] }
  | .silence =>
    if s.cfg.rxTimeoutSet then .raise .transportTimeout { s with rx := [], trace := s.trace ++ [.recv n none] }
    else .hang

/-! ### EXECUTE (R100) -/

/-- One transaction: exactly one send, exactly one receive of the shape's length, then the comparison; on a mismatch the reason `why`.
It gives the field bytes of the response, empty for a shape without a field. -/
def transact (text : Bytes) (term : Bool) (shape : Shape) (why : Reason) (s : State) : Run Bytes :=
  (recv (shapeLength shape text s.cfg.sepLen) (if term then sendT text s else send text s)).andThen fun r s' =>
    if shapeMatches shape text s'.cfg.sepLen r then .ok (shapeField shape text s'.cfg.sepLen r) s' else .raise why s'

end Sys2Proof.Machine
end

