-- ==== Sys2Proof/Machine/Transcoder.lean ====
section
/-! DEFINITION. The meanings of the transcoder rows (40_transcoder.md): ENC_GROUP, DEC_GROUP, ENC_LINE, DEC_LINE and the internal ENC_HALF and
PARSE_DEC. Each is "pure function, side-effect free": only the output port changes. -/

namespace Sys2Proof.Machine

/-- The output of a decoder function: its bytes, or `invalid` (R84, R86). -/
def decoderOutput : Option Bytes → Output
  | some b => .bytes b
  | none => .invalid

/-- ENC_GROUP (R82). -/
def execEncGroup (b0 b1 b2 : Byte) (s : State) : Host.Outcome State Fault Refusal :=
  .next (returnResult (.bytes (groupEncode b0 b1 b2)) s)

/-- DEC_GROUP (R84). -/
def execDecGroup (c0 c1 c2 c3 : Byte) (s : State) : Host.Outcome State Fault Refusal :=
  .next (returnResult (decoderOutput (groupDecode c0 c1 c2 c3)) s)

/-- ENC_LINE (R85); outside 1 to 45 raw bytes "the port refuses them (no output defined)". -/
def execEncLine (raw : Bytes) (s : State) : Host.Outcome State Fault Refusal :=
  if 1 ≤ raw.length ∧ raw.length ≤ lineMax then .next (returnResult (.bytes (lineEncode raw)) s) else .refused .encLineDomain

/-- DEC_LINE (R86). -/
def execDecLine (line : Bytes) (s : State) : Host.Outcome State Fault Refusal :=
  .next (returnResult (decoderOutput (lineDecode line)) s)

/-- ENC_HALF (R87). -/
def execEncHalf (half : Bytes) (s : State) : Host.Outcome State Fault Refusal :=
  .next (returnResult (.lines (halfEncode half)) s)

/-- PARSE_DEC (R136). -/
def execParseDec (field : Bytes) (s : State) : Host.Outcome State Fault Refusal :=
  .next (returnResult (.number (parseDigits field)) s)

end Sys2Proof.Machine
end

