-- ==== Sys2Proof/Machine/Transaction.lean ====
section
/-! DEFINITION. The twelve transactions (41_transaction.md rules R110 to R121) as steps of a sequence (`runTx...`), and the meanings of the twelve
line rows and of EXECUTE, each that one transaction run on its own with its result on the port (log entry 7). -/

namespace Sys2Proof.Machine

/-! ### As steps of a sequence -/

/-- TX_START (R110): no terminator, the literal `Synchronized`. -/
def runTxStart (s : State) : Run Bytes := transact textStart false (.literal syncString) .handshakeFailure s

/-- TX_SYNCACK (R111). -/
def runTxSyncAck (s : State) : Run Bytes := transact textSyncAck true (.echoStatus .data) .handshakeFailure s

/-- TX_ACKVAL (R112). -/
def runTxAckVal (s : State) : Run Bytes := transact textAckVal true (.echoStatus .data) .handshakeFailure s

/-- TX_VERSION (R113): gives the 10-byte field. -/
def runTxVersion (s : State) : Run Bytes :=
  transact textVersion true (.echoStatusField .proto versionFieldLen) .transactionMismatch s

/-- TX_UNLOCK (R114). -/
def runTxUnlock (s : State) : Run Bytes := transact textUnlock true (.echoStatus .proto) .unlockRejected s

/-- TX_PREPARE(first, last) (R115). -/
def runTxPrepare (first last : Nat) (s : State) : Run Bytes :=
  transact (textPrepare first last) true (.echoStatus .proto) .sectorPrepareRejected s

/-- TX_ERASE(first, last) (R116). -/
def runTxErase (first last : Nat) (s : State) : Run Bytes :=
  transact (textErase first last) true (.echoStatus .proto) .eraseRejected s

/-- TX_WRITERAM1 and TX_WRITERAM2 (R117, R118), by the half they announce. -/
def runTxWriteRam (h : Half) (s : State) : Run Bytes :=
  transact (textWriteRam (halfAddress h)) true (.echoStatus .proto) .ramWriteRejected s

/-- TX_DATALINE (R119). -/
def runTxDataLine (line : Bytes) (s : State) : Run Bytes := transact line true .echo .transactionMismatch s

/-- TX_CHECKSUM (R120). -/
def runTxChecksum (sum : BitVec 32) (s : State) : Run Bytes :=
  transact (textChecksum sum) true (.echoStatus .data) .checksumRejected s

/-- TX_COPY (R121): reads `cursor`, does not advance it. -/
def runTxCopy (s : State) : Run Bytes := transact (textCopy s.cursor) true (.echoStatus .proto) .copyToFlashRejected s

/-! ### As rows of the opcode table -/

/-- `Accepted`, whatever the transaction received. -/
def acceptPlain : Bytes → Output := fun _ => .accepted

/-- What EXECUTE returns (R100): "ok", "with the field bytes for ECHO_STATUS_FIELD". -/
def acceptShape (shape : Shape) (field : Bytes) : Output :=
  match shape with
  | .literal _ | .echo | .echoStatus _ => .accepted
  | .echoStatusField _ _ => .acceptedField field

/-- TX_START (R110). -/
def execTxStart (s : State) : Host.Outcome State Fault Refusal := (runTxStart s).report acceptPlain

/-- TX_SYNCACK (R111). -/
def execTxSyncAck (s : State) : Host.Outcome State Fault Refusal := (runTxSyncAck s).report acceptPlain

/-- TX_ACKVAL (R112). -/
def execTxAckVal (s : State) : Host.Outcome State Fault Refusal := (runTxAckVal s).report acceptPlain

/-- TX_VERSION (R113). -/
def execTxVersion (s : State) : Host.Outcome State Fault Refusal := (runTxVersion s).report .acceptedField

/-- TX_UNLOCK (R114). -/
def execTxUnlock (s : State) : Host.Outcome State Fault Refusal := (runTxUnlock s).report acceptPlain

/-- TX_PREPARE (R115). -/
def execTxPrepare (first last : Nat) (s : State) : Host.Outcome State Fault Refusal :=
  (runTxPrepare first last s).report acceptPlain

/-- TX_ERASE (R116). -/
def execTxErase (first last : Nat) (s : State) : Host.Outcome State Fault Refusal :=
  (runTxErase first last s).report acceptPlain

/-- TX_WRITERAM1 (R117). -/
def execTxWriteRam1 (s : State) : Host.Outcome State Fault Refusal := (runTxWriteRam .half0 s).report acceptPlain

/-- TX_WRITERAM2 (R118). -/
def execTxWriteRam2 (s : State) : Host.Outcome State Fault Refusal := (runTxWriteRam .half1 s).report acceptPlain

/-- TX_DATALINE (R119). -/
def execTxDataLine (line : Bytes) (s : State) : Host.Outcome State Fault Refusal := (runTxDataLine line s).report acceptPlain

/-- TX_CHECKSUM (R120). -/
def execTxChecksum (sum : BitVec 32) (s : State) : Host.Outcome State Fault Refusal := (runTxChecksum sum s).report acceptPlain

/-- TX_COPY (R121). -/
def execTxCopy (s : State) : Host.Outcome State Fault Refusal := (runTxCopy s).report acceptPlain

/-- EXECUTE (R100). -/
def execExecute (text : Bytes) (term : Bool) (shape : Shape) (why : Reason) (s : State) : Host.Outcome State Fault Refusal :=
  (transact text term shape why s).report (acceptShape shape)

end Sys2Proof.Machine
end

