-- ==== Sys2Proof/Machine/Session.lean ====
section
/-! DEFINITION. Session control, handshake, version check and sector preparation (42_handshake_sector.md): OPEN, CLOSE, HANDSHAKE, VERSION,
PREPARE, and the pseudo-operation START (30_encoding.md rule R64). -/

namespace Sys2Proof.Machine

/-- The session test every operation but OPEN, CLOSE and START begins with (R191). -/
def requireSession (s : State) : Run Unit := if s.valid then .ok () s else .raise .noSession s

/-- OPEN (R130, values of R24). -/
def openState (s : State) : State :=
  { s with sb := Memory.allFiller, fill := 0, cursor := 0, hs := .start, valid := true }

/-- The START step of a handshake pass (R132): runs only in START, and moves to SYN when its transaction is ok. -/
def handshakeStart (s : State) : Run Unit :=
  if s.hs = .start then (runTxStart s).andThen fun _ s' => .ok () { s' with hs := .syn } else .ok () s

/-- The SYN step (R133). -/
def handshakeSyn (s : State) : Run Unit :=
  if s.hs = .syn then (runTxSyncAck s).andThen fun _ s' => .ok () { s' with hs := .ack } else .ok () s

/-- The ACK step (R134). -/
def handshakeAck (s : State) : Run Unit :=
  if s.hs = .ack then (runTxAckVal s).andThen fun _ s' => .ok () { s' with hs := .successful } else .ok () s

/-- HANDSHAKE (R131): one forward pass from the current state. -/
def runHandshake (s : State) : Run Unit :=
  (requireSession s).andThen fun _ s1 =>
  (handshakeStart s1).andThen fun _ s2 =>
  (handshakeSyn s2).andThen fun _ s3 =>
  handshakeAck s3

/-- VERSION (R135): gives the parsed number. -/
def runVersion (s : State) : Run Nat :=
  (requireSession s).andThen fun _ s1 =>
  (runTxVersion s1).andThen fun field s2 =>
  if parseDigits field = 0 then .raise .versionUnsupported s2 else .ok (parseDigits field) s2

/-- PREPARE (R137): unlock, prepare sectors 0 to 29, erase sectors 0 to 29. -/
def runPrepare (s : State) : Run Unit :=
  (requireSession s).andThen fun _ s1 =>
  (runTxUnlock s1).andThen fun _ s2 =>
  (runTxPrepare sectorFirst sectorLast s2).andThen fun _ s3 =>
  (runTxErase sectorFirst sectorLast s3).andThen fun _ s4 =>
  .ok () s4

/-- START (R64): OPEN, HANDSHAKE, VERSION, PREPARE, fail-fast; gives VERSION's number. -/
def runStart (s : State) : Run Nat :=
  (runHandshake (openState s)).andThen fun _ s1 =>
  (runVersion s1).andThen fun v s2 =>
  (runPrepare s2).andThen fun _ s3 =>
  .ok v s3

/-- `Accepted` with nothing returned. -/
def acceptUnit : Unit → Output := fun _ => .accepted

/-- OPEN (R130): always `Accepted`, no transport activity. -/
def execOpenSession (s : State) : Host.Outcome State Fault Refusal := .next (returnResult .accepted (openState s))

/-- CLOSE (R138): always `Accepted`, no transport activity; the other registers keep their values. -/
def execCloseSession (s : State) : Host.Outcome State Fault Refusal := .next (returnResult .accepted { s with valid := false })

/-- HANDSHAKE (R131). -/
def execHandshake (s : State) : Host.Outcome State Fault Refusal := (runHandshake s).report acceptUnit

/-- VERSION (R135). -/
def execVersion (s : State) : Host.Outcome State Fault Refusal := (runVersion s).report .acceptedVersion

/-- PREPARE (R137). -/
def execPrepare (s : State) : Host.Outcome State Fault Refusal := (runPrepare s).report acceptUnit

/-- START (R64, R139). -/
def execStart (s : State) : Host.Outcome State Fault Refusal := (runStart s).report .acceptedVersion

end Sys2Proof.Machine
end

