-- ==== Sys2Proof/Machine/Writer.lean ====
section
/-! DEFINITION. The streaming write accumulator, the flush sequencer and the termination flusher (43_writer.md): WRITE, FINISH, and the internal
SEND_HALF and FLUSH_UNIT. -/

namespace Sys2Proof.Machine

/-- The data lines of a half, each echo verified before the next line is sent (R158). -/
def sendLines : List Bytes → State → Run Unit
  | [], s => .ok () s
  | line :: rest, s => (runTxDataLine line s).andThen fun _ s' => sendLines rest s'

/-- SEND_HALF (R158): unlock, write-RAM, the twelve data lines, the checksum; fifteen transactions. -/
def runSendHalf (h : Half) (s : State) : Run Unit :=
  (runTxUnlock s).andThen fun _ s1 =>
  (runTxWriteRam h s1).andThen fun _ s2 =>
  (sendLines (halfEncode (halfBytes h s2)) s2).andThen fun _ s3 =>
  (runTxChecksum (checksum (halfBytes h s3)) s3).andThen fun _ s4 =>
  .ok () s4

/-- FLUSH_UNIT (R157): both halves, then unlock, prepare sectors, copy; thirty-three transactions, no register written. -/
def runFlushUnit (s : State) : Run Unit :=
  (runSendHalf .half0 s).andThen fun _ s1 =>
  (runSendHalf .half1 s1).andThen fun _ s2 =>
  (runTxUnlock s2).andThen fun _ s3 =>
  (runTxPrepare sectorFirst sectorLast s3).andThen fun _ s4 =>
  (runTxCopy s4).andThen fun _ s5 =>
  .ok () s5

/-- The accumulate path of WRITE (R152). -/
def accumulate (data : Bytes) (s : State) : State :=
  { s with sb := s.sb.writeBytes s.fill data, fill := s.fill + data.length }

/-- Step 3a of WRITE (R153): the buffer filled up to 1024 valid bytes; `fill` is not written yet. -/
def topUp (data : Bytes) (s : State) : State :=
  { s with sb := s.sb.writeBytes s.fill (data.take (unitLen - s.fill)) }

/-- Step 3e of WRITE (R153), after a completed flush: the cursor advanced, the buffer reset, the remainder carried. -/
def advanceAndCarry (rem : Bytes) (s : State) : State :=
  { s with cursor := s.cursor + unitLen, sb := Memory.allFiller.writeBytes 0 rem, fill := rem.length }

/-- The abort of a flush inside WRITE (R159): `sb[fill..1024)` is filler again before the rejection is reported. -/
def abortFlush (x : Run Unit) : Run Unit :=
  match x with
  | .ok a s => .ok a s
  | .raise r s => .raise r { s with sb := s.sb.refillFrom s.fill }
  | .hang => .hang

/-- The overflow path of WRITE (R153, R156). -/
def runOverflow (data : Bytes) (s : State) : Run Unit :=
  if rangeExceeded s.cursor then .raise .rangeExceeded s
  else
    (abortFlush (runFlushUnit (topUp data s))).andThen fun _ s' =>
    .ok () (advanceAndCarry (data.drop (unitLen - s.fill)) s')

/-- WRITE (R150 to R154): validation, word swap, then the accumulate or the overflow path; at most one flush. -/
def runWrite (record : Bytes) (s : State) : Run Unit :=
  (requireSession s).andThen fun _ s1 =>
  if recordRejected s1.fill record then .raise .badRecord s1
  else if flushDue s1.fill record then runOverflow (recordData record) s1
  else .ok () (accumulate (recordData record) s1)

/-- What a successful flush of FINISH leaves (R160). -/
def finishState (s : State) : State :=
  { s with cursor := s.cursor + unitLen, sb := Memory.allFiller, fill := 0, valid := false }

/-- FINISH (R160): with nothing staged it only ends the session; otherwise one flush of the buffer as it stands. -/
def runFinish (s : State) : Run Unit :=
  (requireSession s).andThen fun _ s1 =>
  if s1.fill = 0 then .ok () { s1 with valid := false }
  else if rangeExceeded s1.cursor then .raise .rangeExceeded s1
  else (runFlushUnit s1).andThen fun _ s2 => .ok () (finishState s2)

/-- WRITE (R153). -/
def execWrite (record : Bytes) (s : State) : Host.Outcome State Fault Refusal := (runWrite record s).report acceptUnit

/-- FINISH (R160). -/
def execFinish (s : State) : Host.Outcome State Fault Refusal := (runFinish s).report acceptUnit

/-- SEND_HALF (R158), run on its own (log entry 7). -/
def execSendHalf (h : Half) (s : State) : Host.Outcome State Fault Refusal := (runSendHalf h s).report acceptUnit

/-- FLUSH_UNIT (R157), run on its own (log entry 7). -/
def execFlushUnit (s : State) : Host.Outcome State Fault Refusal := (runFlushUnit s).report acceptUnit

end Sys2Proof.Machine
end

