-- ==== Sys2Proof/Machine/Dispatch.lean ====
section
/-! DEFINITION. One arm per constructor of `Instr`, each one direct call of that instruction's meaning. -/

namespace Sys2Proof.Machine

def exec (i : Instr) (s : State) : Host.Outcome State Fault Refusal :=
  match i with
  -- host operations
  | .openSession => Sys2Proof.Machine.execOpenSession s
  | .handshake => Sys2Proof.Machine.execHandshake s
  | .version => Sys2Proof.Machine.execVersion s
  | .prepare => Sys2Proof.Machine.execPrepare s
  | .write record => Sys2Proof.Machine.execWrite record s
  | .finish => Sys2Proof.Machine.execFinish s
  | .closeSession => Sys2Proof.Machine.execCloseSession s
  | .start => Sys2Proof.Machine.execStart s
  -- transcoder functions
  | .encGroup b0 b1 b2 => Sys2Proof.Machine.execEncGroup b0 b1 b2 s
  | .decGroup c0 c1 c2 c3 => Sys2Proof.Machine.execDecGroup c0 c1 c2 c3 s
  | .encLine raw => Sys2Proof.Machine.execEncLine raw s
  | .decLine line => Sys2Proof.Machine.execDecLine line s
  -- protocol lines
  | .txStart => Sys2Proof.Machine.execTxStart s
  | .txSyncAck => Sys2Proof.Machine.execTxSyncAck s
  | .txAckVal => Sys2Proof.Machine.execTxAckVal s
  | .txVersion => Sys2Proof.Machine.execTxVersion s
  | .txUnlock => Sys2Proof.Machine.execTxUnlock s
  | .txPrepare first last => Sys2Proof.Machine.execTxPrepare first last s
  | .txErase first last => Sys2Proof.Machine.execTxErase first last s
  | .txWriteRam1 => Sys2Proof.Machine.execTxWriteRam1 s
  | .txWriteRam2 => Sys2Proof.Machine.execTxWriteRam2 s
  | .txDataLine line => Sys2Proof.Machine.execTxDataLine line s
  | .txChecksum sum => Sys2Proof.Machine.execTxChecksum sum s
  | .txCopy => Sys2Proof.Machine.execTxCopy s
  -- internal sequences
  | .execute text term shape why => Sys2Proof.Machine.execExecute text term shape why s
  | .parseDec field => Sys2Proof.Machine.execParseDec field s
  | .encHalf half => Sys2Proof.Machine.execEncHalf half s
  | .sendHalf h => Sys2Proof.Machine.execSendHalf h s
  | .flushUnit => Sys2Proof.Machine.execFlushUnit s

end Sys2Proof.Machine
end

