-- ==== Sys2Proof/Machine/Step.lean ====
section
/-! DEFINITION. One step: the host's next request, decoded and run to its result (10_state.md rule R19). -/

namespace Sys2Proof.Machine

/-- One step. With no request pending the block stays as it is: it "does nothing until the host invokes an operation" (R210). A request is
taken off the list before its operation runs; one that names no instruction is refused by name. -/
def step (s : State) : Host.Outcome State Fault Refusal :=
  match s.program with
  | [] => .next s
  | r :: rest =>
    match decode r with
    | .ok i => exec i { s with program := rest }
    | .error e => .refused (.undecodable e)

/-- `s` with the request of a table word put first among those the host presents (log entry 1). -/
def State.withFetchWord (s : State) (nbits w : Nat) : State :=
  { s with program := requestOfTableWord nbits w :: s.program }

end Sys2Proof.Machine
end

