-- ==== Sys2Proof/Safety.lean ====
section
/-! DEFINITION. What the claims speak of: the invariant of the registers at rest, frames, the exchanges of an operation with the transport,
and the catalogue of the twelve protocol lines as the spec's table gives it, written here a second time from the table. -/

namespace Sys2Proof.Machine

/-! ### The registers at rest -/

/-- The registers' invariant at rest (10_state.md rules R11, R12, R13 and 43_writer.md rule R162): the buffer is canonical and every
byte from `fill` up is filler; `fill < 1024` and a multiple of 4; `cursor` a multiple of 1024, at most 44032. R6 adds that TERM has at
least one byte. -/
abbrev State.Inv (s : State) : Prop :=
  Memory.wfFrom 0 s.fill s.sb = true ∧ s.fill < 1024 ∧ s.fill % 4 = 0 ∧ s.cursor % 1024 = 0 ∧ s.cursor ≤ 44032
    ∧ 1 ≤ s.cfg.term.length

/-- The five registers of R10 are as they were. -/
abbrev State.SameRegisters (s t : State) : Prop :=
  t.sb = s.sb ∧ t.fill = s.fill ∧ t.cursor = s.cursor ∧ t.hs = s.hs ∧ t.valid = s.valid

/-- Nothing passed the transport. -/
abbrev State.SameTransport (s t : State) : Prop := t.trace = s.trace ∧ t.rx = s.rx

/-- What no instruction writes: the parameters, and the requests still to come. -/
abbrev State.SameSetting (s t : State) : Prop := t.cfg = s.cfg ∧ t.program = s.program

/-- The order of the forward progression of `handshakeState` (R14). -/
def HandshakeState.rank : HandshakeState → Nat
  | .start => 0
  | .syn => 1
  | .ack => 2
  | .successful => 3

/-! ### Exchanges with the transport -/

/-- One line sent and the answer received in full to it. -/
structure Exchange where
  sent : Bytes
  answer : Bytes
  deriving DecidableEq, Repr

/-- The receive stream that gives the bytes `b` and then goes on with `rest`. -/
def feed (b : Bytes) (rest : List RxItem) : List RxItem := b.map .byte ++ rest

/-- The answers of a list of exchanges, in order. -/
def answersOf (xs : List Exchange) : Bytes := xs.flatMap Exchange.answer

/-- The transport events of a list of exchanges, in order. -/
def eventsOf (xs : List Exchange) : List Event :=
  xs.flatMap fun x => [.send x.sent, .recv x.answer.length (some x.answer)]

/-- `s` after the exchanges `xs`, with `rest` still to be received and the result `o` on the port; all registers as in `s`. -/
def State.afterExchanges (s : State) (xs : List Exchange) (rest : List RxItem) (o : Output) : State :=
  { s with rx := rest, trace := s.trace ++ eventsOf xs, out := some o }

/-- The transmit stream of a trace. -/
def transmitted (trace : List Event) : Bytes :=
  trace.flatMap fun e => match e with
    | .send b => b
    | .recv _ _ => []

/-- The number of receives in a trace. -/
def receives (trace : List Event) : Nat :=
  trace.countP fun e => match e with
    | .send _ => false
    | .recv _ _ => true

/-! ### The protocol line catalogue (R55, R65, R180) -/

/-- One line of the catalogue: its text, the status token its answer carries (none for a data line, whose answer is the echo alone),
and the reason a mismatch gives. -/
structure CatalogueLine where
  text : Bytes
  token : Option Token
  why : Reason
  deriving DecidableEq, Repr

/-- The answer that matches a line, with `sep` in the separator position. -/
def CatalogueLine.answer (l : CatalogueLine) (sep : Bytes) : Bytes :=
  match l.token with
  | none => l.text
  | some tok => l.text ++ sep ++ tokenBytes tok

/-- The length of the answer received to a line (R58). -/
def CatalogueLine.answerLength (l : CatalogueLine) (sepLen : Nat) : Nat :=
  match l.token with
  | none => l.text.length
  | some tok => l.text.length + sepLen + (tokenBytes tok).length

/-- The exchange in which a line, sent with terminator, is answered by a match. -/
def CatalogueLine.exchange (l : CatalogueLine) (cfg : Config) (sep : Bytes) : Exchange :=
  { sent := l.text ++ cfg.term, answer := l.answer sep }

/-- Row 2. -/
def lineSyncAck : CatalogueLine := ⟨syncString, some .data, .handshakeFailure⟩
/-- Row 3: `0`. -/
def lineAckVal : CatalogueLine := ⟨[0x30#8], some .data, .handshakeFailure⟩
/-- Row 5: `U 23130`. -/
def lineUnlock : CatalogueLine :=
  ⟨[0x55#8, 0x20#8, 0x32#8, 0x33#8, 0x31#8, 0x33#8, 0x30#8], some .proto, .unlockRejected⟩
/-- Row 6 with operands: `P <first> <last>`. -/
def linePrepare (first last : Nat) : CatalogueLine :=
  ⟨[0x50#8, 0x20#8] ++ dec first ++ [0x20#8] ++ dec last, some .proto, .sectorPrepareRejected⟩
/-- Row 7 with operands: `E <first> <last>`. -/
def lineErase (first last : Nat) : CatalogueLine :=
  ⟨[0x45#8, 0x20#8] ++ dec first ++ [0x20#8] ++ dec last, some .proto, .eraseRejected⟩
/-- Row 8: `W 268435968 512`. -/
def lineWriteRam1 : CatalogueLine :=
  ⟨[0x57#8, 0x20#8, 0x32#8, 0x36#8, 0x38#8, 0x34#8, 0x33#8, 0x35#8, 0x39#8, 0x36#8, 0x38#8, 0x20#8, 0x35#8, 0x31#8, 0x32#8],
    some .proto, .ramWriteRejected⟩
/-- Row 9: `W 268436480 512`. -/
def lineWriteRam2 : CatalogueLine :=
  ⟨[0x57#8, 0x20#8, 0x32#8, 0x36#8, 0x38#8, 0x34#8, 0x33#8, 0x36#8, 0x34#8, 0x38#8, 0x30#8, 0x20#8, 0x35#8, 0x31#8, 0x32#8],
    some .proto, .ramWriteRejected⟩
/-- Row 10. -/
def lineData (text : Bytes) : CatalogueLine := ⟨text, none, .transactionMismatch⟩
/-- Row 11: `dec(sum)`. -/
def lineChecksum (sum : Nat) : CatalogueLine := ⟨dec sum, some .data, .checksumRejected⟩
/-- Row 12: `C <cursor> 268435968 1024`. -/
def lineCopy (cursor : Nat) : CatalogueLine :=
  ⟨[0x43#8, 0x20#8] ++ dec cursor ++
    [0x20#8, 0x32#8, 0x36#8, 0x38#8, 0x34#8, 0x33#8, 0x35#8, 0x39#8, 0x36#8, 0x38#8, 0x20#8, 0x31#8, 0x30#8, 0x32#8, 0x34#8],
    some .proto, .copyToFlashRejected⟩

/-- The three lines of PREPARE (R137). -/
def prepareLines : List CatalogueLine := [lineUnlock, linePrepare 0 29, lineErase 0 29]

/-- The fifteen lines of a half `bytes` announced by `ram` (R158): unlock, write-RAM, twelve data lines, the sum of the half's bytes. -/
def halfLines (ram : CatalogueLine) (bytes : Bytes) : List CatalogueLine :=
  [lineUnlock, ram] ++ (halfEncode bytes).map lineData ++ [lineChecksum (bytes.map BitVec.toNat).sum]

/-- The thirty-three lines of a flush of the unit `buf` at `cursor` (R157, R161). -/
def unitLines (buf : Bytes) (cursor : Nat) : List CatalogueLine :=
  halfLines lineWriteRam1 (buf.take 512) ++ halfLines lineWriteRam2 (buf.drop 512)
    ++ [lineUnlock, linePrepare 0 29, lineCopy cursor]

/-- The exchanges of lines answered by matches, the `k`-th with the separator `seps k`. -/
def exchangesOf (cfg : Config) (seps : Nat → Bytes) (lines : List CatalogueLine) : List Exchange :=
  lines.zipIdx.map fun p => p.1.exchange cfg (seps p.2)

/-- `seps` gives separators of the length SEP_LEN. -/
abbrev Separators (cfg : Config) (seps : Nat → Bytes) : Prop := ∀ k, (seps k).length = cfg.sepLen

/-- `r` is an answer of the full length to a line that does not match it, whatever the separator. -/
abbrev CatalogueLine.MismatchedBy (l : CatalogueLine) (sepLen : Nat) (r : Bytes) : Prop :=
  r.length = l.answerLength sepLen ∧ ∀ sep : Bytes, sep.length = sepLen → r ≠ l.answer sep

/-! ### Sequences of writes -/

/-- One WRITE after another as long as each is accepted; `none` when one is not. -/
def writeAll : List Bytes → State → Option State
  | [], s => some s
  | record :: records, s =>
    match exec (.write record) s with
    | .next t => if t.out = some .accepted then writeAll records t else none
    | .fault _ => none
    | .refused _ => none

/-- The size field written out of the record's bytes: bytes 4 to 7, big-endian (R38, R51); the second reading of it, beside the model's own. -/
def declaredSize : Bytes → Nat
  | _ :: _ :: _ :: _ :: z0 :: z1 :: z2 :: z3 :: _ => ((z0.toNat * 256 + z1.toNat) * 256 + z2.toNat) * 256 + z3.toNat
  | _ => 0

/-- A record of whole words that holds the payload it declares (R51, R150). -/
abbrev WholeWords (record : Bytes) : Prop := declaredSize record % 4 = 0 ∧ 8 + declaredSize record ≤ record.length

/-- `q` of R151 written out of the record's bytes: `q[4k+j]` is payload byte `4k+3-j`, and the payload begins at byte 8. -/
def swappedPayload (record : Bytes) : Bytes :=
  (List.range (declaredSize record)).map fun i => record.getD (8 + (4 * (i / 4) + 3 - i % 4)) 0#8

end Sys2Proof.Machine
end

