-- ==== Sys2Proof/Certificates/Slice0/Obligations.lean ====
section
/-! DEFINITION. The statements for the provers. Each docstring names the rule a statement formalises; where a clause rests on a decision of the
spec (D<n> of 92_eei_decisions.md) or on a choice of the model, the docstring says so and the statement's basis is `derived`. -/

open Sys2Proof Sys2Proof.Machine

/-! ### The transcoder -/

/-- 40_transcoder.md, ENC_GROUP, in arithmetic: the four six-bit values of the three bytes as one 24-bit number, most significant first (bit order: decision
D9), each shifted by 0x20, the value 0 replaced by 0x60. Only the output port changes. -/
def Obligations.EncGroupGivesTheFourCharacters : Prop :=
  ∀ (b0 b1 b2 : Byte) (s : State),
    let w := b0.toNat * 65536 + b1.toNat * 256 + b2.toNat
    let char := fun v : Nat => if v = 0 then 0x60#8 else BitVec.ofNat 8 (v + 32)
    exec (.encGroup b0 b1 b2) s =
      .next { s with out := some (.bytes
        [char (w / 262144), char (w / 4096 % 64), char (w / 64 % 64), char (w % 64)]) }

/-- 40_transcoder.md, DEC_GROUP, in arithmetic: four characters in 0x21..0x60 give the three bytes of the 24-bit number they stand for (0x60 standing for 0);
any other character makes the result `invalid` (decisions D9, D11). Only the output port changes. -/
def Obligations.DecGroupGivesTheBytesOrInvalid : Prop :=
  ∀ (c0 c1 c2 c3 : Byte) (s : State),
    let ok := fun c : Byte => 33 ≤ c.toNat ∧ c.toNat ≤ 96
    let val := fun c : Byte => (c.toNat - 32) % 64
    let w := val c0 * 262144 + val c1 * 4096 + val c2 * 64 + val c3
    ((ok c0 ∧ ok c1 ∧ ok c2 ∧ ok c3) →
      exec (.decGroup c0 c1 c2 c3) s =
        .next { s with out := some (.bytes
          [BitVec.ofNat 8 (w / 65536), BitVec.ofNat 8 (w / 256), BitVec.ofNat 8 w]) })
    ∧ (¬ (ok c0 ∧ ok c1 ∧ ok c2 ∧ ok c3) →
      exec (.decGroup c0 c1 c2 c3) s = .next { s with out := some .invalid })

/-- R88, whole: the characters of a group are in 0x21..0x60 and never 0x20, DEC_GROUP recovers the bytes; and its consequences (a) no data line of ENC_LINE
holds 0x20, 0x0D, 0x0A or a byte above 0x60, (b) ENC_GROUP is injective, (c) ENC_LINE is injective on its domain. -/
def Obligations.TranscoderIsPrintableAndReversible : Prop :=
  (∀ (b0 b1 b2 : Byte) (s : State), ∃ c0 c1 c2 c3 : Byte,
    exec (.encGroup b0 b1 b2) s = .next { s with out := some (.bytes [c0, c1, c2, c3]) }
    ∧ (∀ c ∈ [c0, c1, c2, c3], 0x21 ≤ c.toNat ∧ c.toNat ≤ 0x60 ∧ c ≠ 0x20#8)
    ∧ exec (.decGroup c0 c1 c2 c3) s = .next { s with out := some (.bytes [b0, b1, b2]) })
  ∧ (∀ (b0 b1 b2 b0' b1' b2' : Byte) (s : State),
    exec (.encGroup b0 b1 b2) s = exec (.encGroup b0' b1' b2') s → b0 = b0' ∧ b1 = b1' ∧ b2 = b2')
  ∧ (∀ (raw : Bytes) (s : State), 1 ≤ raw.length → raw.length ≤ 45 → ∃ line : Bytes,
    exec (.encLine raw) s = .next { s with out := some (.bytes line) }
    ∧ ∀ c ∈ line, c ≠ 0x20#8 ∧ c ≠ 0x0D#8 ∧ c ≠ 0x0A#8 ∧ c.toNat ≤ 0x60)
  ∧ (∀ (raw raw' : Bytes) (s : State), 1 ≤ raw.length → raw.length ≤ 45 → 1 ≤ raw'.length → raw'.length ≤ 45 →
    exec (.encLine raw) s = exec (.encLine raw') s → raw = raw')

/-- 40_transcoder.md, DEC_GROUP's law in the other direction: every four valid characters are what ENC_GROUP makes of the bytes they decode to. -/
def Obligations.ValidCharactersReencodeToThemselves : Prop :=
  ∀ (c0 c1 c2 c3 : Byte) (s : State), (∀ c ∈ [c0, c1, c2, c3], 0x21 ≤ c.toNat ∧ c.toNat ≤ 0x60) →
    ∃ b0 b1 b2 : Byte,
      exec (.decGroup c0 c1 c2 c3) s = .next { s with out := some (.bytes [b0, b1, b2]) }
      ∧ exec (.encGroup b0 b1 b2) s = .next { s with out := some (.bytes [c0, c1, c2, c3]) }

/-- 40_transcoder.md, ENC_LINE on 1 to 45 raw bytes: the length byte n + 0x20, then ceil(n/3) groups, the missing bytes of the last taken as 0x00 (padding:
decision D10). Only the output port changes. -/
def Obligations.EncLineGivesLengthByteAndGroups : Prop :=
  ∀ (raw : Bytes) (s : State), 1 ≤ raw.length → raw.length ≤ 45 →
    ∃ line : Bytes, exec (.encLine raw) s = .next { s with out := some (.bytes line) }
      ∧ line.length = 1 + 4 * ((raw.length + 2) / 3)
      ∧ line.head? = some (BitVec.ofNat 8 (raw.length + 0x20))
      ∧ ∀ g, g < (raw.length + 2) / 3 →
        exec (.encGroup (raw.getD (3 * g) 0#8) (raw.getD (3 * g + 1) 0#8) (raw.getD (3 * g + 2) 0#8)) s =
          .next { s with out := some (.bytes ((line.drop (1 + 4 * g)).take 4)) }

/-- 40_transcoder.md, ENC_LINE on 0 or more than 45 raw bytes: "the port refuses them (no output defined)". -/
def Obligations.EncLineRefusesOtherLengths : Prop :=
  ∀ (raw : Bytes) (s : State), raw.length = 0 ∨ 45 < raw.length → exec (.encLine raw) s = .refused .encLineDomain

/-- 40_transcoder.md, DEC_LINE's law: it recovers the raw bytes of every encoded line. -/
def Obligations.DecLineRecoversEncLine : Prop :=
  ∀ (raw : Bytes) (s : State), 1 ≤ raw.length → raw.length ≤ 45 →
    ∃ line : Bytes, exec (.encLine raw) s = .next { s with out := some (.bytes line) }
      ∧ exec (.decLine line) s = .next { s with out := some (.bytes raw) }

/-- 40_transcoder.md, DEC_LINE on any byte string: it always completes; when the length byte is in 0x21..0x4D, the body has the length it calls for and every body
character is in 0x21..0x60, the result is as many bytes as the length byte says, the first of those that DEC_GROUP gives for the body's groups in order (the rest, the padding, is
discarded without being inspected); and it is `invalid` otherwise (decision D11). -/
def Obligations.DecLineAcceptsExactlyTheLines : Prop :=
  ∀ (line : Bytes) (s : State),
    let good := fun (l : Byte) (body : Bytes) => line = l :: body ∧ 0x21 ≤ l.toNat ∧ l.toNat ≤ 0x4D
      ∧ body.length = 4 * ((l.toNat - 32 + 2) / 3) ∧ ∀ c ∈ body, 0x21 ≤ c.toNat ∧ c.toNat ≤ 0x60
    (∀ (l : Byte) (body : Bytes), good l body →
      ∃ raw : Bytes, exec (.decLine line) s = .next { s with out := some (.bytes raw) } ∧ l.toNat = raw.length + 32
        ∧ ∀ g, g < (raw.length + 2) / 3 → ∃ b0 b1 b2 : Byte,
          exec (.decGroup (body.getD (4 * g) 0#8) (body.getD (4 * g + 1) 0#8) (body.getD (4 * g + 2) 0#8) (body.getD (4 * g + 3) 0#8)) s =
            .next { s with out := some (.bytes [b0, b1, b2]) }
          ∧ (raw.drop (3 * g)).take 3 = [b0, b1, b2].take (raw.length - 3 * g))
    ∧ ((¬ ∃ (l : Byte) (body : Bytes), good l body) → exec (.decLine line) s = .next { s with out := some .invalid })

/-- 40_transcoder.md, ENC_HALF: a 512-byte half becomes 12 lines, `line_k` what ENC_LINE gives for `h[45k..45k+45)` and the last what it gives for `h[495..512)` (its padding thereby
0x00, decision D10, log entry 6); the first 11 are of 61 characters beginning with `M` and the last of 25 beginning with `1`, 696 characters in all, and they decode, in order, to the
half. -/
def Obligations.EncHalfSplitsIntoTwelveLines : Prop :=
  ∀ (h : Bytes) (s : State), h.length = 512 →
    ∃ ls : List Bytes, exec (.encHalf h) s = .next { s with out := some (.lines ls) }
      ∧ ls.length = 12 ∧ (ls.map List.length).sum = 696
      ∧ (∀ k, k < 11 → ∃ l ∈ ls[k]?, l.length = 61 ∧ l.head? = some 0x4D#8
        ∧ exec (.encLine ((h.drop (45 * k)).take 45)) s = .next { s with out := some (.bytes l) }
        ∧ exec (.decLine l) s = .next { s with out := some (.bytes ((h.drop (45 * k)).take 45)) })
      ∧ (∃ l ∈ ls[11]?, l.length = 25 ∧ l.head? = some 0x31#8
        ∧ exec (.encLine (h.drop 495)) s = .next { s with out := some (.bytes l) }
        ∧ exec (.decLine l) s = .next { s with out := some (.bytes (h.drop 495)) })

/-- 42_handshake_sector.md, PARSE_DEC: the number whose decimal digits are the digit characters of the field, in order, every other byte skipped, without
wraparound (decision D13); at most 9999999999 for a 10-byte field. -/
def Obligations.ParseDecReadsTheDigitsOnly : Prop :=
  ∀ (field : Bytes) (s : State),
    let digits := (field.filter fun b => 0x30 ≤ b.toNat && b.toNat ≤ 0x39).map fun b => b.toNat - 0x30
    exec (.parseDec field) s = .next { s with out := some (.number (Nat.ofDigits 10 digits.reverse)) }
    ∧ (field.length = 10 → Nat.ofDigits 10 digits.reverse ≤ 9999999999)

/-! ### Transactions -/

/-- R100 and R101, the accepting side: exactly one send and one receive, and acceptance when the answer is the shape's checked regions, whatever stands in the
separator positions; the field bytes are handed back uncompared. No register changes. -/
def Obligations.ExecuteAcceptsMatchingAnswers : Prop :=
  ∀ (text : Bytes) (term : Bool) (why : Reason) (s : State) (rest : List RxItem) (tok : Token) (sep sep' lit field : Bytes),
    text ≠ [] → lit ≠ [] → sep.length = s.cfg.sepLen → sep'.length = s.cfg.sepLen →
    let sent := if term then text ++ s.cfg.term else text
    let after := fun answer o => State.afterExchanges s [⟨sent, answer⟩] rest o
    (s.rx = feed lit rest → exec (.execute text term (.literal lit) why) s = .next (after lit .accepted))
    ∧ (s.rx = feed text rest → exec (.execute text term .echo why) s = .next (after text .accepted))
    ∧ (s.rx = feed (text ++ sep ++ tokenBytes tok) rest →
      exec (.execute text term (.echoStatus tok) why) s = .next (after (text ++ sep ++ tokenBytes tok) .accepted))
    ∧ (s.rx = feed (text ++ sep ++ tokenBytes tok ++ sep' ++ field) rest →
      exec (.execute text term (.echoStatusField tok field.length) why) s =
        .next (after (text ++ sep ++ tokenBytes tok ++ sep' ++ field) (.acceptedField field)))

/-- R100 and R101, the rejecting side: an answer of the full length that is not the shape's checked regions (for any bytes in the separator and field positions)
gives `Rejected` with the reason of the call, after the same one send and one receive. No register changes. -/
def Obligations.ExecuteRejectsMismatchingAnswers : Prop :=
  ∀ (text : Bytes) (term : Bool) (why : Reason) (s : State) (rest : List RxItem) (tok : Token) (lit r : Bytes) (f : Nat),
    text ≠ [] → lit ≠ [] → s.rx = feed r rest →
    let sent := if term then text ++ s.cfg.term else text
    let after := .next (State.afterExchanges s [⟨sent, r⟩] rest (.rejected why))
    (r.length = lit.length → r ≠ lit → exec (.execute text term (.literal lit) why) s = after)
    ∧ (r.length = text.length → r ≠ text → exec (.execute text term .echo why) s = after)
    ∧ (r.length = text.length + s.cfg.sepLen + (tokenBytes tok).length →
      (∀ sep : Bytes, sep.length = s.cfg.sepLen → r ≠ text ++ sep ++ tokenBytes tok) →
      exec (.execute text term (.echoStatus tok) why) s = after)
    ∧ (r.length = text.length + s.cfg.sepLen + (tokenBytes tok).length + s.cfg.sepLen + f →
      (∀ sep sep' field : Bytes, sep.length = s.cfg.sepLen → sep'.length = s.cfg.sepLen → field.length = f →
        r ≠ text ++ sep ++ tokenBytes tok ++ sep' ++ field) →
      exec (.execute text term (.echoStatusField tok f) why) s = after)

/-- 41_transaction.md section 2: "Each transaction is one call of EXECUTE with fixed arguments", the arguments of the catalogue's twelve rows. The terminator column
is decision D7, the reasons are decision D14; a transaction run on its own is the model's convention (log entry 7). -/
def Obligations.TransactionsAreCallsOfExecute : Prop :=
  ∀ (s : State) (first last : Nat) (line : Bytes) (sum : BitVec 32),
    exec .txStart s = exec (.execute [0x3F#8] false (.literal syncString) .handshakeFailure) s
    ∧ exec .txSyncAck s = exec (.execute syncString true (.echoStatus .data) .handshakeFailure) s
    ∧ exec .txAckVal s = exec (.execute [0x30#8] true (.echoStatus .data) .handshakeFailure) s
    ∧ exec .txVersion s = exec (.execute [0x4A#8] true (.echoStatusField .proto 10) .transactionMismatch) s
    ∧ exec .txUnlock s = exec (.execute lineUnlock.text true (.echoStatus .proto) .unlockRejected) s
    ∧ exec (.txPrepare first last) s =
      exec (.execute (linePrepare first last).text true (.echoStatus .proto) .sectorPrepareRejected) s
    ∧ exec (.txErase first last) s = exec (.execute (lineErase first last).text true (.echoStatus .proto) .eraseRejected) s
    ∧ exec .txWriteRam1 s = exec (.execute lineWriteRam1.text true (.echoStatus .proto) .ramWriteRejected) s
    ∧ exec .txWriteRam2 s = exec (.execute lineWriteRam2.text true (.echoStatus .proto) .ramWriteRejected) s
    ∧ exec (.txDataLine line) s = exec (.execute line true .echo .transactionMismatch) s
    ∧ exec (.txChecksum sum) s = exec (.execute (dec sum.toNat) true (.echoStatus .data) .checksumRejected) s
    ∧ exec .txCopy s = exec (.execute (lineCopy s.cursor).text true (.echoStatus .proto) .copyToFlashRejected) s

/-- 41_transaction.md, the eleven line kinds sent with terminator but the version line: a matching answer, with any bytes in the separator position, completes the
transaction with `Accepted`; one send, one receive, no register changed. The texts are written out in `Safety.lean` from the catalogue. -/
def Obligations.TransactionsCompleteOnAMatch : Prop :=
  ∀ (s : State) (sep : Bytes) (rest : List RxItem) (first last : Nat) (line : Bytes) (sum : BitVec 32),
    sep.length = s.cfg.sepLen →
    ∀ p ∈ ([(.txSyncAck, lineSyncAck), (.txAckVal, lineAckVal), (.txUnlock, lineUnlock), (.txPrepare first last, linePrepare first last),
        (.txErase first last, lineErase first last), (.txWriteRam1, lineWriteRam1), (.txWriteRam2, lineWriteRam2),
        (.txDataLine line, lineData line), (.txChecksum sum, lineChecksum sum.toNat), (.txCopy, lineCopy s.cursor)] :
        List (Instr × CatalogueLine)),
      s.rx = feed (p.2.answer sep) rest →
        exec p.1 s = .next (s.afterExchanges [p.2.exchange s.cfg sep] rest .accepted)

/-- 41_transaction.md, the same ten line kinds: an answer of the full length that does not match, whatever the separator, is `Rejected` with the row's reason, after
one send and one receive, with no register changed (reasons: decision D14). -/
def Obligations.TransactionsRejectOnAMismatch : Prop :=
  ∀ (s : State) (r : Bytes) (rest : List RxItem) (first last : Nat) (line : Bytes) (sum : BitVec 32),
    s.rx = feed r rest →
    ∀ p ∈ ([(.txSyncAck, lineSyncAck), (.txAckVal, lineAckVal), (.txUnlock, lineUnlock), (.txPrepare first last, linePrepare first last),
        (.txErase first last, lineErase first last), (.txWriteRam1, lineWriteRam1), (.txWriteRam2, lineWriteRam2),
        (.txDataLine line, lineData line), (.txChecksum sum, lineChecksum sum.toNat), (.txCopy, lineCopy s.cursor)] :
        List (Instr × CatalogueLine)),
      p.2.MismatchedBy s.cfg.sepLen r →
        exec p.1 s = .next (s.afterExchanges [⟨p.2.text ++ s.cfg.term, r⟩] rest (.rejected p.2.why))

/-- 41_transaction.md, TX_START and TX_VERSION: the start token goes out without terminator and `Synchronized` alone answers it; the version line's answer hands back
its 10-byte field, whatever stands in the two separator positions. No register changes (decisions D6, D7, D27). -/
def Obligations.StartAndVersionTransactionsComplete : Prop :=
  ∀ (s : State) (sep sep' field : Bytes) (rest : List RxItem),
    sep.length = s.cfg.sepLen → sep'.length = s.cfg.sepLen → field.length = 10 →
    (s.rx = feed syncString rest →
      exec .txStart s = .next (s.afterExchanges [⟨[0x3F#8], syncString⟩] rest .accepted))
    ∧ (s.rx = feed ([0x4A#8] ++ sep ++ [0x30#8] ++ sep' ++ field) rest →
      exec .txVersion s =
        .next (s.afterExchanges [⟨[0x4A#8] ++ s.cfg.term, [0x4A#8] ++ sep ++ [0x30#8] ++ sep' ++ field⟩] rest
          (.acceptedField field)))

/-- R102 (with decisions D14, D23): a receive that times out rejects the transaction with TransportTimeout, whatever its kind and whatever reason a mismatch would
have given; nothing is resent and no register changes. A gap after fewer bytes than asked is a timeout, and so is the end of the stream when a bound is set; that the bytes before
either are dropped, and that the stream is empty after its end, is the model's choice (log entry 2, DESIGN CHOICE). -/
def Obligations.TimeoutRejectsAnyTransaction : Prop :=
  ∀ (text : Bytes) (term : Bool) (shape : Shape) (why : Reason) (s : State) (part : Bytes) (rest : List RxItem),
    part.length < shapeLength shape text s.cfg.sepLen →
    (s.rx = feed part (.gap :: rest) ∨ (s.rx = feed part [] ∧ rest = [] ∧ s.cfg.rxTimeoutSet = true)) →
    exec (.execute text term shape why) s =
      .next { s with
        rx := rest
        trace := s.trace ++
          [.send (if term then text ++ s.cfg.term else text), .recv (shapeLength shape text s.cfg.sepLen) none]
        out := some (.rejected .transportTimeout) }

/-- 70_reset_and_hazards.md, the unbounded block (treatment U7): with no receive bound in force, a receive the transport never answers is a hang. -/
def Obligations.SilenceWithoutABoundHangs : Prop :=
  ∀ (text : Bytes) (term : Bool) (shape : Shape) (why : Reason) (s : State) (part : Bytes),
    s.cfg.rxTimeoutSet = false → s.rx = feed part [] → part.length < shapeLength shape text s.cfg.sepLen →
    exec (.execute text term shape why) s = .fault .receiveHang

/-- 20_memory.md section 2 and 70_reset_and_hazards.md: with a receive bound in force every instruction answers a next state, whatever the transport does; ENC_LINE
outside 1 to 45 raw bytes is the one form the port refuses. -/
def Obligations.EveryInstructionAnswersUnderABound : Prop :=
  ∀ (i : Instr) (s : State), s.cfg.rxTimeoutSet = true → (∀ raw, i = .encLine raw → 1 ≤ raw.length ∧ raw.length ≤ 45) →
    ∃ t, exec i s = .next t

/-! ### Session control, handshake, version, sector preparation -/

/-- R24: OPEN sets every buffer byte to 0xFF, `fill` and `cursor` to 0, `hs` to START and `valid` to 1; it is always accepted and uses no transport. -/
def Obligations.OpenCreatesAFreshSession : Prop :=
  ∀ s : State, ∃ t, exec .openSession s = .next t ∧ (∀ a, Memory.read t.sb a = 0xFF#8) ∧ t.fill = 0 ∧ t.cursor = 0
    ∧ t.hs = .start ∧ t.valid = true ∧ t.out = some .accepted ∧ s.SameTransport t ∧ s.SameSetting t

/-- 42_handshake_sector.md, CLOSE (decision D33): only `valid` is cleared; always accepted, no transport activity. -/
def Obligations.CloseClearsValidOnly : Prop :=
  ∀ s : State, exec .closeSession s = .next { s with valid := false, out := some .accepted }

/-- 42_handshake_sector.md section 2, the transitions of `hs`. In each of START, SYN and ACK, with a session: the step's own answer moves `hs` to the next state and the pass
goes on from there; any other full answer, or a timeout, leaves `hs` where it is. In SUCCESSFUL there is nothing to do. Resuming in SYN or ACK and doing nothing in SUCCESSFUL are
decision D16 (log entry 18); no terminator after `?`, and exactly 12 bytes in answer, are decisions D7 and D27 (log entry 17); TransportTimeout in place of the step's reason is
decision D14 (log entry 19). -/
def Obligations.HandshakeTransitions : Prop :=
  ∀ (s : State) (sep r part : Bytes) (rest : List RxItem), s.valid = true → sep.length = s.cfg.sepLen →
    (s.hs = .start →
      (s.rx = feed syncString rest →
        exec .handshake s = exec .handshake { s with
          hs := .syn, rx := rest, trace := s.trace ++ eventsOf [⟨[0x3F#8], syncString⟩] })
      ∧ (r.length = 12 → r ≠ syncString → s.rx = feed r rest →
        exec .handshake s = .next (s.afterExchanges [⟨[0x3F#8], r⟩] rest (.rejected .handshakeFailure)))
      ∧ (part.length < 12 → s.rx = feed part (.gap :: rest) →
        exec .handshake s = .next { s with
          rx := rest, trace := s.trace ++ [.send [0x3F#8], .recv 12 none], out := some (.rejected .transportTimeout) }))
    ∧ (∀ p ∈ [(HandshakeState.syn, HandshakeState.ack, lineSyncAck), (.ack, .successful, lineAckVal)], s.hs = p.1 →
      (s.rx = feed (p.2.2.answer sep) rest →
        exec .handshake s = exec .handshake { s with
          hs := p.2.1, rx := rest, trace := s.trace ++ eventsOf [p.2.2.exchange s.cfg sep] })
      ∧ (p.2.2.MismatchedBy s.cfg.sepLen r → s.rx = feed r rest →
        exec .handshake s =
          .next (s.afterExchanges [⟨p.2.2.text ++ s.cfg.term, r⟩] rest (.rejected .handshakeFailure)))
      ∧ (part.length < p.2.2.text.length + s.cfg.sepLen + 2 → s.rx = feed part (.gap :: rest) →
        exec .handshake s = .next { s with
          rx := rest
          trace := s.trace ++ [.send (p.2.2.text ++ s.cfg.term), .recv (p.2.2.text.length + s.cfg.sepLen + 2) none]
          out := some (.rejected .transportTimeout) }))
    ∧ (s.hs = .successful → exec .handshake s = .next { s with out := some .accepted })

/-- 42_handshake_sector.md, HANDSHAKE on a cooperative target: from START one pass sends `?`, `Synchronized` and `0` and ends `Accepted` in SUCCESSFUL; no other register
changes. -/
def Obligations.HandshakeCompletesInOnePass : Prop :=
  ∀ (s : State) (seps : Nat → Bytes) (rest : List RxItem), s.valid = true → s.hs = .start → Separators s.cfg seps →
    let xs := ⟨[0x3F#8], syncString⟩ :: exchangesOf s.cfg seps [lineSyncAck, lineAckVal]
    s.rx = feed (answersOf xs) rest →
    exec .handshake s = .next { s.afterExchanges xs rest .accepted with hs := .successful }

/-- 60_exceptions.md, NoSession (decision D4): without a session HANDSHAKE, VERSION, PREPARE, WRITE and FINISH are rejected; nothing but the result port changes. -/
def Obligations.NoSessionRejectsFiveOperations : Prop :=
  ∀ (s : State) (record : Bytes), s.valid = false →
    ∀ i ∈ [Instr.handshake, .version, .prepare, .write record, .finish],
      exec i s = .next { s with out := some (.rejected .noSession) }

/-- 42_handshake_sector.md section 3, VERSION with a session, whatever `hs`. On a matching answer, whatever the separators, the number of the digits in the 10-byte field is
returned when it is not 0 (decisions D13, D37; log entry 20). An answer of the full length whose echo or token is wrong gives TransactionMismatch, the reason of the transaction and
never one that the field decides: the field is not parsed. A timeout gives TransportTimeout. The reasons are decision D14 (log entry 19), the terminator is decision D7 (log entry
17). No register changes in any of the three. -/
def Obligations.VersionReturnsTheFieldsNumber : Prop :=
  ∀ (s : State) (r part : Bytes) (rest : List RxItem), s.valid = true →
    (∀ sep sep' field : Bytes, sep.length = s.cfg.sepLen → sep'.length = s.cfg.sepLen → field.length = 10 →
      let v := Nat.ofDigits 10 ((field.filter fun b => 0x30 ≤ b.toNat && b.toNat ≤ 0x39).map fun b => b.toNat - 0x30).reverse
      let x : Exchange := ⟨[0x4A#8] ++ s.cfg.term, [0x4A#8] ++ sep ++ [0x30#8] ++ sep' ++ field⟩
      v ≠ 0 → s.rx = feed x.answer rest → exec .version s = .next (s.afterExchanges [x] rest (.acceptedVersion v)))
    ∧ (r.length = 1 + s.cfg.sepLen + 1 + s.cfg.sepLen + 10 →
      (∀ sep sep' field : Bytes, sep.length = s.cfg.sepLen → sep'.length = s.cfg.sepLen → field.length = 10 →
        r ≠ [0x4A#8] ++ sep ++ [0x30#8] ++ sep' ++ field) →
      s.rx = feed r rest →
      exec .version s = .next (s.afterExchanges [⟨[0x4A#8] ++ s.cfg.term, r⟩] rest (.rejected .transactionMismatch)))
    ∧ (part.length < 1 + s.cfg.sepLen + 1 + s.cfg.sepLen + 10 → s.rx = feed part (.gap :: rest) →
      exec .version s = .next { s with
        rx := rest
        trace := s.trace ++
          [.send ([0x4A#8] ++ s.cfg.term), .recv (1 + s.cfg.sepLen + 1 + s.cfg.sepLen + 10) none]
        out := some (.rejected .transportTimeout) })

/-- 60_exceptions.md section 1, VersionUnsupported: VERSION raises it when the transaction matched and the parsed number is 0, that is when every digit of the field, if it has any, is
`0` (a field without digits counts as 0: decision D13, log entry 20); all response bytes were received, and no register changes. The line carries a terminator (decision D7, log entry
17). -/
def Obligations.VersionOfNoDigitButZeroIsUnsupported : Prop :=
  ∀ (s : State) (sep sep' field : Bytes) (rest : List RxItem),
    s.valid = true → sep.length = s.cfg.sepLen → sep'.length = s.cfg.sepLen → field.length = 10 →
    (∀ b ∈ field, ¬ (0x31 ≤ b.toNat ∧ b.toNat ≤ 0x39)) →
    let x : Exchange := ⟨[0x4A#8] ++ s.cfg.term, [0x4A#8] ++ sep ++ [0x30#8] ++ sep' ++ field⟩
    s.rx = feed x.answer rest → exec .version s = .next (s.afterExchanges [x] rest (.rejected .versionUnsupported))

/-- 42_handshake_sector.md section 4: without a session PREPARE is rejected and nothing is sent (decision D4, log entry 12); with one it is unlock, prepare-sectors 0 to 29,
erase-sectors 0 to 29, in that order. All three answered by matches: `Accepted`. The step that is answered by a mismatch, or that times out, ends it with that step's reason, or
TransportTimeout (decision D14, log entry 19), and no later line is sent. Each line carries a terminator (decision D7, log entry 17). No register changes. -/
def Obligations.PrepareRunsItsThreeLinesInOrder : Prop :=
  ∀ (s : State) (seps : Nat → Bytes) (r part : Bytes) (rest : List RxItem), Separators s.cfg seps →
    (s.valid = false → exec .prepare s = .next { s with out := some (.rejected .noSession) })
    ∧ (s.valid = true →
      (s.rx = feed (answersOf (exchangesOf s.cfg seps prepareLines)) rest →
        exec .prepare s = .next (s.afterExchanges (exchangesOf s.cfg seps prepareLines) rest .accepted))
      ∧ ∀ k, ∀ l ∈ prepareLines[k]?,
        let before := exchangesOf s.cfg seps (prepareLines.take k)
        (l.MismatchedBy s.cfg.sepLen r → s.rx = feed (answersOf before ++ r) rest →
          exec .prepare s =
            .next (s.afterExchanges (before ++ [⟨l.text ++ s.cfg.term, r⟩]) rest (.rejected l.why)))
        ∧ (part.length < l.answerLength s.cfg.sepLen → s.rx = feed (answersOf before ++ part) (.gap :: rest) →
          exec .prepare s = .next { s with
            rx := rest
            trace := s.trace ++ eventsOf before ++
              [.send (l.text ++ s.cfg.term), .recv (l.answerLength s.cfg.sepLen) none]
            out := some (.rejected .transportTimeout) }))

/-- 30_encoding.md section 8 (decision D2): START is OPEN, HANDSHAKE, VERSION, PREPARE run one after another on the state the one before left, ended by the first that is
rejected, and returning VERSION's number when all are accepted. -/
def Obligations.StartIsTheFailFastChain : Prop :=
  ∀ s s1 s2 : State, exec .openSession s = .next s1 → exec .handshake s1 = .next s2 →
    (s2.out ≠ some .accepted → exec .start s = .next s2)
    ∧ (s2.out = some .accepted → ∀ s3, exec .version s2 = .next s3 →
      ((∀ v, s3.out ≠ some (.acceptedVersion v)) → exec .start s = .next s3)
      ∧ ∀ v, s3.out = some (.acceptedVersion v) → ∀ s4, exec .prepare s3 = .next s4 →
        exec .start s = .next (if s4.out = some .accepted then { s4 with out := some (.acceptedVersion v) } else s4))

/-- 42_handshake_sector.md, START on a cooperative target: seven lines, a fresh session, `hs` = SUCCESSFUL, and VERSION's number returned, from any state. The set of operations is
decision D2, the discarding of an open session decision D34 (log entry 18); the terminator after every line but `?`, and exactly 12 bytes in answer to `?`, are decisions D7 and D27
(log entry 17); the number and its return are decisions D13 and D37 (log entry 20). -/
def Obligations.StartCompletesWithSevenLines : Prop :=
  ∀ (s : State) (seps : Nat → Bytes) (sep sep' field : Bytes) (rest : List RxItem), Separators s.cfg seps →
    sep.length = s.cfg.sepLen → sep'.length = s.cfg.sepLen → field.length = 10 →
    let v := Nat.ofDigits 10 ((field.filter fun b => 0x30 ≤ b.toNat && b.toNat ≤ 0x39).map fun b => b.toNat - 0x30).reverse
    let xs := ⟨[0x3F#8], syncString⟩ :: exchangesOf s.cfg seps [lineSyncAck, lineAckVal]
      ++ [⟨[0x4A#8] ++ s.cfg.term, [0x4A#8] ++ sep ++ [0x30#8] ++ sep' ++ field⟩]
      ++ exchangesOf s.cfg seps prepareLines
    v ≠ 0 → s.rx = feed (answersOf xs) rest →
    exec .start s = .next { s.afterExchanges xs rest (.acceptedVersion v) with
      sb := [], fill := 0, cursor := 0, hs := .successful, valid := true }

/-- 42_handshake_sector.md section 5 (decision D17): VERSION, PREPARE, WRITE and FINISH do not test `hs`; from two states that differ only there they do the same. -/
def Obligations.FourOperationsDoNotTestTheHandshake : Prop :=
  ∀ (s : State) (h : HandshakeState) (record : Bytes), ∀ i ∈ [Instr.version, .prepare, .write record, .finish],
    match exec i s with
    | .next t => exec i { s with hs := h } = .next { t with hs := h }
    | .fault f => exec i { s with hs := h } = .fault f
    | .refused r => exec i { s with hs := h } = .refused r

/-! ### The writer -/

/-- R152 with the record layout of R51 and the word swap of R39: on the accumulate path the payload's bytes, each 4-byte word reversed, are appended at `fill`, `fill`
advances by the payload's length, and nothing else changes but the result port; no transport activity. Bytes 0 to 3 and bytes after the payload may be anything. -/
def Obligations.WriteAccumulatesBelowTheThreshold : Prop :=
  ∀ (s : State) (dest payload extra : Bytes) (z0 z1 z2 z3 : Byte), s.Inv → s.valid = true → dest.length = 4 →
    payload.length = ((z0.toNat * 256 + z1.toNat) * 256 + z2.toNat) * 256 + z3.toNat →
    payload.length % 4 = 0 → s.fill + payload.length < 1024 →
    ∃ t, exec (.write (dest ++ [z0, z1, z2, z3] ++ payload ++ extra)) s = .next t
      ∧ t.fill = s.fill + payload.length ∧ t.cursor = s.cursor ∧ t.hs = s.hs ∧ t.valid = s.valid
      ∧ t.out = some .accepted ∧ s.SameTransport t ∧ s.SameSetting t
      ∧ (∀ k j, 4 * k + j < payload.length → j < 4 →
        Memory.read t.sb (s.fill + 4 * k + j) = payload.getD (4 * k + 3 - j) 0#8)
      ∧ ∀ a, a < s.fill ∨ s.fill + payload.length ≤ a → Memory.read t.sb a = Memory.read s.sb a

/-- 30_encoding.md section 2 and 93_implementation_defined.md U6: WRITE does not depend on the record's `dest` field, nor on the bytes beyond `8 + size`. -/
def Obligations.WriteIgnoresDestAndSurplus : Prop :=
  ∀ (s : State) (dest dest' payload extra extra' : Bytes) (z0 z1 z2 z3 : Byte), dest.length = 4 → dest'.length = 4 →
    payload.length = ((z0.toNat * 256 + z1.toNat) * 256 + z2.toNat) * 256 + z3.toNat →
    exec (.write (dest ++ [z0, z1, z2, z3] ++ payload ++ extra)) s = exec (.write (dest' ++ [z0, z1, z2, z3] ++ payload ++ extra')) s

/-- R153, with the record layout of R51, the size of R38 and the word swap of R39 written out: on the overflow path with the range free and every one of the 33 lines answered by a match, `cursor` advances by 1024, the buffer is filler but for the remainder
of the swapped payload at its front, `fill` is the remainder's length, and the transport saw exactly the flush of the unit made of the staged bytes and the first
`1024 - fill` new ones. -/
def Obligations.WriteFlushesOneUnitAndCarriesTheRest : Prop :=
  ∀ (s : State) (dest tail : Bytes) (z0 z1 z2 z3 : Byte) (seps : Nat → Bytes) (rest : List RxItem), s.Inv → s.valid = true →
    Separators s.cfg seps → dest.length = 4 →
    let size := ((z0.toNat * 256 + z1.toNat) * 256 + z2.toNat) * 256 + z3.toNat
    let q := (List.range size).map fun i => tail.getD (4 * (i / 4) + 3 - i % 4) 0#8
    let k := 1024 - s.fill
    let xs := exchangesOf s.cfg seps (unitLines (Memory.readBytes s.sb 0 s.fill ++ q.take k) s.cursor)
    size % 4 = 0 → 1024 ≤ s.fill + size → s.fill + size ≤ 2047 → size ≤ tail.length → s.cursor ≤ 43008 →
    s.rx = feed (answersOf xs) rest →
    ∃ t, exec (.write (dest ++ [z0, z1, z2, z3] ++ tail)) s = .next t
      ∧ t.cursor = s.cursor + 1024 ∧ t.fill = s.fill + size - 1024 ∧ t.hs = s.hs ∧ t.valid = true
      ∧ (∀ a, Memory.read t.sb a = if a < s.fill + size - 1024 then q.getD (k + a) 0#8 else 0xFF#8)
      ∧ t.out = some .accepted ∧ t.rx = rest ∧ t.trace = s.trace ++ eventsOf xs ∧ s.SameSetting t

/-- 43_writer.md, the state after a rejected WRITE (decision D18 for the refill): `fill`, `cursor`, `hs`, `valid` and the staged bytes `sb[0..fill)` are unchanged, and from a
state at rest so is the whole buffer: the record may be issued again. -/
def Obligations.RejectedWriteLeavesTheRegisters : Prop :=
  ∀ (s t : State) (record : Bytes) (r : Reason), s.Inv → exec (.write record) s = .next t → t.out = some (.rejected r) →
    s.SameRegisters t ∧ s.SameSetting t

/-- 43_writer.md section 1 (decision D20, log entry 10; the spec warns that no claim should rest on the reason BadRecord, so it is stated apart): with a session, a record that
is shorter than 8 bytes, whose size (bytes 4 to 7, big-endian) is not a multiple of 4, whose size with `fill` exceeds 2047, or that is shorter than it declares, is rejected and nothing
but the result port changes. Every record of 8 bytes or more is of the second form. -/
def Obligations.BadRecordHasNoEffect : Prop :=
  ∀ s : State, s.valid = true →
    (∀ record : Bytes, record.length < 8 → exec (.write record) s = .next { s with out := some (.rejected .badRecord) })
    ∧ ∀ (dest tail : Bytes) (z0 z1 z2 z3 : Byte), dest.length = 4 →
      let size := ((z0.toNat * 256 + z1.toNat) * 256 + z2.toNat) * 256 + z3.toNat
      (size % 4 ≠ 0 ∨ 2047 < s.fill + size ∨ tail.length < size) →
      exec (.write (dest ++ [z0, z1, z2, z3] ++ tail)) s = .next { s with out := some (.rejected .badRecord) }

/-- 43_writer.md section 2 (decision D19, log entry 11): a flush that is due with `cursor + 1024 > 44032`, in WRITE or FINISH, is rejected and nothing but the result port
changes. -/
def Obligations.FlushBeyondTheRangeHasNoEffect : Prop :=
  ∀ (s : State) (record : Bytes), s.valid = true → 44032 < s.cursor + 1024 →
    (WholeWords record → 1024 ≤ s.fill + declaredSize record → s.fill + declaredSize record ≤ 2047 →
      exec (.write record) s = .next { s with out := some (.rejected .rangeExceeded) })
    ∧ (s.fill ≠ 0 → exec .finish s = .next { s with out := some (.rejected .rangeExceeded) })

/-- 43_writer.md section 2, FLUSH_UNIT, run on its own (log entry 7): over the 1024 buffer bytes it is its 33 lines in order. All answered by matches: `Accepted`. The line that
is answered by a mismatch, or that times out, ends it with that line's reason, or TransportTimeout (decision D14, log entry 19), and no later line is sent. Each line carries a
terminator (decision D7, log entry 17). No register changes: neither `cursor` nor the buffer. -/
def Obligations.FlushUnitRunsItsThirtyThreeLines : Prop :=
  ∀ (s : State) (seps : Nat → Bytes) (r part : Bytes) (rest : List RxItem), Separators s.cfg seps →
    let ls := unitLines (Memory.readBytes s.sb 0 1024) s.cursor
    ls.length = 33
    ∧ (s.rx = feed (answersOf (exchangesOf s.cfg seps ls)) rest →
      exec .flushUnit s = .next (s.afterExchanges (exchangesOf s.cfg seps ls) rest .accepted))
    ∧ ∀ k, ∀ l ∈ ls[k]?,
      let before := exchangesOf s.cfg seps (ls.take k)
      (l.MismatchedBy s.cfg.sepLen r → s.rx = feed (answersOf before ++ r) rest →
        exec .flushUnit s =
          .next (s.afterExchanges (before ++ [⟨l.text ++ s.cfg.term, r⟩]) rest (.rejected l.why)))
      ∧ (part.length < l.answerLength s.cfg.sepLen → s.rx = feed (answersOf before ++ part) (.gap :: rest) →
        exec .flushUnit s = .next { s with
          rx := rest
          trace := s.trace ++ eventsOf before ++
            [.send (l.text ++ s.cfg.term), .recv (l.answerLength s.cfg.sepLen) none]
          out := some (.rejected .transportTimeout) })

/-- 43_writer.md section 2, SEND_HALF of half 0 or half 1, run on its own (log entry 7): it is its 15 lines in order (unlock, write-RAM at the half's address, the twelve lines of the
half lowest index first, the checksum), over the half's 512 buffer bytes. The first line answered by a mismatch, or that times out, ends it with that line's reason, or
TransportTimeout (decision D14, log entry 19). Each line carries a terminator (decision D7, log entry 17). No register changes. -/
def Obligations.SendHalfRunsItsFifteenLines : Prop :=
  ∀ (s : State) (seps : Nat → Bytes) (r part : Bytes) (rest : List RxItem), Separators s.cfg seps →
    ∀ p ∈ [(Half.half0, lineWriteRam1, 0), (Half.half1, lineWriteRam2, 512)],
      let ls := halfLines p.2.1 (Memory.readBytes s.sb p.2.2 512)
      ls.length = 15
      ∧ (s.rx = feed (answersOf (exchangesOf s.cfg seps ls)) rest →
        exec (.sendHalf p.1) s = .next (s.afterExchanges (exchangesOf s.cfg seps ls) rest .accepted))
      ∧ ∀ k, ∀ l ∈ ls[k]?,
        let before := exchangesOf s.cfg seps (ls.take k)
        (l.MismatchedBy s.cfg.sepLen r → s.rx = feed (answersOf before ++ r) rest →
          exec (.sendHalf p.1) s =
            .next (s.afterExchanges (before ++ [⟨l.text ++ s.cfg.term, r⟩]) rest (.rejected l.why)))
        ∧ (part.length < l.answerLength s.cfg.sepLen → s.rx = feed (answersOf before ++ part) (.gap :: rest) →
          exec (.sendHalf p.1) s = .next { s with
            rx := rest
            trace := s.trace ++ eventsOf before ++
              [.send (l.text ++ s.cfg.term), .recv (l.answerLength s.cfg.sepLen) none]
            out := some (.rejected .transportTimeout) })

/-- R161: what an accepted FLUSH_UNIT adds to the transmit stream is the 33 texts in order, TERM after each; its length is
`3*7 + 2*15 + 2*696 + len(dec(sum0)) + len(dec(sum1)) + 6 + 17 + len(dec(cursor)) + 33*len(TERM)`, which is 1532 and the three decimal lengths for a two-byte TERM; the receive
requests are the 33 answer lengths in the same order, one after each line. Whatever the transport answered. -/
def Obligations.CompletedFlushTransmitsTheUnit : Prop :=
  ∀ s t : State, exec .flushUnit s = .next t → t.out = some .accepted →
    let buf := Memory.readBytes s.sb 0 1024
    let sum := fun bytes : Bytes => (bytes.map BitVec.toNat).sum
    let ls := unitLines buf s.cursor
    let sent := ls.flatMap fun l => l.text ++ s.cfg.term
    let digits := (dec (sum (buf.take 512))).length + (dec (sum (buf.drop 512))).length + (dec s.cursor).length
    transmitted t.trace = transmitted s.trace ++ sent
    ∧ sent.length = 3 * 7 + 2 * 15 + 2 * 696 + 6 + 17 + digits + 33 * s.cfg.term.length
    ∧ (s.cfg.term.length = 2 → sent.length = 1532 + digits)
    ∧ ∃ answers : List Bytes, answers.map List.length = ls.map (fun l => l.answerLength s.cfg.sepLen)
      ∧ t.trace = s.trace ++ (List.zipWith (fun l a =>
        [Event.send (l.text ++ s.cfg.term), .recv (l.answerLength s.cfg.sepLen) (some a)]) ls answers).flatten

/-- 43_writer.md sections 1 to 3 and 60_exceptions.md (reasons: decision D14; the buffer after a rejected WRITE: decision D18): in a WRITE on the overflow path, or a FINISH with bytes
staged, the line of the flush that is answered by a mismatch, or that times out, gives the operation its reason; no later line is sent, and from a state at rest no register changes:
neither `cursor` nor `fill` nor a staged byte. -/
def Obligations.FailedFlushReportsItsLineAndChangesNothing : Prop :=
  ∀ (s : State) (record : Bytes) (seps : Nat → Bytes) (r part : Bytes) (rest : List RxItem), s.Inv → s.valid = true →
    Separators s.cfg seps → s.cursor ≤ 43008 →
    ∀ p ∈ [(Instr.write record, Memory.readBytes s.sb 0 s.fill ++ (swappedPayload record).take (1024 - s.fill)), (.finish, Memory.readBytes s.sb 0 1024)],
      (p.1 = .finish → s.fill ≠ 0) →
      (p.1 = .write record → WholeWords record ∧ 1024 ≤ s.fill + declaredSize record ∧ s.fill + declaredSize record ≤ 2047) →
      let ls := unitLines p.2 s.cursor
      ∀ k, ∀ l ∈ ls[k]?,
        let before := exchangesOf s.cfg seps (ls.take k)
        (l.MismatchedBy s.cfg.sepLen r → s.rx = feed (answersOf before ++ r) rest →
          exec p.1 s =
            .next (s.afterExchanges (before ++ [⟨l.text ++ s.cfg.term, r⟩]) rest (.rejected l.why)))
        ∧ (part.length < l.answerLength s.cfg.sepLen → s.rx = feed (answersOf before ++ part) (.gap :: rest) →
          exec p.1 s = .next { s with
            rx := rest
            trace := s.trace ++ eventsOf before ++
              [.send (l.text ++ s.cfg.term), .recv (l.answerLength s.cfg.sepLen) none]
            out := some (.rejected .transportTimeout) })

/-- 43_writer.md, FINISH with nothing staged: no transport activity, success, and the session ends; nothing else changes, whatever `cursor` is. -/
def Obligations.FinishWithNothingStagedOnlyEndsTheSession : Prop :=
  ∀ s : State, s.valid = true → s.fill = 0 → exec .finish s = .next { s with valid := false, out := some .accepted }

/-- 43_writer.md, FINISH with bytes staged, the range free and the 33 lines answered by matches: one flush of the buffer as it stands (filler included), `cursor` advanced by
1024, buffer and `fill` reset, the session ended (decision D21), no remainder carried. -/
def Obligations.FinishFlushesOnceAndEndsTheSession : Prop :=
  ∀ (s : State) (seps : Nat → Bytes) (rest : List RxItem), s.valid = true → s.fill ≠ 0 → s.cursor ≤ 43008 →
    Separators s.cfg seps →
    let xs := exchangesOf s.cfg seps (unitLines (Memory.readBytes s.sb 0 1024) s.cursor)
    s.rx = feed (answersOf xs) rest →
    exec .finish s = .next { s.afterExchanges xs rest .accepted with
      cursor := s.cursor + 1024, sb := [], fill := 0, valid := false }

/-- 60_exceptions.md section 4, FINISH (decision D21): a rejected FINISH leaves every register as it was, the session still open. -/
def Obligations.RejectedFinishLeavesTheRegisters : Prop :=
  ∀ (s t : State) (r : Reason), exec .finish s = .next t → t.out = some (.rejected r) → s.SameRegisters t ∧ s.SameSetting t

/-- R155: the two checksums are the plain unsigned sums of the buffer's first and second 512 bytes, filler included, modulo 2^32; each is at most 130560, so the reduction never
changes it. -/
def Obligations.ChecksumsArePlainByteSums : Prop :=
  ∀ s : State, ∀ p ∈ [(Half.half0, 0), (Half.half1, 512)],
    let sum := ((List.range 512).map fun i => (Memory.read s.sb (p.2 + i)).toNat).sum
    (checksum (halfBytes p.1 s)).toNat = sum % 4294967296 ∧ sum ≤ 130560 ∧ (checksum (halfBytes p.1 s)).toNat = sum

/-- 30_encoding.md, `dec(n)` (decision D12): digit characters only, value `n`, no leading zero unless `n` is 0, and then the single byte 0x30. -/
def Obligations.DecIsTheShortestDecimalText : Prop :=
  dec 0 = [0x30#8] ∧ ∀ n, dec n ≠ [] ∧ (∀ b ∈ dec n, 0x30 ≤ b.toNat ∧ b.toNat ≤ 0x39)
    ∧ Nat.ofDigits 10 ((dec n).map fun b => b.toNat - 0x30).reverse = n ∧ (n ≠ 0 → (dec n).head? ≠ some 0x30#8)

/-- 43_writer.md section 4, the source's first property of sequences of writes: records of whole words that together stay under 1024 are each accepted, `fill` equals the running
total, and nothing passes the transport. -/
def Obligations.WritesUnderOneUnitOnlyAccumulate : Prop :=
  ∀ (records : List Bytes) (s : State), s.valid = true → (∀ record ∈ records, WholeWords record) →
    s.fill + (records.map declaredSize).sum < 1024 →
    ∃ t, writeAll records s = some t ∧ t.fill = s.fill + (records.map declaredSize).sum ∧ s.SameTransport t
      ∧ t.cursor = s.cursor ∧ t.hs = s.hs ∧ t.valid = true

/-- 43_writer.md section 4, the source's second property of sequences of writes: records that together bring the staged bytes to exactly 1024, in any split, are each accepted and cause
exactly one flush, of the unit made of the staged bytes and the swapped payloads in order; `cursor` advances by exactly 1024, and the buffer is filler again. -/
def Obligations.WritesOfExactlyOneUnitFlushOnce : Prop :=
  ∀ (records : List Bytes) (s : State) (seps : Nat → Bytes) (rest : List RxItem), s.Inv → s.valid = true →
    (∀ record ∈ records, WholeWords record) → s.fill + (records.map declaredSize).sum = 1024 → s.cursor ≤ 43008 →
    Separators s.cfg seps →
    let data := records.flatMap swappedPayload
    let xs := exchangesOf s.cfg seps (unitLines (Memory.readBytes s.sb 0 s.fill ++ data) s.cursor)
    s.rx = feed (answersOf xs) rest →
    ∃ t, writeAll records s = some t ∧ t.cursor = s.cursor + 1024 ∧ t.fill = 0 ∧ t.sb = [] ∧ t.hs = s.hs ∧ t.valid = true
      ∧ t.trace = s.trace ++ eventsOf xs ∧ t.rx = rest

/-! ### Whole-machine rules -/

/-- 70_reset_and_hazards.md section 1 (decision D24, read ports D26): the values of the block's registers after hardware reset, as the read ports show them, and nothing sent. That
no result stands on the port and that no request is pending are the model's own reset values (log entry 23, with entries 1 and 8; DESIGN CHOICE). -/
def Obligations.ResetGivesTheStatedValues : Prop :=
  statusPorts State.reset = (false, 0#2, 0, 0) ∧ (∀ i, sbPort State.reset i = 0xFF#8) ∧ State.reset.trace = []
    ∧ State.reset.out = none ∧ State.reset.program = []

/-- The invariant of the registers at rest holds at reset. -/
def Obligations.RestInvariantHoldsAtReset : Prop := State.reset.Inv

/-- 43_writer.md section 4, last item, and 10_state.md: every step keeps the registers' invariant at rest: `fill` below 1024 and a multiple of 4, `cursor` a multiple of 1024 and at
most 44032, every byte from `fill` up filler, and the buffer canonical. -/
def Obligations.EveryStepKeepsTheRestInvariant : Prop :=
  ∀ s t : State, s.Inv → step s = .next t → t.Inv

/-- R14: `hs` has the four codes, is START after reset and OPEN, moves only forward otherwise, and only HANDSHAKE (alone or inside START) advances it. -/
def Obligations.HandshakeStateOnlyMovesForward : Prop :=
  ([HandshakeState.start, .syn, .ack, .successful].map HandshakeState.code = [0#2, 1#2, 2#2, 3#2])
  ∧ State.reset.hs = .start
  ∧ (∀ s t : State, exec .openSession s = .next t → t.hs = .start)
  ∧ ∀ (i : Instr) (s t : State), exec i s = .next t → i ≠ .openSession → i ≠ .start →
    s.hs.rank ≤ t.hs.rank ∧ (t.hs ≠ s.hs → i = .handshake)

/-- 10_state.md section 2 (`flashCursor`): but for OPEN and START, which set it to 0, an instruction leaves `cursor` alone or advances it by exactly 1024; it advances only in an
accepted WRITE or FINISH, and never beyond 44032. -/
def Obligations.CursorAdvancesByWholeUnits : Prop :=
  ∀ (i : Instr) (s t : State), exec i s = .next t →
    if i = .openSession ∨ i = .start then t.cursor = 0
    else t.cursor = s.cursor ∨
      (t.cursor = s.cursor + 1024 ∧ t.cursor ≤ 44032 ∧ t.out = some .accepted ∧ (i = .finish ∨ ∃ record, i = .write record))

/-- 60_exceptions.md section 4: a rejection never clears `valid`, never moves `cursor` or `fill` (START's own OPEN apart), and OPEN, CLOSE and FINISH alone write `valid`
(decisions D18, D21, D33). -/
def Obligations.RejectionsNeverEndTheSession : Prop :=
  ∀ (i : Instr) (s t : State), exec i s = .next t →
    (∀ r, t.out = some (.rejected r) → i ≠ .start → t.valid = s.valid ∧ t.fill = s.fill ∧ t.cursor = s.cursor)
    ∧ (∀ r, t.out = some (.rejected r) → i = .start → t.valid = true)
    ∧ (t.valid ≠ s.valid → i = .openSession ∨ i = .start ∨ i = .closeSession ∨ (i = .finish ∧ t.out = some .accepted))

/-- 10_state.md section 1, the table's "written by" column, as a frame: VERSION, PREPARE, the transcoder functions, the transactions and the internal sequences write no register;
HANDSHAKE writes `hs` only; CLOSE `valid` only; WRITE neither `hs` nor `valid`; FINISH not `hs`; OPEN (and START, which runs it) may write all five. The transcoder functions, OPEN
and CLOSE do not use the transport. No instruction writes the parameters. -/
def Obligations.RegistersAreWrittenOnlyByTheirWriters : Prop :=
  ∀ (i : Instr) (s t : State), exec i s = .next t →
    s.SameSetting t
    ∧ (match i with
      | .openSession | .start => True
      | .write _ => t.hs = s.hs ∧ t.valid = s.valid
      | .finish => t.hs = s.hs
      | .closeSession => t.sb = s.sb ∧ t.fill = s.fill ∧ t.cursor = s.cursor ∧ t.hs = s.hs
      | .handshake => t.sb = s.sb ∧ t.fill = s.fill ∧ t.cursor = s.cursor ∧ t.valid = s.valid
      | .version | .prepare | .encGroup _ _ _ | .decGroup _ _ _ _ | .encLine _ | .decLine _ | .txStart | .txSyncAck
      | .txAckVal | .txVersion | .txUnlock | .txPrepare _ _ | .txErase _ _ | .txWriteRam1 | .txWriteRam2 | .txDataLine _
      | .txChecksum _ | .txCopy | .execute _ _ _ _ | .parseDec _ | .encHalf _ | .sendHalf _ | .flushUnit =>
        s.SameRegisters t)
    ∧ (match i with
      | .openSession | .closeSession | .encGroup _ _ _ | .decGroup _ _ _ _ | .encLine _ | .decLine _ | .parseDec _
      | .encHalf _ => s.SameTransport t
      | .handshake | .version | .prepare | .write _ | .finish | .start | .txStart | .txSyncAck | .txAckVal | .txVersion
      | .txUnlock | .txPrepare _ _ | .txErase _ _ | .txWriteRam1 | .txWriteRam2 | .txDataLine _ | .txChecksum _ | .txCopy
      | .execute _ _ _ _ | .sendHalf _ | .flushUnit => True)

/-- 20_memory.md sections 2 and 7: whatever an instruction does, the transmit and receive history only grows at its end, and the receive stream is consumed only from its
front. -/
def Obligations.TransportHistoryOnlyGrows : Prop :=
  ∀ (i : Instr) (s t : State), exec i s = .next t → s.trace <+: t.trace ∧ t.rx <:+ s.rx

/-- 70_reset_and_hazards.md section 3, the bounds on the receives of an operation: 3 for HANDSHAKE, 1 for VERSION, 3 for PREPARE, 33 for WRITE and FINISH, 7 for START, none for
OPEN, CLOSE and the transcoder functions. -/
def Obligations.ReceivesPerOperationAreBounded : Prop :=
  ∀ (i : Instr) (s t : State), exec i s = .next t →
    receives t.trace ≤ receives s.trace + (match i with
      | .openSession | .closeSession | .encGroup _ _ _ | .decGroup _ _ _ _ | .encLine _ | .decLine _ | .parseDec _
      | .encHalf _ => 0
      | .version | .txStart | .txSyncAck | .txAckVal | .txVersion | .txUnlock | .txPrepare _ _ | .txErase _ _ | .txWriteRam1
      | .txWriteRam2 | .txDataLine _ | .txChecksum _ | .txCopy | .execute _ _ _ _ => 1
      | .handshake | .prepare => 3
      | .start => 7
      | .sendHalf _ => 15
      | .write _ | .finish | .flushUnit => 33)

/-! ### Requests and steps -/

/-- A step takes the next request off the host's list and runs the instruction it decodes to; with no request the block stays as it is; a request that names no instruction is
refused with the decoder's reason. The request list and the idle step are the model's own (log entry 1, DESIGN CHOICE), and so is the refusal (log entry 14, DEDUCED). -/
def Obligations.StepRunsTheDecodedInstruction : Prop :=
  ∀ (s : State) (r : Request) (rest : List Request),
    (∀ i, s.program = r :: rest → decode r = .ok i → step s = exec i { s with program := rest })
    ∧ (∀ e, s.program = r :: rest → decode r = .error e → step s = .refused (.undecodable e))
    ∧ (s.program = [] → step s = .next s)

/-- Every well-formed instruction but the five internal sequences has a request, and decoding that request gives the instruction back, with every operand; the five internal
sequences, "not selectable from any port", have none. The host and transcoder ports are 30_encoding.md section 3 (decisions D2, D3); the three line ports, the first-byte selects and
their decoding are the model's own (log entry 5, DESIGN CHOICE: the block never parses a line). -/
def Obligations.DecodeOfEncodeIsTheInstruction : Prop :=
  ∀ i : Instr, i.wf = true →
    match i with
    | .openSession | .handshake | .version | .prepare | .write _ | .finish | .closeSession | .start | .encGroup _ _ _
    | .decGroup _ _ _ _ | .encLine _ | .decLine _ | .txStart | .txSyncAck | .txAckVal | .txVersion | .txUnlock
    | .txPrepare _ _ | .txErase _ _ | .txWriteRam1 | .txWriteRam2 | .txDataLine _ | .txChecksum _ | .txCopy =>
      ∃ r, encode i = some r ∧ decode r = .ok i
    | .execute _ _ _ _ | .parseDec _ | .encHalf _ | .sendHalf _ | .flushUnit => encode i = none

/-- Whatever a request decodes to is a well-formed instruction that has a request of its own. This rests on the line ports of log entry 5 (DESIGN CHOICE) and on the refusals of
log entry 14 (DEDUCED): what they leave out decodes to nothing. -/
def Obligations.DecodedInstructionsAreWellFormed : Prop :=
  ∀ (i : Instr) (r : Request), decode r = .ok i → i.wf = true ∧ encode i ≠ none

/-- 30_encoding.md section 3 (the codes are the spec's own, decisions D2 and D3): the eight `op_sel` codes and the four `xc_sel` codes select the operations and functions of the
two tables, every other select is refused (log entry 14, DEDUCED: the two ports have no other code), and the word of the table's `J` row is the version line (log entry 5, DESIGN
CHOICE: the reading of table words). -/
def Obligations.SelectCodesNameTheirOperations : Prop :=
  (([0x00#8, 0x01#8, 0x02#8, 0x03#8, 0x04#8, 0x05#8, 0x06#8, 0x07#8].map fun b => decode ⟨.hostOp, [b]⟩) =
    [.ok .openSession, .ok .handshake, .ok .version, .ok .prepare, .ok (.write []), .ok .finish, .ok .closeSession, .ok .start])
  ∧ decode ⟨.transcoder, [0x00#8, 0x43#8, 0x61#8, 0x74#8]⟩ = .ok (.encGroup 0x43#8 0x61#8 0x74#8)
  ∧ decode ⟨.transcoder, [0x01#8, 0x30#8, 0x56#8, 0x25#8, 0x54#8]⟩ = .ok (.decGroup 0x30#8 0x56#8 0x25#8 0x54#8)
  ∧ decode ⟨.transcoder, [0x02#8, 0x41#8]⟩ = .ok (.encLine [0x41#8])
  ∧ decode ⟨.transcoder, [0x03#8, 0x20#8]⟩ = .ok (.decLine [0x20#8])
  ∧ (∀ b : Byte, 7 < b.toNat → ∀ x, decode ⟨.hostOp, b :: x⟩ = .error .noSuchOperation)
  ∧ (∀ b : Byte, 3 < b.toNat → ∀ x, decode ⟨.transcoder, b :: x⟩ = .error .noSuchFunction)
  ∧ decodeTableWord 8 0x4A = some .txVersion
end

