-- ==== Sys2Proof/Laws/Codec.lean ====
section
/-! SUPPORT. Laws of the pure functions: the transcoder, decimal text, the checksum, the record's fields and the word swap. -/

namespace Sys2Proof.Machine

/-! ### Six-bit values -/

/-- ENC6 in arithmetic (R60, R81). -/
theorem enc6_toNat (v : BitVec 6) : (enc6 v).toNat = if v.toNat = 0 then 0x60 else v.toNat + 0x20 := by
  revert v; decide

/-- DEC6 undoes ENC6 (R83). -/
theorem dec6_enc6 (v : BitVec 6) : dec6 (enc6 v) = some v := by
  revert v; decide

/-- DEC6 in arithmetic (R83). -/
theorem dec6_eq (c : Byte) :
    dec6 c = if 0x21 ≤ c.toNat ∧ c.toNat ≤ 0x60 then some (BitVec.ofNat 6 ((c.toNat - 0x20) % 64)) else none := by
  revert c; decide

/-- ENC6 undoes DEC6 on every valid character. -/
theorem enc6_of_dec6 (c : Byte) (v : BitVec 6) (h : dec6 c = some v) : enc6 v = c := by
  have key : ∀ c : Byte, (dec6 c).all (fun v => enc6 v = c) = true := by decide
  simpa [h] using key c

/-- A character is printable and never the offset (R88). -/
theorem enc6_range (v : BitVec 6) : 0x21 ≤ (enc6 v).toNat ∧ (enc6 v).toNat ≤ 0x60 := by
  revert v; decide

theorem dec6_of_range (c : Byte) (h : 0x21 ≤ c.toNat ∧ c.toNat ≤ 0x60) : ∃ v, dec6 c = some v := by
  rw [dec6_eq, if_pos h]; exact ⟨_, rfl⟩

/-! ### Groups -/

/-- The four six-bit values of three bytes, in arithmetic (R80). -/
theorem split_toNat (b0 b1 b2 : Byte) :
    (splitS0 b0).toNat = (b0.toNat * 65536 + b1.toNat * 256 + b2.toNat) / 262144
    ∧ (splitS1 b0 b1).toNat = (b0.toNat * 65536 + b1.toNat * 256 + b2.toNat) / 4096 % 64
    ∧ (splitS2 b1 b2).toNat = (b0.toNat * 65536 + b1.toNat * 256 + b2.toNat) / 64 % 64
    ∧ (splitS3 b2).toNat = (b0.toNat * 65536 + b1.toNat * 256 + b2.toNat) % 64 := by
  have h0 := b0.isLt
  have h1 := b1.isLt
  have h2 := b2.isLt
  have e1 : (splitS1 b0 b1).toNat = b0.toNat % 4 * 16 + b1.toNat / 16 := by
    simp only [splitS1, BitVec.toNat_append, BitVec.extractLsb'_toNat, Nat.shiftRight_zero]
    rw [← Nat.shiftLeft_add_eq_or_of_lt (by omega)]
    simp only [Nat.shiftLeft_eq, Nat.shiftRight_eq_div_pow]
    omega
  have e2 : (splitS2 b1 b2).toNat = b1.toNat % 16 * 4 + b2.toNat / 64 := by
    simp only [splitS2, BitVec.toNat_append, BitVec.extractLsb'_toNat, Nat.shiftRight_zero]
    rw [← Nat.shiftLeft_add_eq_or_of_lt (by omega)]
    simp only [Nat.shiftLeft_eq, Nat.shiftRight_eq_div_pow]
    omega
  refine ⟨?_, ?_, ?_, ?_⟩
  · simp only [splitS0, BitVec.extractLsb'_toNat, Nat.shiftRight_eq_div_pow]; omega
  · rw [e1]; omega
  · rw [e2]; omega
  · simp only [splitS3, BitVec.extractLsb'_toNat, Nat.shiftRight_eq_div_pow]; omega

theorem joinSix_ofSplit (b0 b1 b2 : Byte) :
    joinSix (splitS0 b0) (splitS1 b0 b1) (splitS2 b1 b2) (splitS3 b2) = [b0, b1, b2] := by
  have h0 := b0.isLt
  have h1 := b1.isLt
  have h2 := b2.isLt
  simp only [joinSix, List.cons.injEq, and_true]
  refine ⟨?_, ?_, ?_⟩ <;> apply BitVec.eq_of_getLsbD_eq <;> intro i hi <;>
    simp only [splitS0, splitS1, splitS2, splitS3, BitVec.getLsbD_append, BitVec.getLsbD_extractLsb'] <;>
    (interval_cases i <;> simp)

/-- The three bytes of four six-bit values, in arithmetic (R84). -/
theorem joinSix_eq_ofNat (s0 s1 s2 s3 : BitVec 6) :
    let w := s0.toNat * 262144 + s1.toNat * 4096 + s2.toNat * 64 + s3.toNat
    joinSix s0 s1 s2 s3 = [BitVec.ofNat 8 (w / 65536), BitVec.ofNat 8 (w / 256), BitVec.ofNat 8 w] := by
  intro w
  have h0 := s0.isLt
  have h1 := s1.isLt
  have h2 := s2.isLt
  have h3 := s3.isLt
  simp only [joinSix, List.cons.injEq, and_true]
  refine ⟨?_, ?_, ?_⟩ <;> apply BitVec.eq_of_toNat_eq <;>
    simp only [BitVec.toNat_append, BitVec.extractLsb'_toNat, Nat.shiftRight_zero, BitVec.toNat_ofNat, w] <;>
    rw [← Nat.shiftLeft_add_eq_or_of_lt (by omega)] <;>
    simp only [Nat.shiftLeft_eq, Nat.shiftRight_eq_div_pow] <;> omega

theorem split_of_joinSix (s0 s1 s2 s3 : BitVec 6) (b0 b1 b2 : Byte) (h : joinSix s0 s1 s2 s3 = [b0, b1, b2]) :
    splitS0 b0 = s0 ∧ splitS1 b0 b1 = s1 ∧ splitS2 b1 b2 = s2 ∧ splitS3 b2 = s3 := by
  rw [joinSix_eq_ofNat] at h
  simp only [List.cons.injEq, and_true] at h
  have h0 := s0.isLt
  have h1 := s1.isLt
  have h2 := s2.isLt
  have h3 := s3.isLt
  obtain ⟨e0, e1, e2, e3⟩ := split_toNat b0 b1 b2
  obtain ⟨g0, g1, g2⟩ := h
  subst g0 g1 g2
  simp only [BitVec.toNat_ofNat] at e0 e1 e2 e3
  refine ⟨?_, ?_, ?_, ?_⟩ <;> apply BitVec.eq_of_toNat_eq
  · rw [e0]; omega
  · rw [e1]; omega
  · rw [e2]; omega
  · rw [e3]; omega

theorem groupDecode_groupEncode (b0 b1 b2 : Byte) :
    groupDecode (enc6 (splitS0 b0)) (enc6 (splitS1 b0 b1)) (enc6 (splitS2 b1 b2)) (enc6 (splitS3 b2)) = some [b0, b1, b2] := by
  simp [groupDecode, dec6_enc6, joinSix_ofSplit]

/-- Everything DEC_GROUP can give (R84). -/
theorem groupDecode_spec (a b c d : Byte) :
    (∃ g, groupDecode a b c d = some g ∧ g.length = 3 ∧ ∀ x ∈ [a, b, c, d], 0x21 ≤ x.toNat ∧ x.toNat ≤ 0x60)
    ∨ (groupDecode a b c d = none ∧ ¬ ∀ x ∈ [a, b, c, d], 0x21 ≤ x.toNat ∧ x.toNat ≤ 0x60) := by
  by_cases h : ∀ x ∈ [a, b, c, d], 0x21 ≤ x.toNat ∧ x.toNat ≤ 0x60
  · obtain ⟨v0, e0⟩ := dec6_of_range a (h a (by simp))
    obtain ⟨v1, e1⟩ := dec6_of_range b (h b (by simp))
    obtain ⟨v2, e2⟩ := dec6_of_range c (h c (by simp))
    obtain ⟨v3, e3⟩ := dec6_of_range d (h d (by simp))
    exact .inl ⟨joinSix v0 v1 v2 v3, by simp only [groupDecode, e0, e1, e2, e3], by simp [joinSix], h⟩
  · refine .inr ⟨?_, h⟩
    by_contra hn
    apply h
    have e := fun x => dec6_eq x
    intro x hx
    simp only [groupDecode] at hn
    by_contra hx'
    simp only [List.mem_cons, List.not_mem_nil, or_false] at hx
    have hxn : dec6 x = none := by rw [dec6_eq, if_neg hx']
    rcases hx with rfl | rfl | rfl | rfl <;> (apply hn; rw [hxn]; try (split <;> simp_all))

/-- R88: every character is in the printable range. -/
theorem groupEncode_printable (b0 b1 b2 : Byte) : ∀ c ∈ groupEncode b0 b1 b2, 0x21 ≤ c.toNat ∧ c.toNat ≤ 0x60 := by
  simp [groupEncode, enc6_range]

/-- R88 (b): the decoder recovers the bytes, so no two groups have the same characters. -/
theorem groupEncode_injective {a b c a' b' c' : Byte} (h : groupEncode a b c = groupEncode a' b' c') : a = a' ∧ b = b' ∧ c = c' := by
  have e := groupDecode_groupEncode a b c
  simp only [groupEncode, List.cons.injEq, and_true] at h
  rw [h.1, h.2.1, h.2.2.1, h.2.2.2, groupDecode_groupEncode] at e
  simpa [eq_comm] using e

/-! ### Lines -/

theorem bodyEncode_length (raw : Bytes) : (bodyEncode raw).length = 4 * ((raw.length + 2) / 3) := by
  induction raw using bodyEncode.induct with
  | case1 => rfl
  | case2 a => simp [bodyEncode, groupEncode]
  | case3 a b => simp [bodyEncode, groupEncode]
  | case4 a b c rest ih => simp [bodyEncode, groupEncode, ih]; omega

theorem bodyEncode_chars (raw : Bytes) : ∀ c ∈ bodyEncode raw, 0x21 ≤ c.toNat ∧ c.toNat ≤ 0x60 := by
  have hg := groupEncode_printable
  induction raw using bodyEncode.induct with
  | case1 => simp [bodyEncode]
  | case2 a => exact hg _ _ _
  | case3 a b => exact hg _ _ _
  | case4 a b c rest ih =>
    intro x hx
    simp only [bodyEncode, List.mem_append] at hx
    exact hx.elim (hg _ _ _ x) (ih x)

/-- The `g`-th group of a body encodes the `g`-th three bytes, the missing ones taken as zero (R85, R89). -/
theorem bodyEncode_group (raw : Bytes) (g : Nat) (hg : g < (raw.length + 2) / 3) :
    ((bodyEncode raw).drop (4 * g)).take 4 = groupEncode (raw.getD (3 * g) 0#8) (raw.getD (3 * g + 1) 0#8) (raw.getD (3 * g + 2) 0#8) := by
  induction raw using bodyEncode.induct generalizing g with
  | case1 => simp at hg
  | case2 a => 
    have : g = 0 := by simp at hg; omega
    subst this; rfl
  | case3 a b => 
    have : g = 0 := by simp at hg; omega
    subst this; rfl
  | case4 a b c rest ih =>
    cases g with
    | zero => simp [bodyEncode, groupEncode]
    | succ g =>
      have := ih g (by simp at hg; omega)
      have e : 4 * (g + 1) = (groupEncode a b c).length + 4 * g := by simp [groupEncode]; omega
      rw [bodyEncode, e, List.drop_append, ← List.drop_drop]
      simp only [List.drop_length, Nat.add_sub_cancel_left, List.drop_nil, List.nil_append, this]
      have e3 : 3 * (g+1) = 3*g+1+1+1 := by omega
      rw [e3]; simp

theorem bodyDecode_groupEncode (a b c : Byte) (rest : Bytes) :
    bodyDecode (groupEncode a b c ++ rest) = (bodyDecode rest).map fun r => a :: b :: c :: r := by
  simp only [groupEncode, List.cons_append, List.nil_append, bodyDecode, groupDecode_groupEncode]
  cases bodyDecode rest <;> rfl

/-- Decoding a body gives the raw bytes and then the padding. -/
theorem bodyDecode_bodyEncode (raw : Bytes) : ∃ pad, bodyDecode (bodyEncode raw) = some (raw ++ pad) := by
  induction raw using bodyEncode.induct with
  | case1 => exact ⟨[], rfl⟩
  | case2 a => exact ⟨[0, 0], by have := bodyDecode_groupEncode a 0 0 []; simpa [bodyEncode, bodyDecode] using this⟩
  | case3 a b => exact ⟨[0], by have := bodyDecode_groupEncode a b 0 []; simpa [bodyEncode, bodyDecode] using this⟩
  | case4 a b c rest ih =>
    obtain ⟨pad, h⟩ := ih
    exact ⟨pad, by rw [bodyEncode, bodyDecode_groupEncode, h]; rfl⟩

/-- Everything the group loop of DEC_LINE can give (R86). -/
theorem bodyDecode_spec (body : Bytes) :
    (∃ d, bodyDecode body = some d ∧ body.length % 4 = 0 ∧ d.length = 3 * (body.length / 4) ∧ ∀ c ∈ body, 0x21 ≤ c.toNat ∧ c.toNat ≤ 0x60)
    ∨ (bodyDecode body = none ∧ ¬ (body.length % 4 = 0 ∧ ∀ c ∈ body, 0x21 ≤ c.toNat ∧ c.toNat ≤ 0x60)) := by
  match body with
  | [] => exact .inl ⟨[], rfl, rfl, rfl, by simp⟩
  | [a] => exact .inr ⟨rfl, by simp⟩
  | [a, b] => exact .inr ⟨rfl, by simp⟩
  | [a, b, c] => exact .inr ⟨rfl, by simp⟩
  | a :: b :: c :: d :: rest =>
    have ih := bodyDecode_spec rest
    rcases groupDecode_spec a b c d with ⟨g, hg, hl, hc⟩ | ⟨hg, hc⟩
    · rcases ih with ⟨r, hr, hm, hrl, hrc⟩ | ⟨hr, hrc⟩
      · refine .inl ⟨g ++ r, by simp [bodyDecode, hg, hr], by simp; omega, by simp [hl, hrl]; omega, ?_⟩
        intro x hx
        have : x ∈ [a, b, c, d] ∨ x ∈ rest := by simp at hx ⊢; tauto
        exact this.elim (hc x) (hrc x)
      · refine .inr ⟨by simp [bodyDecode, hg, hr], fun ⟨h1, h2⟩ => hrc ⟨by simp at h1; omega, fun x hx => h2 x (by simp [hx])⟩⟩
    · refine .inr ⟨by simp [bodyDecode, hg], fun ⟨h1, h2⟩ => hc fun x hx => h2 x ?_⟩
      simp at hx ⊢; tauto

/-- Group `g` of a decoded body is what DEC_GROUP gives for the body's `g`-th four characters (R86). -/
theorem bodyDecode_group (body d : Bytes) (h : bodyDecode body = some d) (g : Nat) (hg : g < body.length / 4) :
    groupDecode (body.getD (4 * g) 0#8) (body.getD (4 * g + 1) 0#8) (body.getD (4 * g + 2) 0#8) (body.getD (4 * g + 3) 0#8) =
      some ((d.drop (3 * g)).take 3) := by
  match body with
  | [] => simp at hg
  | [a] => simp at hg
  | [a, b] => simp at hg
  | [a, b, c] => simp at hg
  | a :: b :: c :: e :: rest =>
    simp only [bodyDecode] at h
    rcases groupDecode_spec a b c e with ⟨q, hq, hl, -⟩ | ⟨hq, -⟩ <;> rw [hq] at h
    · cases hr : bodyDecode rest with
      | none => rw [hr] at h; simp at h
      | some r =>
        rw [hr] at h
        obtain rfl : q ++ r = d := by simpa using h
        cases g with
        | zero => simpa [List.take_append, hl, List.take_of_length_le (Nat.le_of_eq hl)] using hq
        | succ g =>
          have ih := bodyDecode_group rest r hr g (by simp only [List.length_cons] at hg; omega)
          have e3 : 3 * (g + 1) = q.length + 3 * g := by omega
          have e4 : 4 * (g + 1) = 4 * g + 1 + 1 + 1 + 1 := by omega
          rw [e3, e4, ← List.drop_drop, List.drop_left]
          simp only [Nat.add_right_comm _ 1, List.getD_cons_succ] at ih ⊢
          exact ih
    · simp at h

theorem lineDecode_lineEncode (raw : Bytes) (h1 : 1 ≤ raw.length) (h2 : raw.length ≤ 45) :
    lineDecode (lineEncode raw) = some raw := by
  obtain ⟨pad, hp⟩ := bodyDecode_bodyEncode raw
  have hl : (BitVec.ofNat 8 (raw.length + 0x20)).toNat = raw.length + 0x20 := by simp; omega
  have hn : raw.length + 32 - 32 = raw.length := by omega
  simp only [lineDecode, lineEncode, hl, hn, bodyEncode_length, lineLen, hp, Option.map_some, List.take_left']
  rw [if_neg (by simp; omega), if_neg (by simp; omega)]

/-- R88 (a): no byte of a line is outside 0x21..0x60, so none is 0x20, 0x0D or 0x0A. -/
theorem lineEncode_printable (raw : Bytes) (h1 : 1 ≤ raw.length) (h2 : raw.length ≤ 45) :
    ∀ c ∈ lineEncode raw, 0x21 ≤ c.toNat ∧ c.toNat ≤ 0x60 := by
  intro c hc
  rcases List.mem_cons.1 hc with rfl | hc
  · simp; omega
  · exact bodyEncode_chars raw c hc

/-- R88 (c): ENC_LINE is injective on its domain. -/
theorem lineEncode_injective {raw raw' : Bytes} (h1 : 1 ≤ raw.length) (h2 : raw.length ≤ 45) (h1' : 1 ≤ raw'.length) (h2' : raw'.length ≤ 45)
    (h : lineEncode raw = lineEncode raw') : raw = raw' := by
  have e := lineDecode_lineEncode raw h1 h2
  rw [h, lineDecode_lineEncode raw' h1' h2'] at e
  simpa [eq_comm] using e

theorem halfEncode_length (h : Bytes) : (halfEncode h).length = 12 := by simp [halfEncode]

/-! ### Decimal text -/

theorem foldl_digits_eq (field : Bytes) (v : Nat) :
   field.foldl (fun v b => if isDigit b then v * 10 + (b.toNat - 0x30) else v) v =
    v * 10 ^ ((field.filter fun b => 0x30 ≤ b.toNat && b.toNat ≤ 0x39).length) +
   Nat.ofDigits 10 ((field.filter fun b => 0x30 ≤ b.toNat && b.toNat ≤ 0x39).map fun b => b.toNat - 0x30).reverse := by
  induction field generalizing v with
  | nil => simp
  | cons b bs ih =>
    simp only [List.foldl_cons, ih]
    by_cases hb : isDigit b
    · have hb' : (0x30 ≤ b.toNat && b.toNat ≤ 0x39) = true := hb
      simp only [hb, if_true, List.filter_cons, hb', List.length_cons, List.map_cons, List.reverse_cons, Nat.ofDigits_append, Nat.ofDigits_singleton, List.length_reverse, List.length_map, pow_succ]
      ring
    · have hb' : (0x30 ≤ b.toNat && b.toNat ≤ 0x39) = false := by simpa [isDigit] using hb
      simp [hb, hb']

/-- PARSE_DEC reads the digit characters as one number (R136). -/
theorem parseDigits_eq (field : Bytes) : parseDigits field =
   Nat.ofDigits 10 ((field.filter fun b => 0x30 ≤ b.toNat && b.toNat ≤ 0x39).map fun b => b.toNat - 0x30).reverse := by
  simp [parseDigits, foldl_digits_eq]

/-- What the digit loop of `dec` puts before its accumulator (R56). -/
theorem decAux_spec (fuel n : Nat) (acc : Bytes) (h : n < 2 ^ fuel) (hf : 0 < fuel) :
    ∃ ds, decAux fuel n acc = ds ++ acc ∧ ds ≠ [] ∧ (∀ b ∈ ds, 0x30 ≤ b.toNat ∧ b.toNat ≤ 0x39) ∧
      Nat.ofDigits 10 (ds.map fun b => b.toNat - 0x30).reverse = n ∧ (n ≠ 0 → ds.head? ≠ some 0x30#8) := by
  induction fuel generalizing n acc with
  | zero => omega
  | succ f ih =>
    unfold decAux
    have hd : ∀ d, d < 10 → (digitChar d).toNat = 0x30 + d := by intro d hd; simp [digitChar]; omega
    split
    · rename_i hn
      refine ⟨[digitChar n], rfl, by simp, by simp [hd n hn]; omega, by simp [hd n hn], ?_⟩
      intro h0 hh
      simp at hh
      have := hd n hn
      rw [hh] at this; simp at this; omega
    · rename_i hn
      have hlt : n / 10 < 2 ^ f := by rw [pow_succ] at h; omega
      have hf0 : 0 < f := by
        rcases Nat.eq_zero_or_pos f with rfl | h0
        · simp at h; omega
        · exact h0
      obtain ⟨ds, e, hne, hc, hv, hz⟩ := ih (n / 10) (digitChar (n % 10) :: acc) hlt hf0
      refine ⟨ds ++ [digitChar (n % 10)], by rw [e]; simp, by simp, ?_, ?_, ?_⟩
      · intro b hb
        rcases List.mem_append.1 hb with hb | hb
        · exact hc b hb
        · simp at hb; subst hb; rw [hd _ (by omega)]; omega
      · rw [List.map_append, List.reverse_append]
        simp only [List.map_cons, List.map_nil, List.reverse_cons, List.reverse_nil, List.nil_append, List.singleton_append, Nat.ofDigits_cons, hv, hd _ (show n % 10 < 10 by omega)]
        omega
      · intro _
        cases ds with
        | nil => exact absurd rfl hne
        | cons x xs => simpa using hz (by omega)

/-! ### Checksums -/

theorem foldl_checksum_toNat (bytes : Bytes) (acc : BitVec 32) :
   (bytes.foldl (fun acc b => acc + b.setWidth 32) acc).toNat = (acc.toNat + (bytes.map BitVec.toNat).sum) % 4294967296 := by
  induction bytes generalizing acc with
  | nil => simp; have := acc.isLt; omega
  | cons b bs ih => 
    have := b.isLt
    simp only [List.foldl_cons, ih, BitVec.toNat_add, BitVec.toNat_setWidth, List.map_cons, List.sum_cons]; omega

theorem checksum_toNat (bytes : Bytes) : (checksum bytes).toNat = (bytes.map BitVec.toNat).sum % 4294967296 := by
  simpa [checksum] using foldl_checksum_toNat bytes 0#32

theorem byteSum_le (bytes : Bytes) : (bytes.map BitVec.toNat).sum ≤ 255 * bytes.length := by
  induction bytes with
  | nil => simp
  | cons b bs ih => have := b.isLt; simp only [List.map_cons, List.sum_cons, List.length_cons]; omega

theorem checksum_half (bytes : Bytes) (h : bytes.length ≤ 512) : (checksum bytes).toNat = (bytes.map BitVec.toNat).sum := by
  have := checksum_toNat bytes
  have := byteSum_le bytes
  omega

/-! ### Records and the word swap -/

theorem recordSize_cons (dest rest : Bytes) (z0 z1 z2 z3 : Byte) (h : dest.length = 4) :
   recordSize (dest ++ z0 :: z1 :: z2 :: z3 :: rest) = ((z0.toNat * 256 + z1.toNat) * 256 + z2.toNat) * 256 + z3.toNat := by
  match dest, h with
  | [a, b, c, d], _ => simp only [recordSize, List.cons_append, List.nil_append, List.getD_cons_succ, List.getD_cons_zero]

theorem exists_of_length_four {l : Bytes} (h : l.length = 4) : ∃ a b c d, l = [a, b, c, d] := by
  match l, h with
  | [a, b, c, d], _ => exact ⟨a, b, c, d, rfl⟩

theorem swapWords_length (p : Bytes) : (swapWords p).length = p.length := by
  induction p using swapWords.induct with
  | case1 a b c d rest ih => simp [swapWords, ih]
  | case2 s h => simp [swapWords]

/-- Byte `j` of word `k` is byte `3 - j` of the same word of the payload (R39, R151). -/
theorem swapWords_get (p : Bytes) (h4 : p.length % 4 = 0) (k j : Nat) (hk : 4 * k + j < p.length) (hj : j < 4) :
   (swapWords p).getD (4 * k + j) filler = p.getD (4 * k + 3 - j) 0#8 := by
  induction p using swapWords.induct generalizing k with
  | case1 a b c d rest ih =>
    cases k with
    | zero => 
      have : j = 0 ∨ j = 1 ∨ j = 2 ∨ j = 3 := by omega
      rcases this with rfl | rfl | rfl | rfl <;> rfl
    | succ k =>
      have e1 : 4 * (k + 1) + j = (4 * k + j) + 1 + 1 + 1 + 1 := by omega
      have e2 : 4 * (k + 1) + 3 - j = (4 * k + 3 - j) + 1 + 1 + 1 + 1 := by omega
      simp only [List.length_cons] at hk h4
      rw [e1, e2, swapWords]
      simp only [List.getD_cons_succ]
      exact ih (by omega) k (by omega)
  | case2 s h =>
    match s, h with
    | [], _ => simp at hk
    | [a], _ => simp at h4
    | [a, b], _ => simp at h4
    | [a, b, c], _ => simp at h4
    | a :: b :: c :: d :: r, h => exact absurd rfl (h a b c d r)

/-- The word swap written out by positions (R39). -/
theorem swapWords_eq (p : Bytes) (h4 : p.length % 4 = 0) :
    swapWords p = (List.range p.length).map fun i => p.getD (4 * (i / 4) + 3 - i % 4) 0#8 := by
  apply List.ext_getElem
  · simp [swapWords_length]
  · intro i h1 h2
    have hi : 4 * (i / 4) + i % 4 = i := by omega
    have h := swapWords_get p h4 (i / 4) (i % 4) (by rw [hi, ← swapWords_length p]; exact h1) (by omega)
    rw [hi, List.getD_eq_getElem _ _ h1] at h
    simpa using h

end Sys2Proof.Machine
end

