-- ==== Sys2Proof/Laws/Memory.lean ====
section
/-! SUPPORT. The laws of the staging buffer: read after write, the canonical form kept by every operation, and equal reads make equal
buffers. -/

namespace Sys2Proof.Machine

@[simp] theorem Memory.read_nil (a : Nat) : Memory.read [] a = filler := rfl

theorem Memory.read_cons (b : Nat) (w : Byte) (rest : Memory) (a : Nat) :
    Memory.read ((b, w) :: rest) a = if a = b then w else Memory.read rest a := rfl

/-! ### The canonical form -/

theorem Memory.wfFrom_cons {lo hi b : Nat} {w : Byte} {rest : Memory} :
    Memory.wfFrom lo hi ((b, w) :: rest) = true ↔ lo ≤ b ∧ b < hi ∧ w ≠ filler ∧ Memory.wfFrom (b + 1) hi rest = true := by
  simp [Memory.wfFrom, and_assoc]

@[simp] theorem Memory.wfFrom_nil (lo hi : Nat) : Memory.wfFrom lo hi [] = true := rfl

/-- The bounds of the canonical form may be loosened. -/
theorem Memory.wfFrom_mono {m : Memory} {lo lo' hi hi' : Nat} (h : Memory.wfFrom lo hi m = true) (hlo : lo' ≤ lo)
    (hhi : hi ≤ hi') : Memory.wfFrom lo' hi' m = true := by
  induction m generalizing lo lo' with
  | nil => rfl
  | cons c rest ih =>
    obtain ⟨b, w⟩ := c
    rw [Memory.wfFrom_cons] at h ⊢
    exact ⟨by omega, by omega, h.2.2.1, ih h.2.2.2 (Nat.le_refl _)⟩

/-- Outside its bounds a canonical buffer reads as filler. -/
theorem Memory.read_of_wfFrom {m : Memory} {lo hi a : Nat} (h : Memory.wfFrom lo hi m = true) (ha : a < lo ∨ hi ≤ a) :
    Memory.read m a = filler := by
  induction m generalizing lo with
  | nil => rfl
  | cons c rest ih =>
    obtain ⟨b, w⟩ := c
    obtain ⟨h1, h2, -, h4⟩ := Memory.wfFrom_cons.1 h
    rw [Memory.read_cons, if_neg (by omega), ih h4 (by omega)]

/-- Equal reads make equal canonical buffers. -/
theorem Memory.eq_of_read_eq {m m' : Memory} {lo hi : Nat} (h : Memory.wfFrom lo hi m = true)
    (h' : Memory.wfFrom lo hi m' = true) (hr : ∀ a, Memory.read m a = Memory.read m' a) : m = m' := by
  induction m generalizing m' lo with
  | nil =>
    cases m' with
    | nil => rfl
    | cons c rest =>
      obtain ⟨b, w⟩ := c
      obtain ⟨-, -, hw, -⟩ := Memory.wfFrom_cons.1 h'
      exact absurd (by simpa [Memory.read_cons] using (hr b).symm) hw
  | cons c rest ih =>
    obtain ⟨b, w⟩ := c
    obtain ⟨h1, h2, hw, h4⟩ := Memory.wfFrom_cons.1 h
    cases m' with
    | nil => exact absurd (by simpa [Memory.read_cons] using hr b) hw
    | cons c' rest' =>
      obtain ⟨b', w'⟩ := c'
      obtain ⟨h1', h2', hw', h4'⟩ := Memory.wfFrom_cons.1 h'
      have hb : b = b' := by
        rcases Nat.lt_trichotomy b b' with hlt | heq | hgt
        · have := hr b
          rw [Memory.read_cons, if_pos rfl, Memory.read_cons, if_neg (by omega),
            Memory.read_of_wfFrom h4' (by omega)] at this
          exact absurd this hw
        · exact heq
        · have := hr b'
          rw [Memory.read_cons, if_neg (by omega), Memory.read_of_wfFrom h4 (by omega), Memory.read_cons,
            if_pos rfl] at this
          exact absurd this.symm hw'
      subst hb
      have hww : w = w' := by simpa [Memory.read_cons] using hr b
      subst hww
      congr 1
      refine ih h4 h4' fun a => ?_
      by_cases hab : a = b
      · subst hab
        rw [Memory.read_of_wfFrom h4 (by omega), Memory.read_of_wfFrom h4' (by omega)]
      · simpa [Memory.read_cons, hab] using hr a

/-! ### One write -/

/-- A write inside the bounds keeps the canonical form. -/
theorem Memory.wfFrom_write {m : Memory} {lo hi a : Nat} {v : Byte} (h : Memory.wfFrom lo hi m = true) (hlo : lo ≤ a)
    (hhi : a < hi) : Memory.wfFrom lo hi (Memory.write m a v) = true := by
  induction m generalizing lo with
  | nil =>
    unfold Memory.write
    split
    · rfl
    · rename_i hv
      simp [Memory.wfFrom_cons, hlo, hhi, hv]
  | cons c rest ih =>
    obtain ⟨b, w⟩ := c
    obtain ⟨h1, h2, hw, h4⟩ := Memory.wfFrom_cons.1 h
    unfold Memory.write
    split
    · rename_i hab
      split
      · exact h
      · rename_i hv
        exact Memory.wfFrom_cons.2 ⟨hlo, hhi, hv, Memory.wfFrom_cons.2 ⟨by omega, h2, hw, h4⟩⟩
    · split
      · rename_i hab
        subst hab
        split
        · exact Memory.wfFrom_mono h4 (by omega) (Nat.le_refl _)
        · rename_i hv
          exact Memory.wfFrom_cons.2 ⟨h1, h2, hv, h4⟩
      · exact Memory.wfFrom_cons.2 ⟨h1, h2, hw, ih h4 (by omega)⟩

/-- Every write inside the buffer's space keeps `Memory.wf`. -/
theorem Memory.wf_write {m : Memory} {a : Nat} {v : Byte} (h : Memory.wf m = true) (ha : a < unitLen) :
    Memory.wf (Memory.write m a v) = true := Memory.wfFrom_write h (Nat.zero_le _) ha

/-- Reading after one write: the value at the address written, every other byte as before. -/
theorem Memory.read_write {m : Memory} {lo hi : Nat} (h : Memory.wfFrom lo hi m = true) (a : Nat) (v : Byte) (a' : Nat) :
    Memory.read (Memory.write m a v) a' = if a' = a then v else Memory.read m a' := by
  induction m generalizing lo with
  | nil =>
    unfold Memory.write
    split
    · rename_i hv; subst hv; simp
    · simp [Memory.read_cons]
  | cons c rest ih =>
    obtain ⟨b, w⟩ := c
    obtain ⟨h1, h2, hw, h4⟩ := Memory.wfFrom_cons.1 h
    unfold Memory.write
    split
    · rename_i hab
      split
      · rename_i hv
        subst hv
        by_cases haa : a' = a
        · subst haa
          rw [if_pos rfl, Memory.read_cons, if_neg (by omega), Memory.read_of_wfFrom h4 (by omega)]
        · rw [if_neg haa]
      · rw [Memory.read_cons]
    · split
      · rename_i hab
        subst hab
        split
        · rename_i hv
          subst hv
          by_cases haa : a' = a
          · subst haa
            rw [if_pos rfl, Memory.read_of_wfFrom h4 (by omega)]
          · rw [if_neg haa, Memory.read_cons, if_neg haa]
        · rw [Memory.read_cons, Memory.read_cons]
          by_cases haa : a' = a <;> simp [haa]
      · rename_i hlt hne
        rw [Memory.read_cons, Memory.read_cons, ih h4]
        by_cases hb : a' = b
        · subst hb; simp [Ne.symm hne]
        · simp [hb]

/-! ### Writing a byte string -/

/-- Writing bytes inside the bounds keeps the canonical form. -/
theorem Memory.wfFrom_writeBytes {m : Memory} {lo hi a : Nat} {bytes : Bytes} (h : Memory.wfFrom lo hi m = true) (hlo : lo ≤ a)
    (hhi : a + bytes.length ≤ hi) : Memory.wfFrom lo hi (Memory.writeBytes m a bytes) = true := by
  induction bytes generalizing m a with
  | nil => exact h
  | cons v vs ih =>
    simp only [List.length_cons] at hhi
    exact ih (Memory.wfFrom_write h hlo (by omega)) (by omega) (by omega)

/-- `MemWrite` inside the buffer's space keeps `Memory.wf`. -/
theorem Memory.wf_writeBytes {m : Memory} {a : Nat} {bytes : Bytes} (h : Memory.wf m = true) (ha : a + bytes.length ≤ unitLen) :
    Memory.wf (Memory.writeBytes m a bytes) = true := Memory.wfFrom_writeBytes h (Nat.zero_le _) ha

/-- The refill of an aborted flush keeps `Memory.wf`. -/
theorem Memory.wf_refillFrom {m : Memory} {a : Nat} (h : Memory.wf m = true) (ha : a ≤ unitLen) :
    Memory.wf (Memory.refillFrom m a) = true := Memory.wf_writeBytes h (by simp; omega)

/-- The filler buffer is canonical. -/
theorem Memory.wf_allFiller : Memory.wf Memory.allFiller = true := rfl

/-- Reading after `MemWrite`: the bytes written where they were written, every other byte as before. -/
theorem Memory.read_writeBytes {m : Memory} {hi : Nat} (h : Memory.wfFrom 0 hi m = true) (a : Nat) (bytes : Bytes) (a' : Nat) :
    Memory.read (Memory.writeBytes m a bytes) a'
      = if a ≤ a' ∧ a' < a + bytes.length then bytes.getD (a' - a) filler else Memory.read m a' := by
  induction bytes generalizing m a hi with
  | nil => simp [Memory.writeBytes]
  | cons v vs ih =>
    have hw : Memory.wfFrom 0 (max hi (a + 1)) (Memory.write m a v) = true :=
      Memory.wfFrom_write (Memory.wfFrom_mono h (Nat.le_refl _) (by omega)) (by omega) (by omega)
    simp only [Memory.writeBytes, List.length_cons]
    rw [ih hw, Memory.read_write h]
    by_cases h1 : a' = a
    · subst h1; simp
    · by_cases h2 : a + 1 ≤ a' ∧ a' < a + 1 + vs.length
      · have : a' - a = (a' - (a + 1)) + 1 := by omega
        rw [if_pos h2, if_pos (by omega), this, List.getD_cons_succ]
      · rw [if_neg h2, if_neg h1, if_neg (by omega)]

/-- Writing lowers no bound it does not pass: bytes written from the top bound up raise it by their number. -/
theorem Memory.wfFrom_append {m : Memory} {fill : Nat} {bytes : Bytes} (h : Memory.wfFrom 0 fill m = true) :
    Memory.wfFrom 0 (fill + bytes.length) (Memory.writeBytes m fill bytes) = true :=
  Memory.wfFrom_writeBytes (Memory.wfFrom_mono h (Nat.le_refl _) (by omega)) (Nat.zero_le _) (Nat.le_refl _)

@[simp] theorem Memory.readBytes_length (m : Memory) (a n : Nat) : (Memory.readBytes m a n).length = n := by
  simp [Memory.readBytes]

theorem Memory.readBytes_getElem (m : Memory) (a n i : Nat) (h : i < (Memory.readBytes m a n).length) :
    (Memory.readBytes m a n)[i] = m.read (a + i) := by simp [Memory.readBytes]

end Sys2Proof.Machine
end

