-- ==== Sys2Proof/Laws/State.lean ====
section
/-! SUPPORT. One lemma per field per update of State, each true by rfl, so that no later proof unfolds a record update. -/

namespace Sys2Proof.Machine

@[simp] theorem returnResult_cfg (o : Output) (s : State) : (returnResult o s).cfg = s.cfg := rfl
@[simp] theorem returnResult_sb (o : Output) (s : State) : (returnResult o s).sb = s.sb := rfl
@[simp] theorem returnResult_fill (o : Output) (s : State) : (returnResult o s).fill = s.fill := rfl
@[simp] theorem returnResult_cursor (o : Output) (s : State) : (returnResult o s).cursor = s.cursor := rfl
@[simp] theorem returnResult_hs (o : Output) (s : State) : (returnResult o s).hs = s.hs := rfl
@[simp] theorem returnResult_valid (o : Output) (s : State) : (returnResult o s).valid = s.valid := rfl
@[simp] theorem returnResult_out (o : Output) (s : State) : (returnResult o s).out = some o := rfl
@[simp] theorem returnResult_trace (o : Output) (s : State) : (returnResult o s).trace = s.trace := rfl
@[simp] theorem returnResult_rx (o : Output) (s : State) : (returnResult o s).rx = s.rx := rfl
@[simp] theorem returnResult_program (o : Output) (s : State) : (returnResult o s).program = s.program := rfl

@[simp] theorem takeRejection_cfg (r : Reason) (s : State) : (takeRejection r s).cfg = s.cfg := rfl
@[simp] theorem takeRejection_sb (r : Reason) (s : State) : (takeRejection r s).sb = s.sb := rfl
@[simp] theorem takeRejection_fill (r : Reason) (s : State) : (takeRejection r s).fill = s.fill := rfl
@[simp] theorem takeRejection_cursor (r : Reason) (s : State) : (takeRejection r s).cursor = s.cursor := rfl
@[simp] theorem takeRejection_hs (r : Reason) (s : State) : (takeRejection r s).hs = s.hs := rfl
@[simp] theorem takeRejection_valid (r : Reason) (s : State) : (takeRejection r s).valid = s.valid := rfl
@[simp] theorem takeRejection_out (r : Reason) (s : State) : (takeRejection r s).out = some (.rejected r) := rfl
@[simp] theorem takeRejection_trace (r : Reason) (s : State) : (takeRejection r s).trace = s.trace := rfl
@[simp] theorem takeRejection_rx (r : Reason) (s : State) : (takeRejection r s).rx = s.rx := rfl
@[simp] theorem takeRejection_program (r : Reason) (s : State) : (takeRejection r s).program = s.program := rfl

@[simp] theorem send_cfg (b : Bytes) (s : State) : (send b s).cfg = s.cfg := rfl
@[simp] theorem send_sb (b : Bytes) (s : State) : (send b s).sb = s.sb := rfl
@[simp] theorem send_fill (b : Bytes) (s : State) : (send b s).fill = s.fill := rfl
@[simp] theorem send_cursor (b : Bytes) (s : State) : (send b s).cursor = s.cursor := rfl
@[simp] theorem send_hs (b : Bytes) (s : State) : (send b s).hs = s.hs := rfl
@[simp] theorem send_valid (b : Bytes) (s : State) : (send b s).valid = s.valid := rfl
@[simp] theorem send_out (b : Bytes) (s : State) : (send b s).out = s.out := rfl
@[simp] theorem send_trace (b : Bytes) (s : State) : (send b s).trace = s.trace ++ [.send b] := rfl
@[simp] theorem send_rx (b : Bytes) (s : State) : (send b s).rx = s.rx := rfl
@[simp] theorem send_program (b : Bytes) (s : State) : (send b s).program = s.program := rfl

@[simp] theorem sendT_cfg (b : Bytes) (s : State) : (sendT b s).cfg = s.cfg := rfl
@[simp] theorem sendT_sb (b : Bytes) (s : State) : (sendT b s).sb = s.sb := rfl
@[simp] theorem sendT_fill (b : Bytes) (s : State) : (sendT b s).fill = s.fill := rfl
@[simp] theorem sendT_cursor (b : Bytes) (s : State) : (sendT b s).cursor = s.cursor := rfl
@[simp] theorem sendT_hs (b : Bytes) (s : State) : (sendT b s).hs = s.hs := rfl
@[simp] theorem sendT_valid (b : Bytes) (s : State) : (sendT b s).valid = s.valid := rfl
@[simp] theorem sendT_out (b : Bytes) (s : State) : (sendT b s).out = s.out := rfl
@[simp] theorem sendT_trace (b : Bytes) (s : State) : (sendT b s).trace = s.trace ++ [.send (b ++ s.cfg.term)] := rfl
@[simp] theorem sendT_rx (b : Bytes) (s : State) : (sendT b s).rx = s.rx := rfl
@[simp] theorem sendT_program (b : Bytes) (s : State) : (sendT b s).program = s.program := rfl

@[simp] theorem openState_cfg (s : State) : (openState s).cfg = s.cfg := rfl
@[simp] theorem openState_sb (s : State) : (openState s).sb = [] := rfl
@[simp] theorem openState_fill (s : State) : (openState s).fill = 0 := rfl
@[simp] theorem openState_cursor (s : State) : (openState s).cursor = 0 := rfl
@[simp] theorem openState_hs (s : State) : (openState s).hs = .start := rfl
@[simp] theorem openState_valid (s : State) : (openState s).valid = true := rfl
@[simp] theorem openState_out (s : State) : (openState s).out = s.out := rfl
@[simp] theorem openState_trace (s : State) : (openState s).trace = s.trace := rfl
@[simp] theorem openState_rx (s : State) : (openState s).rx = s.rx := rfl
@[simp] theorem openState_program (s : State) : (openState s).program = s.program := rfl

@[simp] theorem accumulate_cfg (d : Bytes) (s : State) : (accumulate d s).cfg = s.cfg := rfl
@[simp] theorem accumulate_sb (d : Bytes) (s : State) : (accumulate d s).sb = s.sb.writeBytes s.fill d := rfl
@[simp] theorem accumulate_fill (d : Bytes) (s : State) : (accumulate d s).fill = s.fill + d.length := rfl
@[simp] theorem accumulate_cursor (d : Bytes) (s : State) : (accumulate d s).cursor = s.cursor := rfl
@[simp] theorem accumulate_hs (d : Bytes) (s : State) : (accumulate d s).hs = s.hs := rfl
@[simp] theorem accumulate_valid (d : Bytes) (s : State) : (accumulate d s).valid = s.valid := rfl
@[simp] theorem accumulate_out (d : Bytes) (s : State) : (accumulate d s).out = s.out := rfl
@[simp] theorem accumulate_trace (d : Bytes) (s : State) : (accumulate d s).trace = s.trace := rfl
@[simp] theorem accumulate_rx (d : Bytes) (s : State) : (accumulate d s).rx = s.rx := rfl
@[simp] theorem accumulate_program (d : Bytes) (s : State) : (accumulate d s).program = s.program := rfl

@[simp] theorem topUp_cfg (d : Bytes) (s : State) : (topUp d s).cfg = s.cfg := rfl
@[simp] theorem topUp_sb (d : Bytes) (s : State) : (topUp d s).sb = s.sb.writeBytes s.fill (d.take (unitLen - s.fill)) := rfl
@[simp] theorem topUp_fill (d : Bytes) (s : State) : (topUp d s).fill = s.fill := rfl
@[simp] theorem topUp_cursor (d : Bytes) (s : State) : (topUp d s).cursor = s.cursor := rfl
@[simp] theorem topUp_hs (d : Bytes) (s : State) : (topUp d s).hs = s.hs := rfl
@[simp] theorem topUp_valid (d : Bytes) (s : State) : (topUp d s).valid = s.valid := rfl
@[simp] theorem topUp_out (d : Bytes) (s : State) : (topUp d s).out = s.out := rfl
@[simp] theorem topUp_trace (d : Bytes) (s : State) : (topUp d s).trace = s.trace := rfl
@[simp] theorem topUp_rx (d : Bytes) (s : State) : (topUp d s).rx = s.rx := rfl
@[simp] theorem topUp_program (d : Bytes) (s : State) : (topUp d s).program = s.program := rfl

@[simp] theorem advanceAndCarry_cfg (r : Bytes) (s : State) : (advanceAndCarry r s).cfg = s.cfg := rfl
@[simp] theorem advanceAndCarry_sb (r : Bytes) (s : State) : (advanceAndCarry r s).sb = Memory.writeBytes [] 0 r := rfl
@[simp] theorem advanceAndCarry_fill (r : Bytes) (s : State) : (advanceAndCarry r s).fill = r.length := rfl
@[simp] theorem advanceAndCarry_cursor (r : Bytes) (s : State) : (advanceAndCarry r s).cursor = s.cursor + unitLen := rfl
@[simp] theorem advanceAndCarry_hs (r : Bytes) (s : State) : (advanceAndCarry r s).hs = s.hs := rfl
@[simp] theorem advanceAndCarry_valid (r : Bytes) (s : State) : (advanceAndCarry r s).valid = s.valid := rfl
@[simp] theorem advanceAndCarry_out (r : Bytes) (s : State) : (advanceAndCarry r s).out = s.out := rfl
@[simp] theorem advanceAndCarry_trace (r : Bytes) (s : State) : (advanceAndCarry r s).trace = s.trace := rfl
@[simp] theorem advanceAndCarry_rx (r : Bytes) (s : State) : (advanceAndCarry r s).rx = s.rx := rfl
@[simp] theorem advanceAndCarry_program (r : Bytes) (s : State) : (advanceAndCarry r s).program = s.program := rfl

@[simp] theorem finishState_cfg (s : State) : (finishState s).cfg = s.cfg := rfl
@[simp] theorem finishState_sb (s : State) : (finishState s).sb = [] := rfl
@[simp] theorem finishState_fill (s : State) : (finishState s).fill = 0 := rfl
@[simp] theorem finishState_cursor (s : State) : (finishState s).cursor = s.cursor + unitLen := rfl
@[simp] theorem finishState_hs (s : State) : (finishState s).hs = s.hs := rfl
@[simp] theorem finishState_valid (s : State) : (finishState s).valid = false := rfl
@[simp] theorem finishState_out (s : State) : (finishState s).out = s.out := rfl
@[simp] theorem finishState_trace (s : State) : (finishState s).trace = s.trace := rfl
@[simp] theorem finishState_rx (s : State) : (finishState s).rx = s.rx := rfl
@[simp] theorem finishState_program (s : State) : (finishState s).program = s.program := rfl

@[simp] theorem afterExchanges_cfg (s : State) (xs : List Exchange) (rest : List RxItem) (o : Output) : (s.afterExchanges xs rest o).cfg = s.cfg := rfl
@[simp] theorem afterExchanges_sb (s : State) (xs : List Exchange) (rest : List RxItem) (o : Output) : (s.afterExchanges xs rest o).sb = s.sb := rfl
@[simp] theorem afterExchanges_fill (s : State) (xs : List Exchange) (rest : List RxItem) (o : Output) : (s.afterExchanges xs rest o).fill = s.fill := rfl
@[simp] theorem afterExchanges_cursor (s : State) (xs : List Exchange) (rest : List RxItem) (o : Output) : (s.afterExchanges xs rest o).cursor = s.cursor := rfl
@[simp] theorem afterExchanges_hs (s : State) (xs : List Exchange) (rest : List RxItem) (o : Output) : (s.afterExchanges xs rest o).hs = s.hs := rfl
@[simp] theorem afterExchanges_valid (s : State) (xs : List Exchange) (rest : List RxItem) (o : Output) : (s.afterExchanges xs rest o).valid = s.valid := rfl
@[simp] theorem afterExchanges_out (s : State) (xs : List Exchange) (rest : List RxItem) (o : Output) : (s.afterExchanges xs rest o).out = some o := rfl
@[simp] theorem afterExchanges_trace (s : State) (xs : List Exchange) (rest : List RxItem) (o : Output) : (s.afterExchanges xs rest o).trace = s.trace ++ eventsOf xs := rfl
@[simp] theorem afterExchanges_rx (s : State) (xs : List Exchange) (rest : List RxItem) (o : Output) : (s.afterExchanges xs rest o).rx = rest := rfl
@[simp] theorem afterExchanges_program (s : State) (xs : List Exchange) (rest : List RxItem) (o : Output) : (s.afterExchanges xs rest o).program = s.program := rfl

@[simp] theorem returnResult_returnResult (o p : Output) (s : State) : returnResult o (returnResult p s) = returnResult o s := rfl
@[simp] theorem takeRejection_returnResult (r : Reason) (p : Output) (s : State) :
    takeRejection r (returnResult p s) = takeRejection r s := rfl

end Sys2Proof.Machine
end

