-- ==== Sys2Proof/Laws/Ops.lean ====
section
/-! SUPPORT. What the shared operations can do, each said once: sequencing, the receive stream, one transaction, and the frames of every
sequence built from transactions. -/

namespace Sys2Proof.Machine

/-! ### Sequencing -/

@[simp] theorem Run.andThen_ok {α β : Type} (a : α) (s : State) (f : α → State → Run β) : (Run.ok a s).andThen f = f a s := rfl
@[simp] theorem Run.andThen_raise {α β : Type} (r : Reason) (s : State) (f : α → State → Run β) :
    (Run.raise r s : Run α).andThen f = .raise r s := rfl
@[simp] theorem Run.andThen_hang {α β : Type} (f : α → State → Run β) : (Run.hang : Run α).andThen f = .hang := rfl

@[simp] theorem Run.report_ok {α : Type} (a : α) (s : State) (f : α → Output) :
    (Run.ok a s).report f = .next (returnResult (f a) s) := rfl
@[simp] theorem Run.report_raise {α : Type} (r : Reason) (s : State) (f : α → Output) :
    (Run.raise r s : Run α).report f = .next (takeRejection r s) := rfl
@[simp] theorem Run.report_hang {α : Type} (f : α → Output) : (Run.hang : Run α).report f = .fault .receiveHang := rfl

/-- What holds of the state a run leaves, however it ends. -/
def Run.Leaves {α : Type} (x : Run α) (P : State → Prop) : Prop :=
  match x with
  | .ok _ s => P s
  | .raise _ s => P s
  | .hang => True

theorem Run.Leaves.andThen {α β : Type} {x : Run α} {f : α → State → Run β} {P Q : State → Prop} (hx : x.Leaves P)
    (hf : ∀ a s, P s → (f a s).Leaves Q) (hPQ : ∀ s, P s → Q s) : (x.andThen f).Leaves Q := by
  cases x with
  | ok a s => exact hf a s hx
  | raise r s => exact hPQ s hx
  | hang => trivial

/-- A report that answers a next state: the run went on or raised, and the result port alone was written after it. -/
theorem Run.report_next {α : Type} {x : Run α} {f : α → Output} {t : State} (h : x.report f = .next t) :
    (∃ a s, x = .ok a s ∧ t = returnResult (f a) s) ∨ (∃ r s, x = .raise r s ∧ t = takeRejection r s) := by
  cases x with
  | ok a s => exact .inl ⟨a, s, rfl, by simpa using h.symm⟩
  | raise r s => exact .inr ⟨r, s, rfl, by simpa using h.symm⟩
  | hang => simp at h

/-! ### Frames: what a run of transactions can change -/

/-- From `s` to `t` only the transport was used: the trace grew and the receive stream lost a front part. -/
def TransportOnly (s t : State) : Prop :=
  ∃ events eaten, s.rx = eaten ++ t.rx ∧ t = { s with rx := t.rx, trace := s.trace ++ events }

theorem TransportOnly.refl (s : State) : TransportOnly s s := ⟨[], [], by simp, by simp⟩

theorem TransportOnly.trans {s t u : State} (h : TransportOnly s t) (h' : TransportOnly t u) : TransportOnly s u := by
  obtain ⟨e, x, hx, ht⟩ := h
  obtain ⟨e', x', hx', hu⟩ := h'
  refine ⟨e ++ e', x ++ x', by rw [hx, hx', List.append_assoc], ?_⟩
  rw [hu, ht]
  simp [List.append_assoc]

theorem TransportOnly.registers {s t : State} (h : TransportOnly s t) : s.SameRegisters t := by
  obtain ⟨_, _, _, ht⟩ := h
  rw [ht]
  exact ⟨rfl, rfl, rfl, rfl, rfl⟩

theorem TransportOnly.setting {s t : State} (h : TransportOnly s t) : s.SameSetting t := by
  obtain ⟨_, _, _, ht⟩ := h
  rw [ht]
  exact ⟨rfl, rfl⟩

theorem TransportOnly.out_eq {s t : State} (h : TransportOnly s t) : t.out = s.out := by
  obtain ⟨_, _, _, ht⟩ := h
  rw [ht]

theorem TransportOnly.trace_prefix {s t : State} (h : TransportOnly s t) : s.trace <+: t.trace := by
  obtain ⟨e, _, _, ht⟩ := h
  rw [ht]
  exact ⟨e, rfl⟩

theorem TransportOnly.rx_suffix {s t : State} (h : TransportOnly s t) : t.rx <:+ s.rx := by
  obtain ⟨_, x, hx, _⟩ := h
  exact ⟨x, hx.symm⟩

theorem Run.Leaves.andThen_transport {α β : Type} {s : State} {x : Run α} {f : α → State → Run β}
    (hx : x.Leaves (TransportOnly s)) (hf : ∀ a t, (f a t).Leaves (TransportOnly t)) :
    (x.andThen f).Leaves (TransportOnly s) := by
  cases x with
  | ok a t =>
    have := hf a t
    simp only [Run.andThen_ok]
    cases hft : f a t with
    | ok b u => rw [hft] at this; exact TransportOnly.trans hx this
    | raise r u => rw [hft] at this; exact TransportOnly.trans hx this
    | hang => trivial
  | raise r t => exact hx
  | hang => trivial

/-! ### The receive stream -/

/-- A stream that begins with `n` bytes gives them, and keeps the rest (R23, R37). -/
@[simp] theorem arrival_feed (b : Bytes) (rest : List RxItem) : arrival b.length (feed b rest) = .got b rest := by
  induction b with
  | nil => rfl
  | cons c cs ih =>
    have : arrival cs.length (List.map RxItem.byte cs ++ rest) = .got cs rest := ih
    simp [feed, arrival, this]

/-- Fewer than `n` bytes and then a gap: the receive times out, and the stream goes on after the gap. -/
theorem arrival_gap (b : Bytes) (n : Nat) (rest : List RxItem) (h : b.length < n) :
    arrival n (feed b (.gap :: rest)) = .timedOut rest := by
  induction b generalizing n with
  | nil =>
    cases n with
    | zero => omega
    | succ n => rfl
  | cons c cs ih =>
    cases n with
    | zero => omega
    | succ n =>
      have : arrival n (List.map RxItem.byte cs ++ .gap :: rest) = .timedOut rest := ih n (by simpa using h)
      simp [feed, arrival, this]

/-- Fewer than `n` bytes and nothing after them: silence. -/
theorem arrival_silence (b : Bytes) (n : Nat) (h : b.length < n) : arrival n (feed b []) = .silence := by
  induction b generalizing n with
  | nil =>
    cases n with
    | zero => omega
    | succ n => rfl
  | cons c cs ih =>
    cases n with
    | zero => omega
    | succ n =>
      have : arrival n (List.map RxItem.byte cs ++ []) = .silence := ih n (by simpa using h)
      simp only [feed, List.map_cons, List.cons_append, arrival, this]

/-- What a receive can find: the bytes asked for at the front, or fewer bytes and a gap, or fewer bytes and the end. -/
theorem arrival_cases (n : Nat) (rx : List RxItem) :
    (∃ b rest, b.length = n ∧ rx = feed b rest ∧ arrival n rx = .got b rest)
      ∨ (∃ b rest, b.length < n ∧ rx = feed b (.gap :: rest) ∧ arrival n rx = .timedOut rest)
      ∨ (∃ b, b.length < n ∧ rx = feed b [] ∧ arrival n rx = .silence) := by
  induction n generalizing rx with
  | zero => exact .inl ⟨[], rx, rfl, rfl, rfl⟩
  | succ n ih =>
    cases rx with
    | nil => exact .inr (.inr ⟨[], by simp, rfl, rfl⟩)
    | cons x xs =>
      cases x with
      | gap => exact .inr (.inl ⟨[], xs, by simp, rfl, rfl⟩)
      | byte c =>
        rcases ih xs with ⟨b, rest, hl, hx, ha⟩ | ⟨b, rest, hl, hx, ha⟩ | ⟨b, hl, hx, ha⟩
        · exact .inl ⟨c :: b, rest, by simp [hl], by simp [hx, feed], by simp [arrival, ha]⟩
        · exact .inr (.inl ⟨c :: b, rest, by simp [hl], by simp [hx, feed], by simp [arrival, ha]⟩)
        · exact .inr (.inr ⟨c :: b, by simp [hl], by simp [hx, feed], by simp only [arrival, ha]⟩)

/-- Everything a receive can do (R37, R102, R222). -/
theorem recv_cases (n : Nat) (s : State) :
    (∃ b rest, b.length = n ∧ s.rx = feed b rest ∧
        recv n s = .ok b { s with rx := rest, trace := s.trace ++ [.recv n (some b)] })
      ∨ (∃ eaten rest, s.rx = eaten ++ rest ∧
        recv n s = .raise .transportTimeout { s with rx := rest, trace := s.trace ++ [.recv n none] })
      ∨ (s.cfg.rxTimeoutSet = false ∧ recv n s = .hang) := by
  rcases arrival_cases n s.rx with ⟨b, rest, hl, hx, ha⟩ | ⟨b, rest, hl, hx, ha⟩ | ⟨b, hl, hx, ha⟩
  · exact .inl ⟨b, rest, hl, hx, by simp [recv, ha]⟩
  · exact .inr (.inl ⟨b.map .byte ++ [.gap], rest, by simp [hx, feed], by simp [recv, ha]⟩)
  · cases hc : s.cfg.rxTimeoutSet with
    | true => exact .inr (.inl ⟨s.rx, [], by simp, by simp [recv, ha, hc]⟩)
    | false => exact .inr (.inr ⟨rfl, by simp [recv, ha, hc]⟩)

/-! ### One transaction -/

/-- The bytes EXECUTE sends for a text (R100). -/
def sentBytes (text : Bytes) (term : Bool) (cfg : Config) : Bytes := if term then text ++ cfg.term else text

/-- A transaction whose answer arrives in full compares it and nothing else (R100, R101). -/
theorem transact_answered (text : Bytes) (term : Bool) (shape : Shape) (why : Reason) (s : State) (r : Bytes)
    (rest : List RxItem) (hl : r.length = shapeLength shape text s.cfg.sepLen) (hx : s.rx = feed r rest) :
    transact text term shape why s =
      (if shapeMatches shape text s.cfg.sepLen r then
        .ok (shapeField shape text s.cfg.sepLen r)
          { s with rx := rest, trace := s.trace ++ [.send (sentBytes text term s.cfg), .recv r.length (some r)] }
      else
        .raise why
          { s with rx := rest, trace := s.trace ++ [.send (sentBytes text term s.cfg), .recv r.length (some r)] }) := by
  have ha : arrival (shapeLength shape text s.cfg.sepLen) (feed r rest) = .got r rest := hl ▸ arrival_feed r rest
  cases term <;> simp [transact, recv, sentBytes, ha, hx, hl, List.append_assoc]

/-- Everything a transaction can do: it goes on, it raises its own reason or TransportTimeout, or it hangs with no bound set; and
only the transport is used. -/
theorem transact_cases (text : Bytes) (term : Bool) (shape : Shape) (why : Reason) (s : State) :
    (∃ r rest, r.length = shapeLength shape text s.cfg.sepLen ∧ s.rx = feed r rest ∧
      shapeMatches shape text s.cfg.sepLen r = true ∧
      transact text term shape why s = .ok (shapeField shape text s.cfg.sepLen r)
        { s with rx := rest, trace := s.trace ++ [.send (sentBytes text term s.cfg), .recv r.length (some r)] })
      ∨ (∃ r rest, r.length = shapeLength shape text s.cfg.sepLen ∧ s.rx = feed r rest ∧
        shapeMatches shape text s.cfg.sepLen r = false ∧
        transact text term shape why s = .raise why
          { s with rx := rest, trace := s.trace ++ [.send (sentBytes text term s.cfg), .recv r.length (some r)] })
      ∨ (∃ eaten rest, s.rx = eaten ++ rest ∧
        transact text term shape why s = .raise .transportTimeout
          { s with
            rx := rest
            trace := s.trace ++ [.send (sentBytes text term s.cfg), .recv (shapeLength shape text s.cfg.sepLen) none] })
      ∨ (s.cfg.rxTimeoutSet = false ∧ transact text term shape why s = .hang) := by
  rcases recv_cases (shapeLength shape text s.cfg.sepLen) (if term then sendT text s else send text s) with
    ⟨r, rest, hl, hx, -⟩ | ⟨eaten, rest, hx, hr⟩ | ⟨hc, hr⟩
  · have hx' : s.rx = feed r rest := by cases term <;> simpa using hx
    have h := transact_answered text term shape why s r rest hl hx'
    cases hm : shapeMatches shape text s.cfg.sepLen r with
    | true => exact .inl ⟨r, rest, hl, hx', hm, by rw [h, if_pos hm]⟩
    | false => exact .inr (.inl ⟨r, rest, hl, hx', hm, by rw [h, hm]; rfl⟩)
  · refine .inr (.inr (.inl ⟨eaten, rest, by cases term <;> simpa using hx, ?_⟩))
    unfold transact
    rw [hr]
    cases term <;> simp [sentBytes, send, sendT, List.append_assoc]
  · refine .inr (.inr (.inr ⟨by cases term <;> simpa using hc, ?_⟩))
    unfold transact
    rw [hr]
    rfl

/-- A transaction uses only the transport, however it ends. -/
theorem transact_leaves (text : Bytes) (term : Bool) (shape : Shape) (why : Reason) (s : State) :
    (transact text term shape why s).Leaves (TransportOnly s) := by
  rcases transact_cases text term shape why s with ⟨r, rest, -, hx, -, h⟩ | ⟨r, rest, -, hx, -, h⟩ | ⟨e, rest, hx, h⟩ | ⟨-, h⟩
  · rw [h]; exact ⟨_, r.map .byte, hx, rfl⟩
  · rw [h]; exact ⟨_, r.map .byte, hx, rfl⟩
  · rw [h]; exact ⟨_, e, hx, rfl⟩
  · rw [h]; trivial

/-! ### The sequences of transactions use only the transport -/

theorem runTxStart_leaves (s : State) : (runTxStart s).Leaves (TransportOnly s) := transact_leaves ..
theorem runTxSyncAck_leaves (s : State) : (runTxSyncAck s).Leaves (TransportOnly s) := transact_leaves ..
theorem runTxAckVal_leaves (s : State) : (runTxAckVal s).Leaves (TransportOnly s) := transact_leaves ..
theorem runTxVersion_leaves (s : State) : (runTxVersion s).Leaves (TransportOnly s) := transact_leaves ..
theorem runTxUnlock_leaves (s : State) : (runTxUnlock s).Leaves (TransportOnly s) := transact_leaves ..
theorem runTxPrepare_leaves (f l : Nat) (s : State) : (runTxPrepare f l s).Leaves (TransportOnly s) := transact_leaves ..
theorem runTxErase_leaves (f l : Nat) (s : State) : (runTxErase f l s).Leaves (TransportOnly s) := transact_leaves ..
theorem runTxWriteRam_leaves (h : Half) (s : State) : (runTxWriteRam h s).Leaves (TransportOnly s) := transact_leaves ..
theorem runTxDataLine_leaves (t : Bytes) (s : State) : (runTxDataLine t s).Leaves (TransportOnly s) := transact_leaves ..
theorem runTxChecksum_leaves (c : BitVec 32) (s : State) : (runTxChecksum c s).Leaves (TransportOnly s) := transact_leaves ..
theorem runTxCopy_leaves (s : State) : (runTxCopy s).Leaves (TransportOnly s) := transact_leaves ..

theorem sendLines_leaves (ls : List Bytes) (s : State) : (sendLines ls s).Leaves (TransportOnly s) := by
  induction ls generalizing s with
  | nil => exact TransportOnly.refl s
  | cons l rest ih => exact (runTxDataLine_leaves l s).andThen_transport fun _ t => ih t

/-- SEND_HALF writes no register (R158). -/
theorem runSendHalf_leaves (h : Half) (s : State) : (runSendHalf h s).Leaves (TransportOnly s) :=
  (runTxUnlock_leaves s).andThen_transport fun _ s1 =>
  (runTxWriteRam_leaves h s1).andThen_transport fun _ s2 =>
  (sendLines_leaves _ s2).andThen_transport fun _ s3 =>
  (runTxChecksum_leaves _ s3).andThen_transport fun _ s4 => TransportOnly.refl s4

/-- FLUSH_UNIT writes no register (R157). -/
theorem runFlushUnit_leaves (s : State) : (runFlushUnit s).Leaves (TransportOnly s) :=
  (runSendHalf_leaves .half0 s).andThen_transport fun _ s1 =>
  (runSendHalf_leaves .half1 s1).andThen_transport fun _ s2 =>
  (runTxUnlock_leaves s2).andThen_transport fun _ s3 =>
  (runTxPrepare_leaves _ _ s3).andThen_transport fun _ s4 =>
  (runTxCopy_leaves s4).andThen_transport fun _ s5 => TransportOnly.refl s5

theorem requireSession_leaves (s : State) : (requireSession s).Leaves (TransportOnly s) := by
  unfold requireSession
  split <;> exact TransportOnly.refl s

/-- VERSION writes no register (R135). -/
theorem runVersion_leaves (s : State) : (runVersion s).Leaves (TransportOnly s) :=
  (requireSession_leaves s).andThen_transport fun _ s1 =>
  (runTxVersion_leaves s1).andThen_transport fun field s2 => by
    split <;> exact TransportOnly.refl s2

/-- PREPARE writes no register (R137). -/
theorem runPrepare_leaves (s : State) : (runPrepare s).Leaves (TransportOnly s) :=
  (requireSession_leaves s).andThen_transport fun _ s1 =>
  (runTxUnlock_leaves s1).andThen_transport fun _ s2 =>
  (runTxPrepare_leaves _ _ s2).andThen_transport fun _ s3 =>
  (runTxErase_leaves _ _ s3).andThen_transport fun _ s4 => TransportOnly.refl s4

end Sys2Proof.Machine
end

