-- ==== Sys2Proof/Laws/Lines.lean ====
section
/-! SUPPORT. The sequences of the block as lists of catalogue lines, and what such a list does on matches, on a mismatch and on a timeout. -/

namespace Sys2Proof.Machine

/-! ### Which answers match -/

/-- An ECHO_STATUS answer matches when it is the echo, any separator, and the token (R105). -/
theorem shapeMatches_echoStatus (text r : Bytes) (n : Nat) (tok : Token) (hl : r.length = text.length + n + (tokenBytes tok).length) :
    shapeMatches (.echoStatus tok) text n r = true ↔ ∃ sep : Bytes, sep.length = n ∧ r = text ++ sep ++ tokenBytes tok := by
  simp only [shapeMatches, echoMatches, tokenMatches, Bool.and_eq_true, beq_iff_eq]
  constructor
  · rintro ⟨h1, h2⟩
    refine ⟨(r.drop text.length).take n, by simp; omega, ?_⟩
    have e2 : r.drop (text.length + n) = tokenBytes tok := by
      rw [← h2, List.take_of_length_le]; simp; omega
    calc r = r.take text.length ++ r.drop text.length := (List.take_append_drop _ _).symm
      _ = text ++ ((r.drop text.length).take n ++ (r.drop text.length).drop n) := by rw [h1, List.take_append_drop]
      _ = _ := by rw [List.drop_drop, e2, List.append_assoc]
  · rintro ⟨sep, hs, rfl⟩
    subst hs
    constructor
    · simp
    · rw [← List.length_append, List.drop_left]; simp

/-- An ECHO_STATUS_FIELD answer matches when it is the echo, any separator, the token, any separator, any field (R106). -/
theorem shapeMatches_field (text r : Bytes) (n f : Nat) (tok : Token) (hl : r.length = text.length + n + (tokenBytes tok).length + n + f) :
    shapeMatches (.echoStatusField tok f) text n r = true ↔ ∃ sep sep' field : Bytes, sep.length = n ∧ sep'.length = n ∧ field.length = f ∧
      r = text ++ sep ++ tokenBytes tok ++ sep' ++ field := by
  simp only [shapeMatches, echoMatches, tokenMatches, Bool.and_eq_true, beq_iff_eq]
  constructor
  · rintro ⟨h1, h2⟩
    refine ⟨(r.drop text.length).take n, (r.drop (text.length + n + (tokenBytes tok).length)).take n, 
      r.drop (text.length + n + (tokenBytes tok).length + n), by simp; omega, by simp; omega, by simp; omega, ?_⟩
    calc r = r.take text.length ++ r.drop text.length := (List.take_append_drop _ _).symm
      _ = text ++ ((r.drop text.length).take n ++ (r.drop text.length).drop n) := by rw [h1, List.take_append_drop]
      _ = text ++ ((r.drop text.length).take n ++ (tokenBytes tok ++ (r.drop (text.length + n)).drop (tokenBytes tok).length)) := by
          rw [List.drop_drop]
          conv_lhs => rw [← List.take_append_drop (tokenBytes tok).length (r.drop (text.length + n)), h2]
      _ = text ++ ((r.drop text.length).take n ++ (tokenBytes tok ++ ((r.drop (text.length + n + (tokenBytes tok).length)).take n ++ r.drop (text.length + n + (tokenBytes tok).length + n)))) := by
          rw [List.drop_drop]
          conv_lhs => rw [← List.take_append_drop n (r.drop (text.length + n + (tokenBytes tok).length)), List.drop_drop]
      _ = _ := by simp only [List.append_assoc]
  · rintro ⟨sep, sep', field, hs, hs', hf, rfl⟩
    subst hs
    constructor
    · simp
    · rw [← List.length_append, List.append_assoc, List.append_assoc, List.drop_left]; simp

/-! ### One line of the catalogue -/

/-- The shape of a line's answer (R58). -/
def CatalogueLine.shape (l : CatalogueLine) : Shape := match l.token with | none => .echo | some t => .echoStatus t

/-- The transaction of a line sent with terminator. -/
def CatalogueLine.run (l : CatalogueLine) (s : State) : Run Bytes := transact l.text true l.shape l.why s

/-- A line answered by a match. -/
theorem CatalogueLine.run_ok (l : CatalogueLine) (s : State) (sep : Bytes) (rest : List RxItem) (hs : sep.length = s.cfg.sepLen) (hx : s.rx = feed (l.answer sep) rest) :
   l.run s = .ok [] { s with rx := rest, trace := s.trace ++ eventsOf [l.exchange s.cfg sep] } := by
  unfold CatalogueLine.run
  obtain ⟨text, token, why⟩ := l
  cases token with
  | none =>
    rw [transact_answered _ _ _ _ s _ rest rfl hx, if_pos (by simp [shapeMatches, CatalogueLine.shape, CatalogueLine.answer])]
    simp [CatalogueLine.shape, shapeField, eventsOf, CatalogueLine.exchange, CatalogueLine.answer, sentBytes]
  | some tok =>
    have hl : (text ++ sep ++ tokenBytes tok).length = text.length + s.cfg.sepLen + (tokenBytes tok).length := by simp [hs]; omega
    rw [transact_answered _ _ _ _ s _ rest hl hx]
    refine (if_pos ((shapeMatches_echoStatus _ _ _ _ hl).2 ⟨sep, hs, rfl⟩)).trans ?_
    simp [CatalogueLine.shape, shapeField, eventsOf, CatalogueLine.exchange, CatalogueLine.answer, sentBytes]

/-- A line answered by a mismatch. -/
theorem CatalogueLine.run_bad (l : CatalogueLine) (s : State) (r : Bytes) (rest : List RxItem) (hm : l.MismatchedBy s.cfg.sepLen r) (hx : s.rx = feed r rest) :
   l.run s = .raise l.why { s with rx := rest, trace := s.trace ++ eventsOf [⟨l.text ++ s.cfg.term, r⟩] } := by
  unfold CatalogueLine.run
  obtain ⟨text, token, why⟩ := l
  obtain ⟨h1, h2⟩ := hm
  cases token with
  | none =>
    rw [transact_answered _ _ _ _ s _ rest h1 hx, if_neg (by simpa [shapeMatches, CatalogueLine.shape, CatalogueLine.answer] using h2 (List.replicate s.cfg.sepLen 0#8) (by simp))]
    simp [eventsOf, sentBytes]
  | some tok =>
    have hl : r.length = text.length + s.cfg.sepLen + (tokenBytes tok).length := h1
    rw [transact_answered _ _ _ _ s _ rest hl hx, if_neg (by 
      show ¬ shapeMatches (.echoStatus tok) _ _ _ = true
      rw [shapeMatches_echoStatus _ _ _ _ hl]; rintro ⟨sep, a, b⟩; exact h2 sep a b)]
    simp [eventsOf, sentBytes]

/-- A line whose answer times out. -/
theorem CatalogueLine.run_gap (l : CatalogueLine) (s : State) (part : Bytes) (rest : List RxItem)
    (hm : part.length < l.answerLength s.cfg.sepLen) (hx : s.rx = feed part (.gap :: rest)) :
    l.run s = .raise .transportTimeout { s with
      rx := rest, trace := s.trace ++ [.send (l.text ++ s.cfg.term), .recv (l.answerLength s.cfg.sepLen) none] } := by
  have e : shapeLength l.shape l.text s.cfg.sepLen = l.answerLength s.cfg.sepLen := by
    obtain ⟨text, token, why⟩ := l
    cases token <;> rfl
  simp [CatalogueLine.run, transact, recv, hx, e, arrival_gap _ _ _ hm]

theorem CatalogueLine.run_leaves (l : CatalogueLine) (s : State) : (l.run s).Leaves (TransportOnly s) := transact_leaves ..

/-! ### The texts of the block are those of the catalogue -/

theorem textUnlock_eq : textUnlock = lineUnlock.text := by decide

theorem textWriteRam_eq_one : textWriteRam ramAddr1 = lineWriteRam1.text := by decide

theorem textWriteRam_eq_two : textWriteRam ramAddr2 = lineWriteRam2.text := by decide

theorem textPrepare_eq (f l : Nat) : textPrepare f l = (linePrepare f l).text := by simp [textPrepare, linePrepare]

theorem textErase_eq (f l : Nat) : textErase f l = (lineErase f l).text := by simp [textErase, lineErase]

theorem textCopy_eq (c : Nat) : textCopy c = (lineCopy c).text := by 
  have h1 : dec ramAddr1 = [0x32#8, 0x36#8, 0x38#8, 0x34#8, 0x33#8, 0x35#8, 0x39#8, 0x36#8, 0x38#8] := by decide
  have h2 : dec unitLen = [0x31#8, 0x30#8, 0x32#8, 0x34#8] := by decide
  simp only [textCopy, lineCopy, h1, h2]; simp

/-- The write-RAM line of a half (R117, R118). -/
def ramLine : Half → CatalogueLine | .half0 => lineWriteRam1 | .half1 => lineWriteRam2

theorem runTxUnlock_eq (s : State) : runTxUnlock s = lineUnlock.run s := by
  show transact textUnlock _ _ _ s = _; rw [textUnlock_eq]; rfl

theorem runTxWriteRam_eq (h : Half) (s : State) : runTxWriteRam h s = (ramLine h).run s := by
  cases h
  · show transact (textWriteRam ramAddr1) _ _ _ s = _; rw [textWriteRam_eq_one]; rfl
  · show transact (textWriteRam ramAddr2) _ _ _ s = _; rw [textWriteRam_eq_two]; rfl

theorem runTxPrepare_eq (f l : Nat) (s : State) : runTxPrepare f l s = (linePrepare f l).run s := by
  show transact (textPrepare f l) _ _ _ s = _; rw [textPrepare_eq]; rfl

theorem runTxErase_eq (f l : Nat) (s : State) : runTxErase f l s = (lineErase f l).run s := by
  show transact (textErase f l) _ _ _ s = _; rw [textErase_eq]; rfl

theorem runTxCopy_eq (s : State) : runTxCopy s = (lineCopy s.cursor).run s := by
  show transact (textCopy s.cursor) _ _ _ s = _; rw [textCopy_eq]; rfl

theorem runTxChecksum_eq (bs : Bytes) (hl : bs.length = 512) (s : State) : runTxChecksum (checksum bs) s = (lineChecksum (bs.map BitVec.toNat).sum).run s := by
  have h := checksum_half bs (by omega)
  show transact (dec (checksum bs).toNat) _ _ _ s = _
  rw [h]; rfl

/-- The ten line rows sent with terminator and answered without a field are the transactions of their catalogue lines. -/
theorem exec_line (s : State) (first last : Nat) (line : Bytes) (sum : BitVec 32) :
    ∀ p ∈ ([(.txSyncAck, lineSyncAck), (.txAckVal, lineAckVal), (.txUnlock, lineUnlock), (.txPrepare first last, linePrepare first last),
        (.txErase first last, lineErase first last), (.txWriteRam1, lineWriteRam1), (.txWriteRam2, lineWriteRam2),
        (.txDataLine line, lineData line), (.txChecksum sum, lineChecksum sum.toNat), (.txCopy, lineCopy s.cursor)] :
        List (Instr × CatalogueLine)), exec p.1 s = (p.2.run s).report acceptPlain := by
  intro p hp
  simp only [List.mem_cons, List.not_mem_nil, or_false] at hp
  rcases hp with rfl | rfl | rfl | rfl | rfl | rfl | rfl | rfl | rfl | rfl
  · rfl
  · rfl
  · show (transact textUnlock _ _ _ s).report _ = _; rw [textUnlock_eq]; rfl
  · show (transact (textPrepare first last) _ _ _ s).report _ = _; rw [textPrepare_eq]; rfl
  · show (transact (textErase first last) _ _ _ s).report _ = _; rw [textErase_eq]; rfl
  · show (transact (textWriteRam ramAddr1) _ _ _ s).report _ = _; rw [textWriteRam_eq_one]; rfl
  · show (transact (textWriteRam ramAddr2) _ _ _ s).report _ = _; rw [textWriteRam_eq_two]; rfl
  · rfl
  · rfl
  · show (transact (textCopy s.cursor) _ _ _ s).report _ = _; rw [textCopy_eq]; rfl

/-! ### Lines one after another -/

/-- Lines sent one after another, fail-fast. -/
def runLines : List CatalogueLine → State → Run Unit
  | [], s => .ok () s
  | l :: ls, s => (l.run s).andThen fun _ s' => runLines ls s'

theorem Run.andThen_assoc {α β γ : Type} (x : Run α) (f : α → State → Run β) (g : β → State → Run γ) :
   (x.andThen f).andThen g = x.andThen fun a s => (f a s).andThen g := by cases x <;> rfl

theorem runLines_append (a b : List CatalogueLine) (s : State) : runLines (a ++ b) s = (runLines a s).andThen fun _ s' => runLines b s' := by
  induction a generalizing s with
  | nil => rfl
  | cons l a ih => simp only [List.cons_append, runLines, ih, Run.andThen_assoc]

theorem exchangesOf_cons (cfg : Config) (seps : Nat → Bytes) (l : CatalogueLine) (ls : List CatalogueLine) :
   exchangesOf cfg seps (l :: ls) = l.exchange cfg (seps 0) :: exchangesOf cfg (fun k => seps (k + 1)) ls := by
  simp [exchangesOf, List.zipIdx_cons, List.zipIdx_succ]

theorem answersOf_append (a b : List Exchange) : answersOf (a ++ b) = answersOf a ++ answersOf b := by simp [answersOf]

theorem eventsOf_append (a b : List Exchange) : eventsOf (a ++ b) = eventsOf a ++ eventsOf b := by simp [eventsOf]

theorem feed_append (a b : Bytes) (rest : List RxItem) : feed (a ++ b) rest = feed a (feed b rest) := by simp [feed]

/-- All lines answered by matches. -/
theorem runLines_ok (ls : List CatalogueLine) (s : State) (seps : Nat → Bytes) (rest : List RxItem) (hs : Separators s.cfg seps)
  (hx : s.rx = feed (answersOf (exchangesOf s.cfg seps ls)) rest) :
  runLines ls s = .ok () { s with rx := rest, trace := s.trace ++ eventsOf (exchangesOf s.cfg seps ls) } := by
  induction ls generalizing s seps with
  | nil => 
    have : s.rx = rest := by simpa [feed, answersOf, exchangesOf] using hx
    subst this
    simp [runLines, exchangesOf, eventsOf]
  | cons l ls ih =>
    rw [exchangesOf_cons] at hx ⊢
    simp only [answersOf, List.flatMap_cons, feed_append] at hx
    rw [runLines, CatalogueLine.run_ok l s (seps 0) _ (hs 0) hx, Run.andThen_ok]
    refine (ih { s with rx := feed (List.flatMap Exchange.answer (exchangesOf s.cfg (fun k => seps (k + 1)) ls)) rest, trace := s.trace ++ eventsOf [l.exchange s.cfg (seps 0)] } (fun k => seps (k+1)) (fun k => hs (k+1)) rfl).trans ?_
    simp [eventsOf, List.append_assoc]

/-- The `k`-th line answered by a mismatch. -/
theorem runLines_bad (ls : List CatalogueLine) (s : State) (seps : Nat → Bytes) (rest : List RxItem) (hs : Separators s.cfg seps)
  (k : Nat) (l : CatalogueLine) (hk : l ∈ ls[k]?) (r : Bytes) (hm : l.MismatchedBy s.cfg.sepLen r)
  (hx : s.rx = feed (answersOf (exchangesOf s.cfg seps (ls.take k)) ++ r) rest) :
  runLines ls s = .raise l.why { s with rx := rest, trace := s.trace ++ eventsOf (exchangesOf s.cfg seps (ls.take k) ++ [⟨l.text ++ s.cfg.term, r⟩]) } := by
  have hk' : ls[k]? = some l := hk
  have hlt : k < ls.length := by
    by_contra h; rw [List.getElem?_eq_none (by omega)] at hk'; simp at hk'
  have hsplit : ls = ls.take k ++ l :: ls.drop (k+1) := by
    have : ls[k] = l := by rw [List.getElem?_eq_getElem hlt] at hk'; simpa using hk'
    rw [← this, ← List.drop_eq_getElem_cons hlt, List.take_append_drop]
  rw [feed_append] at hx
  conv_lhs => rw [hsplit]
  rw [runLines_append, runLines_ok _ s seps _ hs hx, Run.andThen_ok, runLines]
  refine (congrArg (fun x => Run.andThen x _) (CatalogueLine.run_bad l { s with rx := feed r rest, trace := s.trace ++ eventsOf (exchangesOf s.cfg seps (ls.take k)) } r rest hm rfl)).trans ?_
  simp [eventsOf, List.append_assoc]

/-- The `k`-th line times out. -/
theorem runLines_gap (ls : List CatalogueLine) (s : State) (seps : Nat → Bytes) (rest : List RxItem) (hs : Separators s.cfg seps)
  (k : Nat) (l : CatalogueLine) (hk : l ∈ ls[k]?) (part : Bytes) (hm : part.length < l.answerLength s.cfg.sepLen)
  (hx : s.rx = feed (answersOf (exchangesOf s.cfg seps (ls.take k)) ++ part) (.gap :: rest)) :
  runLines ls s = .raise .transportTimeout { s with rx := rest, trace := s.trace ++ eventsOf (exchangesOf s.cfg seps (ls.take k)) ++
     [.send (l.text ++ s.cfg.term), .recv (l.answerLength s.cfg.sepLen) none] } := by
  have hk' : ls[k]? = some l := hk
  have hlt : k < ls.length := by
    by_contra h; rw [List.getElem?_eq_none (by omega)] at hk'; simp at hk'
  have hsplit : ls = ls.take k ++ l :: ls.drop (k+1) := by
    have : ls[k] = l := by rw [List.getElem?_eq_getElem hlt] at hk'; simpa using hk'
    rw [← this, ← List.drop_eq_getElem_cons hlt, List.take_append_drop]
  rw [feed_append] at hx
  conv_lhs => rw [hsplit]
  rw [runLines_append, runLines_ok _ s seps _ hs hx, Run.andThen_ok, runLines]
  refine (congrArg (fun x => Run.andThen x _) (CatalogueLine.run_gap l { s with rx := feed part (.gap :: rest), trace := s.trace ++ eventsOf (exchangesOf s.cfg seps (ls.take k)) } part rest hm rfl)).trans ?_
  simp [List.append_assoc]

/-! ### The sequences of the writer as lists of lines -/

theorem sendLines_eq (ls : List Bytes) (s : State) : sendLines ls s = runLines (ls.map lineData) s := by
  induction ls generalizing s with
  | nil => rfl
  | cons l ls ih =>
    have : runTxDataLine l s = (lineData l).run s := rfl
    simp only [sendLines, List.map_cons, runLines, ih, this]

/-- Two continuations that agree after a run of transactions make the same sequence. -/
theorem Run.andThen_congr {α β : Type} {s : State} {x : Run α} {f g : α → State → Run β} (hx : x.Leaves (TransportOnly s))
   (h : ∀ a t, TransportOnly s t → f a t = g a t) : x.andThen f = x.andThen g := by
  cases x with
  | ok a t => exact h a t hx
  | raise r t => rfl
  | hang => rfl

theorem halfBytes_length (h : Half) (s : State) : (halfBytes h s).length = 512 := by simp [halfBytes]

theorem halfBytes_eq_of_transport (h : Half) {s t : State} (ht : TransportOnly s t) : halfBytes h t = halfBytes h s := by
  simp only [halfBytes, ht.registers.1]

theorem halfLines_length (w : CatalogueLine) (bytes : Bytes) : (halfLines w bytes).length = 15 := by
  simp [halfLines, halfEncode_length]

theorem unitLines_length (buf : Bytes) (cursor : Nat) : (unitLines buf cursor).length = 33 := by
  simp only [unitLines, halfLines, List.length_append, List.length_cons, List.length_nil, List.length_map, halfEncode_length]

/-- SEND_HALF is its fifteen lines (R158). -/
theorem runSendHalf_eq (h : Half) (s : State) : runSendHalf h s = runLines (halfLines (ramLine h) (halfBytes h s)) s := by
  unfold runSendHalf halfLines
  simp only [List.cons_append, List.nil_append, runLines, runLines_append, ← sendLines_eq, runTxUnlock_eq, runTxWriteRam_eq]
  refine Run.andThen_congr (CatalogueLine.run_leaves _ s) fun _ s1 h1 => ?_
  refine Run.andThen_congr (CatalogueLine.run_leaves _ s1) fun _ s2 h2 => ?_
  have e : halfBytes h s2 = halfBytes h s := halfBytes_eq_of_transport h (h1.trans h2)
  rw [e]
  refine Run.andThen_congr (sendLines_leaves _ s2) fun _ s3 h3 => ?_
  have e : halfBytes h s3 = halfBytes h s := halfBytes_eq_of_transport h ((h1.trans h2).trans h3)
  rw [e, runTxChecksum_eq _ (halfBytes_length h s)]

theorem readBytes_take (m : Memory) : (m.readBytes 0 1024).take 512 = m.readBytes 0 512 := by
  apply List.ext_getElem
  · simp
  · intro i h1 h2; simp [Memory.readBytes]

theorem readBytes_drop (m : Memory) : (m.readBytes 0 1024).drop 512 = m.readBytes 512 512 := by
  apply List.ext_getElem
  · simp
  · intro i h1 h2; simp [Memory.readBytes]

/-- FLUSH_UNIT is its thirty-three lines (R157). -/
theorem runFlushUnit_eq (s : State) : runFlushUnit s = runLines (unitLines (Memory.readBytes s.sb 0 1024) s.cursor) s := by
  unfold runFlushUnit unitLines
  rw [readBytes_take, readBytes_drop]
  simp only [List.append_assoc, runLines_append]
  have e0 : Memory.readBytes s.sb 0 512 = halfBytes .half0 s := rfl
  have e1 : Memory.readBytes s.sb 512 512 = halfBytes .half1 s := rfl
  rw [e0, e1]
  have r0 : runLines (halfLines lineWriteRam1 (halfBytes .half0 s)) s = runSendHalf .half0 s := (runSendHalf_eq .half0 s).symm
  rw [r0]
  refine Run.andThen_congr (runSendHalf_leaves _ s) fun _ s1 h1 => ?_
  have r1 : runLines (halfLines lineWriteRam2 (halfBytes .half1 s)) s1 = runSendHalf .half1 s1 := by
    rw [← halfBytes_eq_of_transport .half1 h1]; exact (runSendHalf_eq .half1 s1).symm
  rw [r1]
  refine Run.andThen_congr (runSendHalf_leaves _ s1) fun _ s2 h2 => ?_
  simp only [runLines, runTxUnlock_eq, runTxPrepare_eq, runTxCopy_eq]
  refine Run.andThen_congr (CatalogueLine.run_leaves _ s2) fun _ s3 h3 => ?_
  refine Run.andThen_congr (CatalogueLine.run_leaves _ s3) fun _ s4 h4 => ?_
  have : s4.cursor = s.cursor := (((h1.trans h2).trans h3).trans h4).registers.2.2.1
  rw [this]

theorem requireSession_ok (s : State) (hv : s.valid = true) : requireSession s = .ok () s := by simp [requireSession, hv]

/-- PREPARE is its three lines (R137). -/
theorem runPrepare_eq (s : State) (hv : s.valid = true) : runPrepare s = runLines prepareLines s := by
  simp only [runPrepare, requireSession, hv, if_true, Run.andThen_ok, prepareLines, runLines, runTxUnlock_eq, runTxPrepare_eq, runTxErase_eq]

/-! ### The two transactions that are no catalogue line -/

theorem runTxStart_ok (s : State) (rest : List RxItem) (hx : s.rx = feed syncString rest) :
   runTxStart s = .ok [] { s with rx := rest, trace := s.trace ++ eventsOf [⟨[0x3F#8], syncString⟩] } := by
  unfold runTxStart
  rw [transact_answered _ _ _ _ s _ rest rfl hx, if_pos (by simp [shapeMatches])]; rfl

theorem runTxStart_bad (s : State) (r : Bytes) (rest : List RxItem) (hl : r.length = 12) (hr : r ≠ syncString) (hx : s.rx = feed r rest) :
   runTxStart s = .raise .handshakeFailure { s with rx := rest, trace := s.trace ++ eventsOf [⟨[0x3F#8], r⟩] } := by
  unfold runTxStart
  rw [transact_answered _ _ _ _ s _ rest hl hx, if_neg (by simpa [shapeMatches] using hr)]; rfl

theorem runTxStart_gap (s : State) (r : Bytes) (rest : List RxItem) (hl : r.length < 12) (hx : s.rx = feed r (.gap :: rest)) :
   runTxStart s = .raise .transportTimeout { s with rx := rest, trace := s.trace ++ [.send [0x3F#8], .recv 12 none] } := by
  have := arrival_gap r 12 rest hl
  simp [runTxStart, transact, recv, hx, shapeLength, this, textStart]

theorem runTxVersion_ok (s : State) (sep sep' field : Bytes) (rest : List RxItem) (hs : sep.length = s.cfg.sepLen) (hs' : sep'.length = s.cfg.sepLen) (hf : field.length = 10)
   (hx : s.rx = feed ([0x4A#8] ++ sep ++ [0x30#8] ++ sep' ++ field) rest) :
   runTxVersion s = .ok field { s with rx := rest, trace := s.trace ++ eventsOf [⟨[0x4A#8] ++ s.cfg.term, [0x4A#8] ++ sep ++ [0x30#8] ++ sep' ++ field⟩] } := by
  unfold runTxVersion
  have hl : ([0x4A#8] ++ sep ++ tokenBytes .proto ++ sep' ++ field).length = ([0x4A#8] : Bytes).length + s.cfg.sepLen + (tokenBytes .proto).length + s.cfg.sepLen + 10 := by
    simp [hs, hs', hf]; omega
  rw [transact_answered textVersion true _ _ s _ rest hl hx]
  refine (if_pos ((shapeMatches_field _ _ _ _ _ hl).2 ⟨sep, sep', field, hs, hs', hf, rfl⟩)).trans ?_
  have e : ([0x4A#8] ++ sep ++ tokenBytes .proto ++ sep' ++ field).drop (([0x4A#8] : Bytes).length + s.cfg.sepLen + (tokenBytes .proto).length + s.cfg.sepLen) = field := by
    have : ([0x4A#8] : Bytes).length + s.cfg.sepLen + (tokenBytes .proto).length + s.cfg.sepLen = ([0x4A#8] ++ sep ++ tokenBytes .proto ++ sep').length := by simp [hs, hs']; omega
    rw [this, List.drop_left]
  have e' : shapeField (.echoStatusField .proto versionFieldLen) textVersion s.cfg.sepLen ([0x4A#8] ++ sep ++ [0x30#8] ++ sep' ++ field) = field := e
  rw [e']; rfl

/-- An answer of the full length with a wrong echo or token: the field is handed to nobody. -/
theorem runTxVersion_bad (s : State) (r : Bytes) (rest : List RxItem) (hl : r.length = 1 + s.cfg.sepLen + 1 + s.cfg.sepLen + 10)
   (hm : ∀ sep sep' field : Bytes, sep.length = s.cfg.sepLen → sep'.length = s.cfg.sepLen → field.length = 10 → r ≠ [0x4A#8] ++ sep ++ [0x30#8] ++ sep' ++ field)
   (hx : s.rx = feed r rest) :
   runTxVersion s = .raise .transactionMismatch { s with rx := rest, trace := s.trace ++ eventsOf [⟨[0x4A#8] ++ s.cfg.term, r⟩] } := by
  unfold runTxVersion
  rw [transact_answered textVersion true _ _ s _ rest hl hx]
  refine (if_neg fun h => ?_).trans rfl
  obtain ⟨sep, sep', field, h1, h2, h3, e⟩ := (shapeMatches_field textVersion r s.cfg.sepLen 10 .proto hl).1 h
  exact hm sep sep' field h1 h2 h3 e

theorem runTxVersion_gap (s : State) (part : Bytes) (rest : List RxItem) (hl : part.length < 1 + s.cfg.sepLen + 1 + s.cfg.sepLen + 10)
   (hx : s.rx = feed part (.gap :: rest)) :
   runTxVersion s = .raise .transportTimeout { s with rx := rest, trace := s.trace ++ [.send ([0x4A#8] ++ s.cfg.term), .recv (1 + s.cfg.sepLen + 1 + s.cfg.sepLen + 10) none] } := by
  have := arrival_gap part _ rest hl
  simp [runTxVersion, transact, recv, sendT, send, hx, shapeLength, this, textVersion, tokenBytes, versionFieldLen]

/-! ### The record as the claims read it -/

theorem recordSize_eq_declaredSize (record : Bytes) (h : 8 ≤ record.length) : recordSize record = declaredSize record := by
  match record, h with
  | _ :: _ :: _ :: _ :: _ :: _ :: _ :: _ :: _, _ => rfl

/-- A payload of whole words enters the buffer as the claims write it out (R151). -/
theorem recordData_eq_swappedPayload (record : Bytes) (h : WholeWords record) : recordData record = swappedPayload record := by
  have hs := recordSize_eq_declaredSize record (by have := h.2; omega)
  have hl : ((record.drop 8).take (declaredSize record)).length = declaredSize record := by
    have := h.2; simp only [List.length_take, List.length_drop]; omega
  rw [recordData, recordPayload, hs, swapWords_eq _ (by rw [hl]; exact h.1), hl, swappedPayload]
  refine List.map_congr_left fun i hi => ?_
  have hi := List.mem_range.1 hi
  have h4 := h.1
  simp only [List.getD_eq_getElem?_getD]
  rw [List.getElem?_take_of_lt (by omega), List.getElem?_drop]

end Sys2Proof.Machine
end

