-- ==== Sys2Proof/Laws/Exec.lean ====
section
/-! SUPPORT. Everything an instruction can do, said once: counted frames of the sequences, and the cases of WRITE and FINISH. -/

namespace Sys2Proof.Machine

/-! ### Frames with a count of receives -/

/-- Only the transport is used, with at most `n` receives. -/
def UsesUpTo (n : Nat) (s t : State) : Prop := TransportOnly s t ∧ receives t.trace ≤ receives s.trace + n

theorem receives_append (a b : List Event) : receives (a ++ b) = receives a + receives b := by simp [receives]

theorem UsesUpTo.refl (s : State) : UsesUpTo 0 s s := ⟨TransportOnly.refl s, by omega⟩

theorem UsesUpTo.trans {m n : Nat} {s t u : State} (h : UsesUpTo m s t) (h' : UsesUpTo n t u) : UsesUpTo (m + n) s u :=
  ⟨h.1.trans h'.1, by have := h.2; have := h'.2; omega⟩

theorem UsesUpTo.mono {m n : Nat} {s t : State} (h : UsesUpTo m s t) (hm : m ≤ n) : UsesUpTo n s t := ⟨h.1, by have := h.2; omega⟩

theorem Run.Leaves.mono {α} {x : Run α} {P Q : State → Prop} (h : x.Leaves P) (hpq : ∀ s, P s → Q s) : x.Leaves Q := by
  cases x with
  | ok a s => exact hpq s h
  | raise a s => exact hpq s h
  | hang => trivial

theorem Run.Leaves.andThen_uses {α β} {m n : Nat} {s : State} {x : Run α} {f : α → State → Run β} (hx : x.Leaves (UsesUpTo m s))
   (hf : ∀ a t, (f a t).Leaves (UsesUpTo n t)) : (x.andThen f).Leaves (UsesUpTo (m + n) s) := by
  cases x with
  | ok a t => exact (hf a t).mono fun u hu => UsesUpTo.trans hx hu
  | raise r t => exact UsesUpTo.mono hx (by omega)
  | hang => trivial

theorem transact_uses (text term shape why s) : (transact text term shape why s).Leaves (UsesUpTo 1 s) := by
  rcases transact_cases text term shape why s with ⟨r, rest, -, hx, -, h⟩ | ⟨r, rest, -, hx, -, h⟩ | ⟨e, rest, hx, h⟩ | ⟨-, h⟩
  · rw [h]; exact ⟨⟨_, r.map .byte, hx, rfl⟩, by simp [receives]⟩
  · rw [h]; exact ⟨⟨_, r.map .byte, hx, rfl⟩, by simp [receives]⟩
  · rw [h]; exact ⟨⟨_, e, hx, rfl⟩, by simp [receives]⟩
  · rw [h]; trivial

theorem runLines_uses (ls : List CatalogueLine) (s : State) : (runLines ls s).Leaves (UsesUpTo ls.length s) := by
  induction ls generalizing s with
  | nil => exact UsesUpTo.refl s
  | cons l ls ih =>
    have := Run.Leaves.andThen_uses (f := fun _ s' => runLines ls s') (transact_uses l.text true l.shape l.why s) (fun _ t => ih t)
    rw [List.length_cons, Nat.add_comm]; exact this

theorem runSendHalf_uses (h : Half) (s : State) : (runSendHalf h s).Leaves (UsesUpTo 15 s) := by
  rw [runSendHalf_eq, ← halfLines_length (ramLine h) (halfBytes h s)]
  exact runLines_uses _ s

theorem runFlushUnit_uses (s : State) : (runFlushUnit s).Leaves (UsesUpTo 33 s) := by
  rw [runFlushUnit_eq, ← unitLines_length (Memory.readBytes s.sb 0 1024) s.cursor]
  exact runLines_uses _ s

theorem requireSession_uses (s : State) : (requireSession s).Leaves (UsesUpTo 0 s) := by
  unfold requireSession; split <;> exact UsesUpTo.refl s

theorem runVersion_uses (s : State) : (runVersion s).Leaves (UsesUpTo 1 s) :=
  Run.Leaves.andThen_uses (m := 0) (n := 1) (requireSession_uses s) fun _ s1 =>
  Run.Leaves.andThen_uses (m := 1) (n := 0) (transact_uses _ _ _ _ s1) fun field s2 => by split <;> exact UsesUpTo.refl s2

theorem runPrepare_uses (s : State) : (runPrepare s).Leaves (UsesUpTo 3 s) :=
  Run.Leaves.andThen_uses (m := 0) (n := 3) (requireSession_uses s) fun _ s1 =>
  Run.Leaves.andThen_uses (m := 1) (n := 2) (transact_uses _ _ _ _ s1) fun _ s1 =>
  Run.Leaves.andThen_uses (m := 1) (n := 1) (transact_uses _ _ _ _ s1) fun _ s1 =>
  Run.Leaves.andThen_uses (m := 1) (n := 0) (transact_uses _ _ _ _ s1) fun _ s2 => UsesUpTo.refl s2

/-! ### The frame of a handshake -/

/-- Only the transport is used, with at most `n` receives, and `hs` moves forward or stays (R14). -/
def Shakes (n : Nat) (s t : State) : Prop := ∃ u, UsesUpTo n s u ∧ t = { u with hs := t.hs } ∧ s.hs.rank ≤ t.hs.rank

theorem Shakes.refl (s : State) : Shakes 0 s s := ⟨s, UsesUpTo.refl s, rfl, le_rfl⟩

theorem Shakes.trans {m n s t u} (h : Shakes m s t) (h' : Shakes n t u) : Shakes (m + n) s u := by
  obtain ⟨v, hv, ht, hr⟩ := h
  obtain ⟨w, hw, hu, hr'⟩ := h'
  obtain ⟨⟨e, x, hx, hw1⟩, hw2⟩ := hw
  have hvx : v.rx = t.rx := by rw [ht]
  have hvt : v.trace = t.trace := by rw [ht]
  refine ⟨{ v with rx := w.rx, trace := v.trace ++ e }, hv.trans ⟨⟨e, x, by rw [hvx]; exact hx, rfl⟩, ?_⟩, ?_, by omega⟩
  · show receives (v.trace ++ e) ≤ _
    have : receives w.trace = receives (t.trace ++ e) := by rw [hw1]
    rw [hvt, ← this]; exact hw2
  · rw [hu]
    conv_lhs => rw [hw1]
    conv_lhs => rw [ht]

theorem Run.Leaves.andThen_shakes {α β} {m n : Nat} {s : State} {x : Run α} {f : α → State → Run β} (hx : x.Leaves (Shakes m s))
   (hf : ∀ a t, (f a t).Leaves (Shakes n t)) : (x.andThen f).Leaves (Shakes (m + n) s) := by
  cases x with
  | ok a t => exact (hf a t).mono fun u hu => Shakes.trans hx hu
  | raise r t => obtain ⟨u, h1, h2⟩ : Shakes m s t := hx; exact ⟨u, h1.mono (by omega), h2⟩
  | hang => trivial

theorem UsesUpTo.shakes {n s t} (h : UsesUpTo n s t) : Shakes n s t := ⟨t, h, rfl, by rw [h.1.registers.2.2.2.1]⟩

theorem moved_shakes {α} {s : State} (x : Run α) (g : HandshakeState) (hx : x.Leaves (UsesUpTo 1 s)) (hg : s.hs.rank ≤ g.rank) :
  (x.andThen fun _ s' => (.ok () { s' with hs := g } : Run Unit)).Leaves (Shakes 1 s) := by
  cases x with
  | ok a t => exact ⟨t, hx, rfl, hg⟩
  | raise r t => exact UsesUpTo.shakes hx
  | hang => trivial

theorem runHandshake_shakes (s : State) : (runHandshake s).Leaves (Shakes 3 s) :=
  Run.Leaves.andThen_shakes (m := 0) (n := 3) ((requireSession_uses s).mono fun _ h => h.shakes) fun _ s1 =>
  Run.Leaves.andThen_shakes (m := 1) (n := 2) (by
    unfold handshakeStart; split
    · rename_i h; exact moved_shakes _ _ (transact_uses _ _ _ _ s1) (by rw [h]; decide)
    · exact ((UsesUpTo.refl s1).mono (by omega)).shakes) fun _ s1 =>
  Run.Leaves.andThen_shakes (m := 1) (n := 1) (by
    unfold handshakeSyn; split
    · rename_i h; exact moved_shakes _ _ (transact_uses _ _ _ _ s1) (by rw [h]; decide)
    · exact ((UsesUpTo.refl s1).mono (by omega)).shakes) fun _ s1 => (by
    unfold handshakeAck; split
    · rename_i h; exact moved_shakes _ _ (transact_uses _ _ _ _ s1) (by rw [h]; decide)
    · exact ((UsesUpTo.refl s1).mono (by omega)).shakes)

theorem runStart_shakes (s : State) : (runStart s).Leaves (Shakes 7 (openState s)) :=
  Run.Leaves.andThen_shakes (m := 3) (n := 4) (runHandshake_shakes _) fun _ s1 =>
  Run.Leaves.andThen_shakes (m := 1) (n := 3) ((runVersion_uses s1).mono fun _ h => h.shakes) fun _ s1 =>
  Run.Leaves.andThen_shakes (m := 3) (n := 0) ((runPrepare_uses s1).mono fun _ h => h.shakes) fun _ s1 => Shakes.refl s1

/-! ### Instructions that write no register -/

theorem Run.report_leaves {α} {x : Run α} {f : α → Output} {t : State} {P : State → Prop} (h : x.report f = .next t) (hp : x.Leaves P) :
   ∃ u o, P u ∧ t = returnResult o u := by
  obtain ⟨a, u, rfl, rfl⟩ | ⟨r, u, rfl, rfl⟩ := Run.report_next h
  · exact ⟨u, _, hp, rfl⟩
  · exact ⟨u, _, hp, rfl⟩

/-- From `s` to `t` the transport was used with at most `n` receives and a result was put on the port. -/
def QuietTo (n : Nat) (s t : State) : Prop := ∃ u o, UsesUpTo n s u ∧ t = returnResult o u

/-- The instructions that write no register, with the most receives each issues (R222). -/
def registerQuiet : Instr → Option Nat
  | .openSession | .start | .write _ | .finish | .closeSession | .handshake => none
  | .encGroup _ _ _ | .decGroup _ _ _ _ | .encLine _ | .decLine _ | .parseDec _ | .encHalf _ => some 0
  | .version | .txStart | .txSyncAck
      | .txAckVal | .txVersion | .txUnlock | .txPrepare _ _ | .txErase _ _ | .txWriteRam1 | .txWriteRam2 | .txDataLine _
      | .txChecksum _ | .txCopy | .execute _ _ _ _ => some 1
  | .prepare => some 3
  | .sendHalf _ => some 15 
  | .flushUnit => some 33

/-- The instructions that write no register write none. -/
theorem exec_registerQuiet (i : Instr) (n : Nat) (hn : registerQuiet i = some n) (s t : State) (h : exec i s = .next t) : QuietTo n s t := by
  cases i <;> simp [registerQuiet] at hn <;> subst hn
  case encLine raw =>
    have h' : (if 1 ≤ raw.length ∧ raw.length ≤ lineMax then .next (returnResult (.bytes (lineEncode raw)) s) else .refused .encLineDomain : Host.Outcome State Fault Refusal) = .next t := h
    split at h'
    · cases h'; exact ⟨s, _, UsesUpTo.refl s, rfl⟩
    · simp at h'
  case encGroup => cases h; exact ⟨s, _, UsesUpTo.refl s, rfl⟩
  case decGroup => cases h; exact ⟨s, _, UsesUpTo.refl s, rfl⟩
  case decLine => cases h; exact ⟨s, _, UsesUpTo.refl s, rfl⟩
  case parseDec => cases h; exact ⟨s, _, UsesUpTo.refl s, rfl⟩
  case encHalf => cases h; exact ⟨s, _, UsesUpTo.refl s, rfl⟩
  case prepare => exact Run.report_leaves h (runPrepare_uses s)
  case version => exact Run.report_leaves h (runVersion_uses s)
  case sendHalf hh => exact Run.report_leaves h (runSendHalf_uses hh s)
  case flushUnit => exact Run.report_leaves h (runFlushUnit_uses s)
  all_goals exact Run.report_leaves h (transact_uses _ _ _ _ s)

/-! ### WRITE and FINISH -/

/-- Everything WRITE can do (R150 to R154, R156, R159). -/
theorem execWrite_cases (s : State) (record : Bytes) (t : State) (h : exec (.write record) s = .next t) :
   (∃ r, t = takeRejection r s)
   ∨ (s.valid = true ∧ recordSize record % 4 = 0 ∧ s.fill + recordSize record < 1024 ∧ 8 + recordSize record ≤ record.length ∧
      t = returnResult .accepted (accumulate (recordData record) s))
   ∨ (s.valid = true ∧ recordSize record % 4 = 0 ∧ 1024 ≤ s.fill + recordSize record ∧ s.fill + recordSize record ≤ 2047 ∧ 8 + recordSize record ≤ record.length
      ∧ s.cursor + 1024 ≤ 44032 ∧ ∃ u, UsesUpTo 33 (topUp (recordData record) s) u ∧ 
      ((∃ r, t = takeRejection r { u with sb := u.sb.refillFrom u.fill }) ∨
        t = returnResult .accepted (advanceAndCarry ((recordData record).drop (1024 - s.fill)) u))) := by
  have h' : (runWrite record s).report acceptUnit = .next t := h
  unfold runWrite at h'
  by_cases hv : s.valid = true
  · rw [requireSession_ok s hv, Run.andThen_ok] at h'
    split at h'
    · left; simp at h'; exact ⟨_, h'.symm⟩
    rename_i h1
    simp only [recordRejected, Bool.or_eq_true, not_or, decide_eq_true_eq, bne_iff_ne, ne_eq, Decidable.not_not, Nat.not_lt] at h1
    split at h'
    · rename_i h2
      simp only [flushDue, Bool.not_eq_true', decide_eq_false_iff_not, Nat.not_lt] at h2
      unfold runOverflow at h'
      split at h'
      · left; simp at h'; exact ⟨_, h'.symm⟩
      · rename_i h3
        simp only [rangeExceeded, decide_eq_true_eq, Nat.not_lt] at h3
        right; right
        refine ⟨hv, h1.1.1.2, h2, h1.1.2, h1.2, h3, ?_⟩
        have hu := runFlushUnit_uses (topUp (recordData record) s)
        cases hf : runFlushUnit (topUp (recordData record) s) with
        | ok a u =>
          rw [hf] at h' hu; simp [abortFlush] at h'
          exact ⟨u, hu, .inr h'.symm⟩
        | raise r u =>
          rw [hf] at h' hu; simp [abortFlush] at h'
          exact ⟨u, hu, .inl ⟨r, h'.symm⟩⟩
        | hang => rw [hf] at h'; simp [abortFlush] at h'
    · rename_i h2
      simp only [flushDue, Bool.not_eq_true', decide_eq_false_iff_not, Nat.not_lt, Nat.not_le] at h2
      right; left
      simp at h'
      exact ⟨hv, h1.1.1.2, h2, h1.2, h'.symm⟩
  · simp [requireSession, hv] at h'
    left; exact ⟨_, h'.symm⟩

/-- Everything FINISH can do (R160). -/
theorem execFinish_cases (s t : State) (h : exec .finish s = .next t) :
   (∃ r, t = takeRejection r s)
   ∨ (s.valid = true ∧ s.fill = 0 ∧ t = returnResult .accepted { s with valid := false })
   ∨ (s.valid = true ∧ s.fill ≠ 0 ∧ s.cursor + 1024 ≤ 44032 ∧ ∃ u, UsesUpTo 33 s u ∧ ((∃ r, t = takeRejection r u) ∨ t = returnResult .accepted (finishState u))) := by
  have h' : (runFinish s).report acceptUnit = .next t := h
  unfold runFinish at h'
  by_cases hv : s.valid = true
  · rw [requireSession_ok s hv, Run.andThen_ok] at h'
    split at h'
    · rename_i h1
      right; left; rw [Run.report_ok] at h'; cases h'; exact ⟨hv, h1, rfl⟩
    rename_i h1
    split at h'
    · left; simp at h'; exact ⟨_, h'.symm⟩
    rename_i h3
    simp only [rangeExceeded, decide_eq_true_eq, Nat.not_lt] at h3
    right; right
    refine ⟨hv, h1, h3, ?_⟩
    have hu := runFlushUnit_uses s
    cases hf : runFlushUnit s with
    | ok a u => rw [hf] at h' hu; simp at h'; exact ⟨u, hu, .inr h'.symm⟩
    | raise r u => rw [hf] at h' hu; simp at h'; exact ⟨u, hu, .inl ⟨r, h'.symm⟩⟩
    | hang => rw [hf] at h'; simp at h'
  · simp [requireSession, hv] at h'
    left; exact ⟨_, h'.symm⟩

/-- The accumulate path (R152). -/
theorem runWrite_accumulate (s : State) (record : Bytes) (hv : s.valid = true) (h4 : recordSize record % 4 = 0) (hf : s.fill + recordSize record < 1024) (hl : 8 + recordSize record ≤ record.length) :
   runWrite record s = .ok () (accumulate (recordData record) s) := by
  have e1 : recordRejected s.fill record = false := by
    simp [recordRejected]; omega
  have e2 : flushDue s.fill record = false := by simp [flushDue]; omega
  simp [runWrite, requireSession, hv, e1, e2]

/-- The unit a due flush sends: the staged bytes and the first new ones (R153, step 3a). -/
theorem topUp_readBytes (s : State) (q : Bytes) (hI : s.Inv) (hq : 1024 ≤ s.fill + q.length) :
   (topUp q s).sb.readBytes 0 1024 = s.sb.readBytes 0 s.fill ++ q.take (1024 - s.fill) := by
  have hU : unitLen = 1024 := rfl
  obtain ⟨hw, hf, -⟩ := hI
  apply List.ext_getElem
  · simp; omega
  · intro i h1 h2
    rw [Memory.readBytes_getElem]
    show Memory.read (s.sb.writeBytes s.fill (q.take (unitLen - s.fill))) _ = _
    simp only [Memory.readBytes_length] at h1
    rw [Memory.read_writeBytes hw, Nat.zero_add]
    by_cases hi : i < s.fill
    · rw [if_neg (by omega), List.getElem_append_left (by simpa using hi), Memory.readBytes_getElem, Nat.zero_add]
    · rw [if_pos (by simp; omega), List.getElem_append_right (by simp; omega)]
      simp [List.getD_eq_getElem?_getD]
      rw [List.getElem?_take_of_lt (by omega), List.getElem?_eq_getElem (by omega)]; rfl

end Sys2Proof.Machine
end

