-- ==== Sys2Proof/Laws/PerInstr.lean ====
section
/-! SUPPORT. The statements made of every instruction, by family, one lemma for each constructor. The family `FirstByte`: the encoder's first byte carries
the select bits of the instruction's row in spec/opcode_table.json, and the rows "not selectable from any port" have no encoding. -/

namespace Sys2Proof.Laws.FirstByte

open Sys2Proof.Machine

/-- The `mask` and `match` columns of a row. -/
structure Row where
  mask : Nat
  pattern : Nat
  deriving DecidableEq, Repr

/-- The row of each instruction; `none` for the internal sequences, whose row has no encoding. -/
def row : Instr → Option Row
  | .openSession => some ⟨7, 0⟩
  | .handshake => some ⟨7, 1⟩
  | .version => some ⟨7, 2⟩
  | .prepare => some ⟨7, 3⟩
  | .write _ => some ⟨7, 4⟩
  | .finish => some ⟨7, 5⟩
  | .closeSession => some ⟨7, 6⟩
  | .start => some ⟨7, 7⟩
  | .encGroup _ _ _ => some ⟨3, 0⟩
  | .decGroup _ _ _ _ => some ⟨3, 1⟩
  | .encLine _ => some ⟨3, 2⟩
  | .decLine _ => some ⟨3, 3⟩
  | .txStart => some ⟨0xFF, 0x3F⟩
  | .txSyncAck => some ⟨0xFF, 0x53⟩
  | .txAckVal => some ⟨0xFF, 0x30⟩
  | .txVersion => some ⟨0xFF, 0x4A⟩
  | .txUnlock => some ⟨0xFF, 0x55⟩
  | .txPrepare _ _ => some ⟨0xFF, 0x50⟩
  | .txErase _ _ => some ⟨0xFF, 0x45⟩
  | .txWriteRam1 => some ⟨0xFF, 0x57⟩
  | .txWriteRam2 => some ⟨0xFF, 0x57⟩
  | .txDataLine _ => some ⟨0, 0⟩
  | .txChecksum _ => some ⟨0, 0⟩
  | .txCopy => some ⟨0xFF, 0x43⟩
  | .execute _ _ _ _ => none
  | .parseDec _ => none
  | .encHalf _ => none
  | .sendHalf _ => none
  | .flushUnit => none

/-- A well-formed instruction is encoded with its row's select bits in the first byte, or has no encoding where its row has none. -/
def Statement (i : Instr) : Prop :=
  i.wf = true → match row i with
    | some w => ∃ r b, encode i = some r ∧ r.bytes.head? = some b ∧ b.toNat &&& w.mask = w.pattern
    | none => encode i = none

theorem openSession : Statement .openSession := fun _ => ⟨_, _, rfl, rfl, rfl⟩
theorem handshake : Statement .handshake := fun _ => ⟨_, _, rfl, rfl, rfl⟩
theorem version : Statement .version := fun _ => ⟨_, _, rfl, rfl, rfl⟩
theorem prepare : Statement .prepare := fun _ => ⟨_, _, rfl, rfl, rfl⟩
theorem write (record : Bytes) : Statement (.write record) := fun _ => ⟨_, _, rfl, rfl, rfl⟩
theorem finish : Statement .finish := fun _ => ⟨_, _, rfl, rfl, rfl⟩
theorem closeSession : Statement .closeSession := fun _ => ⟨_, _, rfl, rfl, rfl⟩
theorem start : Statement .start := fun _ => ⟨_, _, rfl, rfl, rfl⟩
theorem encGroup (b0 b1 b2 : Byte) : Statement (.encGroup b0 b1 b2) := fun _ => ⟨_, _, rfl, rfl, rfl⟩
theorem decGroup (c0 c1 c2 c3 : Byte) : Statement (.decGroup c0 c1 c2 c3) := fun _ => ⟨_, _, rfl, rfl, rfl⟩
theorem encLine (raw : Bytes) : Statement (.encLine raw) := fun _ => ⟨_, _, rfl, rfl, rfl⟩
theorem decLine (line : Bytes) : Statement (.decLine line) := fun _ => ⟨_, _, rfl, rfl, rfl⟩
theorem txStart : Statement .txStart := fun _ => ⟨_, _, rfl, rfl, rfl⟩
theorem txSyncAck : Statement .txSyncAck := fun _ => ⟨_, _, rfl, rfl, rfl⟩
theorem txAckVal : Statement .txAckVal := fun _ => ⟨_, _, rfl, rfl, rfl⟩
theorem txVersion : Statement .txVersion := fun _ => ⟨_, _, rfl, rfl, rfl⟩
theorem txUnlock : Statement .txUnlock := fun _ => ⟨_, _, rfl, rfl, rfl⟩
theorem txPrepare (first last : Nat) : Statement (.txPrepare first last) := fun _ => ⟨_, _, rfl, rfl, rfl⟩
theorem txErase (first last : Nat) : Statement (.txErase first last) := fun _ => ⟨_, _, rfl, rfl, rfl⟩
theorem txWriteRam1 : Statement .txWriteRam1 := fun _ => ⟨_, _, rfl, rfl, rfl⟩
theorem txWriteRam2 : Statement .txWriteRam2 := fun _ => ⟨_, _, rfl, rfl, rfl⟩
theorem txDataLine (line : Bytes) : Statement (.txDataLine line) := by
  intro h
  cases line with
  | nil => simp [Instr.wf, isDataLine] at h
  | cons b rest => exact ⟨_, b, rfl, rfl, Nat.and_zero _⟩
theorem txChecksum (sum : BitVec 32) : Statement (.txChecksum sum) := by
  intro _
  obtain ⟨digits, he, hne, -⟩ := decAux_spec (sum.toNat.log2 + 1) sum.toNat [] Nat.lt_log2_self (Nat.succ_pos _)
  rw [List.append_nil] at he
  have hd : textChecksum sum = digits := he
  cases digits with
  | nil => exact absurd rfl hne
  | cons b rest => exact ⟨_, b, rfl, by rw [hd]; rfl, Nat.and_zero _⟩
theorem txCopy : Statement .txCopy := fun _ => ⟨_, _, rfl, rfl, rfl⟩
theorem execute (text : Bytes) (term : Bool) (shape : Shape) (why : Reason) : Statement (.execute text term shape why) := fun _ => rfl
theorem parseDec (field : Bytes) : Statement (.parseDec field) := fun _ => rfl
theorem encHalf (half : Bytes) : Statement (.encHalf half) := fun _ => rfl
theorem sendHalf (h : Half) : Statement (.sendHalf h) := fun _ => rfl
theorem flushUnit : Statement .flushUnit := fun _ => rfl

end Sys2Proof.Laws.FirstByte
end

