-- ==== Sys2Proof/Tests/Slice0.lean ====
section
/-! SUPPORT. Tests. Expected values are taken from the spec (the number of a vector of 95_test_vectors.md stands beside each), and for every statement that
has hypotheses a theorem `witness_...` shows a state and operands that meet them together. -/

namespace Sys2Proof.Tests

open Sys2Proof.Machine

/-! ### Helpers -/

/-- A session right after OPEN. -/
def session : State := { State.reset with valid := true }
/-- A separator of the default length. -/
def sep : Bytes := [0x0D#8, 0x0A#8]
/-- The state a step answers, if it answers one. -/
def nextOf : Host.Outcome State Fault Refusal → Option State
  | .next s => some s
  | .fault _ => none
  | .refused _ => none
/-- The result on the port after an instruction. -/
def outOf (i : Instr) (s : State) : Option Output := (nextOf (exec i s)).bind State.out
/-- `s` with an answer to receive. -/
def answered (s : State) (b : Bytes) : State := { s with rx := feed b [] }
/-- `U 23130` -/
def uText : Bytes := [0x55#8, 0x20#8, 0x32#8, 0x33#8, 0x31#8, 0x33#8, 0x30#8]
/-- `W 268436480 512` -/
def w2Text : Bytes :=
  [0x57#8, 0x20#8, 0x32#8, 0x36#8, 0x38#8, 0x34#8, 0x33#8, 0x36#8, 0x34#8, 0x38#8, 0x30#8, 0x20#8, 0x35#8, 0x31#8, 0x32#8]
/-- `C 0 268435968 1024` -/
def cText : Bytes :=
  [0x43#8, 0x20#8, 0x30#8, 0x20#8, 0x32#8, 0x36#8, 0x38#8, 0x34#8, 0x33#8, 0x35#8, 0x39#8, 0x36#8, 0x38#8, 0x20#8, 0x31#8, 0x30#8,
    0x32#8, 0x34#8]

/-! ### WellFormed refuses an ill-formed term of each check -/

theorem test_wf_encLine_empty : (Instr.encLine []).wf = false := by decide
theorem test_wf_encLine_46 : (Instr.encLine (List.replicate 46 0#8)).wf = false := by decide
theorem test_wf_sector_30 : (Instr.txPrepare 0 30).wf = false ∧ (Instr.txErase 30 0).wf = false := by decide
theorem test_wf_dataLine_length_byte : (Instr.txDataLine [0x4E#8]).wf = false ∧ (Instr.txDataLine [0x20#8]).wf = false := by decide
theorem test_wf_dataLine_body_length : (Instr.txDataLine [0x23#8, 0x30#8, 0x56#8, 0x25#8]).wf = false := by decide
theorem test_wf_dataLine_space : (Instr.txDataLine [0x23#8, 0x30#8, 0x20#8, 0x25#8, 0x54#8]).wf = false := by decide
theorem test_wf_execute_empty_text : (Instr.execute [] true .echo .transactionMismatch).wf = false := by decide
theorem test_wf_execute_empty_literal : (Instr.execute [0x3F#8] false (.literal []) .handshakeFailure).wf = false := by decide
theorem test_wf_execute_reason : (Instr.execute [0x3F#8] false .echo .badRecord).wf = false := by decide
theorem test_wf_parseDec_length : (Instr.parseDec (List.replicate 9 0x30#8)).wf = false := by decide
theorem test_wf_encHalf_length : (Instr.encHalf [0#8]).wf = false := by decide
theorem test_wf_accepts : (Instr.txDataLine [0x23#8, 0x30#8, 0x56#8, 0x25#8, 0x54#8]).wf = true ∧ (Instr.txPrepare 0 29).wf = true := by decide

/-! ### Words written out from 30_encoding.md -/

theorem test_decode_open : decode ⟨.hostOp, [0x00#8]⟩ = .ok .openSession := rfl
theorem test_decode_handshake : decode ⟨.hostOp, [0x01#8]⟩ = .ok .handshake := rfl
theorem test_decode_version : decode ⟨.hostOp, [0x02#8]⟩ = .ok .version := rfl
theorem test_decode_prepare : decode ⟨.hostOp, [0x03#8]⟩ = .ok .prepare := rfl
theorem test_decode_write : decode ⟨.hostOp, [0x04#8, 0xDE#8, 0xAD#8]⟩ = .ok (.write [0xDE#8, 0xAD#8]) := rfl
theorem test_decode_finish : decode ⟨.hostOp, [0x05#8]⟩ = .ok .finish := rfl
theorem test_decode_close : decode ⟨.hostOp, [0x06#8]⟩ = .ok .closeSession := rfl
theorem test_decode_start : decode ⟨.hostOp, [0x07#8]⟩ = .ok .start := rfl
theorem test_decode_op_8 : decode ⟨.hostOp, [0x08#8]⟩ = .error .noSuchOperation := rfl
theorem test_decode_open_operand : decode ⟨.hostOp, [0x00#8, 0x00#8]⟩ = .error .wrongOperandLength := rfl
theorem test_decode_encGroup : decode ⟨.transcoder, [0x00#8, 0x43#8, 0x61#8, 0x74#8]⟩ = .ok (.encGroup 0x43#8 0x61#8 0x74#8) := rfl
theorem test_decode_decGroup :
    decode ⟨.transcoder, [0x01#8, 0x30#8, 0x56#8, 0x25#8, 0x54#8]⟩ = .ok (.decGroup 0x30#8 0x56#8 0x25#8 0x54#8) := rfl
theorem test_decode_encLine : decode ⟨.transcoder, [0x02#8, 0x41#8, 0x42#8]⟩ = .ok (.encLine [0x41#8, 0x42#8]) := rfl
theorem test_decode_encLine_empty : decode ⟨.transcoder, [0x02#8]⟩ = .error .encLineDomain := rfl
theorem test_decode_decLine : decode ⟨.transcoder, [0x03#8, 0x20#8]⟩ = .ok (.decLine [0x20#8]) := rfl
theorem test_decode_txStart : decode ⟨.letterLine, [0x3F#8]⟩ = .ok .txStart := rfl
theorem test_decode_txSyncAck :
    decode ⟨.letterLine, [0x53#8, 0x79#8, 0x6E#8, 0x63#8, 0x68#8, 0x72#8, 0x6F#8, 0x6E#8, 0x69#8, 0x7A#8, 0x65#8, 0x64#8]⟩
      = .ok .txSyncAck := rfl
theorem test_decode_txAckVal : decode ⟨.letterLine, [0x30#8]⟩ = .ok .txAckVal := rfl
theorem test_decode_txVersion : decode ⟨.letterLine, [0x4A#8]⟩ = .ok .txVersion := rfl
theorem test_decode_txUnlock : decode ⟨.letterLine, uText⟩ = .ok .txUnlock := rfl
theorem test_decode_txPrepare : decode ⟨.letterLine, [0x50#8, 0x20#8, 0x30#8, 0x20#8, 0x32#8, 0x39#8]⟩ = .ok (.txPrepare 0 29) := rfl
theorem test_decode_txErase : decode ⟨.letterLine, [0x45#8, 0x20#8, 0x30#8, 0x20#8, 0x32#8, 0x39#8]⟩ = .ok (.txErase 0 29) := rfl
theorem test_decode_sector_30 :
    decode ⟨.letterLine, [0x50#8, 0x20#8, 0x30#8, 0x20#8, 0x33#8, 0x30#8]⟩ = .error .sectorOutOfRange := rfl
theorem test_decode_leading_zero :
    decode ⟨.letterLine, [0x50#8, 0x20#8, 0x30#8, 0x30#8, 0x20#8, 0x32#8, 0x39#8]⟩ = .error .noSuchLine := rfl
theorem test_decode_txWriteRam1 :
    decode ⟨.letterLine, [0x57#8, 0x20#8, 0x32#8, 0x36#8, 0x38#8, 0x34#8, 0x33#8, 0x35#8, 0x39#8, 0x36#8, 0x38#8, 0x20#8, 0x35#8, 0x31#8,
      0x32#8]⟩ = .ok .txWriteRam1 := rfl
theorem test_decode_txWriteRam2 : decode ⟨.letterLine, w2Text⟩ = .ok .txWriteRam2 := rfl
theorem test_decode_txCopy : decode ⟨.letterLine, [0x43#8]⟩ = .ok .txCopy := rfl
theorem test_decode_txDataLine :
    decode ⟨.dataLine, [0x23#8, 0x30#8, 0x56#8, 0x25#8, 0x54#8]⟩ = .ok (.txDataLine [0x23#8, 0x30#8, 0x56#8, 0x25#8, 0x54#8]) := rfl
theorem test_decode_txChecksum :
    decode ⟨.checksumLine, [0x31#8, 0x33#8, 0x30#8, 0x35#8, 0x36#8, 0x30#8]⟩ = .ok (.txChecksum 130560#32) := rfl
theorem test_decode_bad_checksum : decode ⟨.checksumLine, [0x30#8, 0x31#8]⟩ = .error .malformedChecksum := rfl
theorem test_tableWord_hostOps :
    ((List.range 8).map (decodeTableWord 8)) =
      [some .openSession, some .handshake, some .version, some .prepare, some (.write (List.replicate 8 0#8)), some .finish,
        some .closeSession, some .start] := rfl
theorem test_tableWord_lines :
    ([0x3F, 0x53, 0x30, 0x4A, 0x55, 0x50, 0x45, 0x57, 0x43].map (decodeTableWord 8)) =
      [some .txStart, some .txSyncAck, some .txAckVal, some .txVersion, some .txUnlock, some (.txPrepare 0 29), some (.txErase 0 29),
        some .txWriteRam1, some .txCopy] := rfl
theorem test_tableWord_functions :
    ((List.range 4).map (decodeTableWord 2)) =
      [some (.encGroup 0#8 0#8 0#8), some (.decGroup 0#8 0#8 0#8 0#8), some (.encLine [0#8]), some (.decLine [0#8])] := rfl

/-! ### Reset and steps -/

/-- V78 and P1: from reset, OPEN gives a session. -/
theorem test_step_open_word : (nextOf (step (State.reset.withFetchWord 8 0x00))).map statusPorts = some (true, 0#2, 0, 0) := by decide
/-- Without a request the block is idle (R210). -/
theorem test_step_idle : step State.reset = .next State.reset := rfl
/-- V77: HANDSHAKE right after reset. -/
theorem test_step_no_session :
    (nextOf (step (State.reset.withFetchWord 8 0x01))).bind State.out = some (.rejected .noSession) := by decide
theorem test_step_undecodable :
    step { State.reset with program := [⟨.hostOp, [0xFF#8]⟩] } = .refused (.undecodable .noSuchOperation) := rfl

/-! ### Transcoder -/

/-- V1 and V9. -/
theorem test_encGroup :
    outOf (.encGroup 0x43#8 0x61#8 0x74#8) State.reset = some (.bytes [0x30#8, 0x56#8, 0x25#8, 0x54#8])
      ∧ outOf (.encGroup 0xDE#8 0xAD#8 0xBE#8) State.reset = some (.bytes [0x57#8, 0x4A#8, 0x56#8, 0x5E#8]) := by decide
/-- V5, V6, V7, V4: each six-bit value alone. -/
theorem test_encGroup_each_value :
    outOf (.encGroup 0x04#8 0#8 0#8) State.reset = some (.bytes [0x21#8, 0x60#8, 0x60#8, 0x60#8])
      ∧ outOf (.encGroup 0#8 0x10#8 0#8) State.reset = some (.bytes [0x60#8, 0x21#8, 0x60#8, 0x60#8])
      ∧ outOf (.encGroup 0#8 0#8 0x40#8) State.reset = some (.bytes [0x60#8, 0x60#8, 0x21#8, 0x60#8])
      ∧ outOf (.encGroup 0#8 0#8 0x01#8) State.reset = some (.bytes [0x60#8, 0x60#8, 0x60#8, 0x21#8]) := by decide
/-- V19 and V15. -/
theorem test_decGroup :
    outOf (.decGroup 0x21#8 0x21#8 0x21#8 0x21#8) State.reset = some (.bytes [0x04#8, 0x10#8, 0x41#8])
      ∧ outOf (.decGroup 0x60#8 0x60#8 0x60#8 0x60#8) State.reset = some (.bytes [0#8, 0#8, 0#8]) := by decide
/-- V14, V16, V17. -/
theorem test_decGroup_invalid :
    outOf (.decGroup 0x20#8 0x20#8 0x20#8 0x20#8) State.reset = some .invalid
      ∧ outOf (.decGroup 0x30#8 0x56#8 0x25#8 0x61#8) State.reset = some .invalid
      ∧ outOf (.decGroup 0x30#8 0x56#8 0x25#8 0x1F#8) State.reset = some .invalid := by decide
/-- V24 and V26. -/
theorem test_encLine :
    outOf (.encLine [0xFF#8, 0xFF#8]) State.reset = some (.bytes [0x22#8, 0x5F#8, 0x5F#8, 0x5C#8, 0x60#8])
      ∧ outOf (.encLine [0x43#8, 0x61#8, 0x74#8, 0x73#8]) State.reset =
        some (.bytes [0x24#8, 0x30#8, 0x56#8, 0x25#8, 0x54#8, 0x3C#8, 0x50#8, 0x60#8, 0x60#8]) := by decide
/-- V28: the seventeen-byte line. -/
theorem test_encLine_17 :
    outOf (.encLine ((List.range 17).map (BitVec.ofNat 8))) State.reset = some (.bytes
      [0x31#8, 0x60#8, 0x60#8, 0x24#8, 0x22#8, 0x60#8, 0x50#8, 0x30#8, 0x25#8, 0x21#8, 0x40#8, 0x3C#8, 0x28#8, 0x22#8, 0x30#8, 0x48#8, 0x2B#8,
        0x23#8, 0x60#8, 0x54#8, 0x2E#8, 0x23#8, 0x51#8, 0x60#8, 0x60#8]) := by decide
/-- V30 and V31. -/
theorem test_decLine :
    outOf (.decLine [0x22#8, 0x30#8, 0x34#8, 0x28#8, 0x60#8]) State.reset = some (.bytes [0x41#8, 0x42#8])
      ∧ outOf (.decLine [0x22#8, 0x30#8, 0x34#8, 0x28#8, 0x5F#8]) State.reset = some (.bytes [0x41#8, 0x42#8]) := by decide
/-- V32, V34, V35, V36. -/
theorem test_decLine_invalid :
    outOf (.decLine [0x20#8]) State.reset = some .invalid
      ∧ outOf (.decLine [0x23#8, 0x30#8, 0x56#8, 0x25#8]) State.reset = some .invalid
      ∧ outOf (.decLine [0x23#8, 0x30#8, 0x56#8, 0x25#8, 0x54#8, 0x60#8, 0x60#8, 0x60#8, 0x60#8]) State.reset = some .invalid
      ∧ outOf (.decLine [0x23#8, 0x30#8, 0x20#8, 0x25#8, 0x54#8]) State.reset = some .invalid := by decide
/-- R87's example: the last line of a half of 0xFF bytes (line 14 of P2). -/
theorem test_encHalf_last_line :
    (halfEncode (List.replicate 512 0xFF#8))[11]? = some
      [0x31#8, 0x5F#8, 0x5F#8, 0x5F#8, 0x5F#8, 0x5F#8, 0x5F#8, 0x5F#8, 0x5F#8, 0x5F#8, 0x5F#8, 0x5F#8, 0x5F#8, 0x5F#8, 0x5F#8, 0x5F#8, 0x5F#8,
        0x5F#8, 0x5F#8, 0x5F#8, 0x5F#8, 0x5F#8, 0x5F#8, 0x5C#8, 0x60#8] := by
  have h : ∀ half : Bytes, (halfEncode half)[11]? = some (lineEncode ((half.drop 495).take 17)) := fun half => by simp [halfEncode]
  rw [h, List.drop_replicate, List.take_replicate]
  decide
/-- V82 and V83. -/
theorem test_parseDec :
    outOf (.parseDec [0x20#8, 0x20#8, 0x31#8, 0x32#8, 0x20#8, 0x33#8, 0x34#8, 0x20#8, 0x20#8, 0x20#8]) State.reset = some (.number 1234)
      ∧ outOf (.parseDec [0x34#8, 0x32#8, 0x39#8, 0x34#8, 0x39#8, 0x36#8, 0x37#8, 0x32#8, 0x39#8, 0x36#8]) State.reset =
        some (.number 4294967296) := by decide
/-- The decimal texts listed under 2.2. -/
theorem test_dec :
    dec 29 = [0x32#8, 0x39#8] ∧ dec 43008 = [0x34#8, 0x33#8, 0x30#8, 0x30#8, 0x38#8]
      ∧ dec 130560 = [0x31#8, 0x33#8, 0x30#8, 0x35#8, 0x36#8, 0x30#8] := by decide

/-! ### Transactions -/

/-- V40 and V41. -/
theorem test_txStart :
    outOf .txStart (answered session syncString) = some .accepted
      ∧ outOf .txStart (answered session (0x73#8 :: syncString.drop 1)) = some (.rejected .handshakeFailure) := by decide
/-- V40: the start token goes out without terminator and twelve bytes are asked for. -/
theorem test_txStart_trace :
    (nextOf (exec .txStart (answered session syncString))).map State.trace =
      some [.send [0x3F#8], .recv 12 (some syncString)] := by decide
/-- V48 and V50. -/
theorem test_txSyncAck :
    outOf .txSyncAck (answered session (syncString ++ sep ++ [0x4F#8, 0x4B#8])) = some .accepted
      ∧ outOf .txSyncAck (answered session (syncString ++ sep ++ [0x30#8, 0x0D#8])) = some (.rejected .handshakeFailure) := by decide
/-- V51. -/
theorem test_txAckVal : outOf .txAckVal (answered session ([0x30#8] ++ sep ++ [0x4F#8, 0x4B#8])) = some .accepted := by decide
/-- V52. -/
theorem test_txVersion :
    outOf .txVersion (answered session ([0x4A#8] ++ sep ++ [0x30#8] ++ sep ++ List.replicate 9 0x30#8 ++ [0x31#8])) =
      some (.acceptedField (List.replicate 9 0x30#8 ++ [0x31#8])) := by decide
/-- V53. -/
theorem test_txVersion_token :
    outOf .txVersion (answered session ([0x4A#8] ++ sep ++ [0x31#8] ++ sep ++ List.replicate 10 0x30#8)) =
      some (.rejected .transactionMismatch) := by decide
/-- V44, V45, V46. -/
theorem test_txUnlock :
    outOf .txUnlock (answered session (uText ++ [0x58#8, 0x59#8, 0x30#8])) = some .accepted
      ∧ outOf .txUnlock (answered session (uText ++ sep ++ [0x31#8])) = some (.rejected .unlockRejected)
      ∧ outOf .txUnlock (answered session (uText.take 6 ++ [0x31#8] ++ sep ++ [0x30#8])) = some (.rejected .unlockRejected) := by decide
/-- V47: a timeout replaces the reason, nothing is resent. -/
theorem test_txUnlock_timeout :
    (nextOf (exec .txUnlock { session with rx := [.gap] })).map (fun t => (t.out, t.trace)) =
      some (some (.rejected .transportTimeout), [.send (uText ++ sep), .recv 10 none]) := by decide
/-- V87, second and third line. -/
theorem test_txPrepare_txErase :
    (nextOf (exec (.txPrepare 0 29) (answered session ([0x50#8, 0x20#8, 0x30#8, 0x20#8, 0x32#8, 0x39#8] ++ sep ++ [0x30#8])))).map
        (fun t => (t.out, t.rx)) = some (some .accepted, [])
      ∧ outOf (.txErase 0 29) (answered session ([0x45#8, 0x20#8, 0x30#8, 0x20#8, 0x32#8, 0x39#8] ++ sep ++ [0x31#8])) =
        some (.rejected .eraseRejected) := by decide
/-- V61. -/
theorem test_txWriteRam2_echo :
    outOf .txWriteRam2 (answered session (lineWriteRam1.text ++ sep ++ [0x30#8])) = some (.rejected .ramWriteRejected) := by decide
theorem test_txWriteRam2 : outOf .txWriteRam2 (answered session (w2Text ++ sep ++ [0x30#8])) = some .accepted := by decide
/-- The first RAM line's text and its answer length (R55 row 8). -/
theorem test_txWriteRam1 :
    (nextOf (exec .txWriteRam1 { session with rx := [.gap] })).map State.trace =
      some [.send (lineWriteRam1.text ++ sep), .recv 18 none] := by decide
/-- V54 and V55. -/
theorem test_txDataLine :
    outOf (.txDataLine [0x23#8, 0x30#8, 0x56#8, 0x25#8, 0x54#8]) (answered session [0x23#8, 0x30#8, 0x56#8, 0x25#8, 0x54#8]) = some .accepted
      ∧ outOf (.txDataLine [0x23#8, 0x30#8, 0x56#8, 0x25#8, 0x54#8]) (answered session [0x23#8, 0x30#8, 0x56#8, 0x25#8, 0x55#8]) =
        some (.rejected .transactionMismatch) := by decide
/-- V57 and V58. -/
theorem test_txChecksum :
    outOf (.txChecksum 130560#32) (answered session ([0x31#8, 0x33#8, 0x30#8, 0x35#8, 0x36#8, 0x30#8] ++ sep ++ [0x45#8, 0x52#8])) =
        some (.rejected .checksumRejected)
      ∧ outOf (.txChecksum 0#32) (answered session ([0x30#8] ++ sep ++ [0x4F#8, 0x4B#8])) = some .accepted := by decide
/-- V60: the cursor is in the text and is not advanced. -/
theorem test_txCopy :
    (nextOf (exec .txCopy (answered session (cText ++ sep ++ [0x30#8])))).map (fun t => (t.out, t.trace, t.cursor)) =
      some (some .accepted, [.send (cText ++ sep), .recv 21 (some (cText ++ sep ++ [0x30#8]))], 0) := by decide
/-- R106: the field is handed back uncompared, with the lengths of another SEP_LEN. -/
theorem test_execute_field :
    outOf (.execute [0x4A#8] true (.echoStatusField .data 2) .transactionMismatch)
      { session with
        cfg := { Config.default with sepLen := 1 }
        rx := feed [0x4A#8, 0x20#8, 0x4F#8, 0x4B#8, 0x20#8, 0x37#8, 0x38#8] [] } = some (.acceptedField [0x37#8, 0x38#8]) := by decide

/-! ### Host operations -/

/-- The answers of a cooperative target to START's seven lines, the version field being `0000000123` (P1). -/
def startAnswers : Bytes :=
  syncString ++ (syncString ++ sep ++ [0x4F#8, 0x4B#8]) ++ ([0x30#8] ++ sep ++ [0x4F#8, 0x4B#8])
    ++ ([0x4A#8] ++ sep ++ [0x30#8] ++ sep ++ List.replicate 7 0x30#8 ++ [0x31#8, 0x32#8, 0x33#8]) ++ (uText ++ sep ++ [0x30#8])
    ++ ([0x50#8, 0x20#8, 0x30#8, 0x20#8, 0x32#8, 0x39#8] ++ sep ++ [0x30#8])
    ++ ([0x45#8, 0x20#8, 0x30#8, 0x20#8, 0x32#8, 0x39#8] ++ sep ++ [0x30#8])

/-- P1: result, registers, and the 46 bytes sent. -/
theorem test_start :
    (nextOf (exec .start (answered State.reset startAnswers))).map (fun t => (t.out, statusPorts t, t.rx, transmitted t.trace)) =
      some (some (.acceptedVersion 123), (true, 3#2, 0, 0), [],
        [0x3F#8, 0x53#8, 0x79#8, 0x6E#8, 0x63#8, 0x68#8, 0x72#8, 0x6F#8, 0x6E#8, 0x69#8, 0x7A#8, 0x65#8, 0x64#8, 0x0D#8, 0x0A#8, 0x30#8, 0x0D#8,
          0x0A#8, 0x4A#8, 0x0D#8, 0x0A#8, 0x55#8, 0x20#8, 0x32#8, 0x33#8, 0x31#8, 0x33#8, 0x30#8, 0x0D#8, 0x0A#8, 0x50#8, 0x20#8, 0x30#8, 0x20#8,
          0x32#8, 0x39#8, 0x0D#8, 0x0A#8, 0x45#8, 0x20#8, 0x30#8, 0x20#8, 0x32#8, 0x39#8, 0x0D#8, 0x0A#8]) := rfl
/-- P5: the corrupted sync echo, in START. -/
theorem test_start_corrupted_echo :
    (nextOf (exec .start (answered State.reset (syncString ++ (syncString.take 11 ++ [0x73#8] ++ sep ++ [0x4F#8, 0x4B#8]))))).map
      (fun t => (t.out, statusPorts t)) = some (some (.rejected .handshakeFailure), (true, 1#2, 0, 0)) := by decide
/-- V72 and V73. -/
theorem test_handshake_partial :
    (nextOf (exec .handshake { session with rx := feed syncString [.gap] })).map (fun t => (t.out, t.hs)) =
        some (some (.rejected .transportTimeout), .syn)
      ∧ (nextOf (exec .handshake (answered session
          (syncString ++ (syncString ++ sep ++ [0x4F#8, 0x4B#8]) ++ ([0x30#8] ++ sep ++ [0x4E#8, 0x4F#8]))))).map (fun t => (t.out, t.hs)) =
        some (some (.rejected .handshakeFailure), .ack) := by decide
/-- V75 and V76. -/
theorem test_handshake_resumes :
    (nextOf (exec .handshake (answered { session with hs := .ack } ([0x30#8] ++ sep ++ [0x4F#8, 0x4B#8])))).map
        (fun t => (t.out, t.hs, transmitted t.trace)) = some (some .accepted, .successful, [0x30#8, 0x0D#8, 0x0A#8])
      ∧ exec .handshake { session with hs := .successful } = .next { session with hs := .successful, out := some .accepted } := ⟨rfl, rfl⟩
/-- V81 and V85. -/
theorem test_version :
    outOf .version (answered session ([0x4A#8] ++ sep ++ [0x30#8] ++ sep ++ List.replicate 10 0x20#8)) = some (.rejected .versionUnsupported)
      ∧ outOf .version (answered session ([0x4A#8] ++ sep ++ [0x31#8] ++ sep ++ List.replicate 10 0x31#8)) =
        some (.rejected .transactionMismatch) := by decide
/-- V89: only two lines are sent. -/
theorem test_prepare_second :
    (nextOf (exec .prepare (answered session
      (uText ++ sep ++ [0x30#8] ++ ([0x50#8, 0x20#8, 0x30#8, 0x20#8, 0x32#8, 0x39#8] ++ sep ++ [0x31#8]))))).map
      (fun t => (t.out, receives t.trace)) = some (some (.rejected .sectorPrepareRejected), 2) := by decide
/-- V92. -/
theorem test_close : (nextOf (exec .closeSession { session with fill := 8 })).map statusPorts = some (false, 0#2, 8, 0) := by decide
/-- V78. -/
theorem test_open :
    (nextOf (exec .openSession { session with hs := .ack, fill := 4, cursor := 1024, sb := [(0, 0x01#8)] })).map
      (fun t => (statusPorts t, t.sb)) = some ((true, 0#2, 0, 0), []) := by decide
/-- R152's example (P2): the words reversed, no transmit. -/
theorem test_write_accumulates :
    (nextOf (exec (.write [0#8, 0#8, 0#8, 0#8, 0#8, 0#8, 0#8, 8#8, 1#8, 2#8, 3#8, 4#8, 5#8, 6#8, 7#8, 8#8]) session)).map
      (fun t => (t.out, t.fill, Memory.readBytes t.sb 0 9, t.trace)) =
      some (some .accepted, 8, [4#8, 3#8, 2#8, 1#8, 8#8, 7#8, 6#8, 5#8, 0xFF#8], []) := by decide
/-- V110, V111, V112, V115. -/
theorem test_write_refused :
    outOf (.write [0#8, 0#8, 0#8, 0#8, 0#8, 0#8, 0#8, 3#8, 1#8, 2#8, 3#8]) session = some (.rejected .badRecord)
      ∧ outOf (.write [0#8, 0#8, 0#8, 0#8, 0#8, 0#8, 0#8, 4#8, 1#8, 2#8]) session = some (.rejected .badRecord)
      ∧ outOf (.write [0#8, 0#8, 0#8]) session = some (.rejected .badRecord)
      ∧ outOf (.write [0#8, 0#8, 0#8, 0#8, 0#8, 0#8, 0#8, 4#8, 1#8, 2#8, 3#8, 4#8]) { session with fill := 1020, cursor := 44032 } =
        some (.rejected .rangeExceeded) := by decide
/-- R38: each byte of the size field counts (`08 00 00 00` is 134217728, 95_test_vectors.md); none of these records is one of size 0. -/
theorem test_write_size_bytes :
    outOf (.write [0#8, 0#8, 0#8, 0#8, 8#8, 0#8, 0#8, 0#8]) session = some (.rejected .badRecord)
      ∧ outOf (.write [0#8, 0#8, 0#8, 0#8, 0#8, 1#8, 0#8, 0#8]) session = some (.rejected .badRecord)
      ∧ outOf (.write [0#8, 0#8, 0#8, 0#8, 0#8, 0#8, 8#8, 0#8]) session = some (.rejected .badRecord)
      ∧ outOf (.write [0#8, 0#8, 0#8, 0#8, 0#8, 0#8, 0#8, 0#8]) session = some .accepted := by decide
/-- V129 and V131. -/
theorem test_finish :
    (nextOf (exec .finish { session with cursor := 44032 })).map (fun t => (t.out, t.valid, t.cursor)) = some (some .accepted, false, 44032)
      ∧ (nextOf (exec .finish { session with fill := 4, cursor := 44032 })).map (fun t => (t.out, t.valid)) =
        some (some (.rejected .rangeExceeded), true) := by decide
/-- V117: the first line of a flush, token `1`; the filler is back above `fill`. -/
theorem test_write_flush_refused :
    (nextOf (exec (.write [0#8, 0#8, 0#8, 0#8, 0#8, 0#8, 0#8, 8#8, 0x11#8, 0x22#8, 0x33#8, 0x44#8, 0x55#8, 0x66#8, 0x77#8, 0x88#8])
      (answered { session with fill := 1020, sb := [(0, 7#8)] } (uText ++ sep ++ [0x31#8])))).map
      (fun t => (t.out, statusPorts t, t.sb)) = some (some (.rejected .unlockRejected), (true, 0#2, 1020, 0), [(0, 7#8)]) := rfl
set_option maxRecDepth 8000 in
/-- The sums of P2. -/
theorem test_checksums :
    checksum ([4#8, 3#8, 2#8, 1#8, 8#8, 7#8, 6#8, 5#8] ++ List.replicate 504 0xFF#8) = 128556#32
      ∧ checksum (List.replicate 512 0xFF#8) = 130560#32 := by decide
/-- V118 and V119, on SEND_HALF of half 1. -/
theorem test_sendHalf :
    outOf (.sendHalf .half1) (answered session (uText ++ sep ++ [0x30#8] ++ (w2Text ++ sep ++ [0x31#8]))) = some (.rejected .ramWriteRejected) := by
  decide

/-! ### Witnesses: the hypotheses of each statement are met together -/

/-- Separators of the default length. -/
def seps : Nat → Bytes := fun _ => sep

theorem seps_length : Separators session.cfg seps := fun _ => rfl

/-- Zeros in place of an answer mismatch every line whose text does not begin with a zero byte. -/
theorem zeros_mismatch (l : CatalogueLine) (n : Nat) (d : Byte) (ht : l.text.head? = some d) (hd : d ≠ 0#8) :
    l.MismatchedBy n (List.replicate (l.answerLength n) 0#8) := by
  refine ⟨List.length_replicate, fun sep _ h => ?_⟩
  have hh := congrArg List.head? h
  obtain ⟨text, token, why⟩ := l
  cases text with
  | nil => simp at ht
  | cons c cs =>
    have hc : c = d := by simpa using ht
    subst hc
    rw [List.head?_replicate] at hh
    cases token <;> (simp only [CatalogueLine.answer, List.cons_append, List.head?_cons] at hh; split at hh <;> simp_all)

/-- The ten line rows sent with terminator and answered without a field, with boundary operands. -/
def tenLines : List (Instr × CatalogueLine) :=
  [(.txSyncAck, lineSyncAck), (.txAckVal, lineAckVal), (.txUnlock, lineUnlock), (.txPrepare 0 29, linePrepare 0 29),
    (.txErase 29 0, lineErase 29 0), (.txWriteRam1, lineWriteRam1), (.txWriteRam2, lineWriteRam2),
    (.txDataLine [0x21#8, 0x60#8, 0x60#8, 0x60#8, 0x60#8], lineData [0x21#8, 0x60#8, 0x60#8, 0x60#8, 0x60#8]),
    (.txChecksum 0#32, lineChecksum 0), (.txCopy, lineCopy 0)]

theorem witness_DecGroupGivesTheBytesOrInvalid :
    (∀ c ∈ [0x21#8, 0x60#8, 0x21#8, 0x60#8], 33 ≤ c.toNat ∧ c.toNat ≤ 96)
      ∧ ¬ (33 ≤ (0x20#8).toNat ∧ (0x20#8).toNat ≤ 96) ∧ ¬ (33 ≤ (0x61#8).toNat ∧ (0x61#8).toNat ≤ 96) := by decide

theorem witness_TranscoderIsPrintableAndReversible :
    exec (.encGroup 1#8 2#8 3#8) session = exec (.encGroup 1#8 2#8 3#8) session
      ∧ (∀ raw ∈ [[0#8], List.replicate 45 0#8], 1 ≤ raw.length ∧ raw.length ≤ 45)
      ∧ exec (.encLine [0#8]) session = exec (.encLine [0#8]) session := ⟨rfl, by decide, rfl⟩

theorem witness_ValidCharactersReencodeToThemselves :
    ∀ c ∈ [0x21#8, 0x60#8, 0x5F#8, 0x21#8], 0x21 ≤ c.toNat ∧ c.toNat ≤ 0x60 := by decide

theorem witness_EncLineGivesLengthByteAndGroups :
    ∀ raw ∈ [[0#8], List.replicate 45 0#8], 1 ≤ raw.length ∧ raw.length ≤ 45 ∧ 0 < (raw.length + 2) / 3 := by decide

theorem witness_EncLineRefusesOtherLengths :
    ([] : Bytes).length = 0 ∧ 45 < (List.replicate 46 0#8).length := by decide

theorem witness_DecLineRecoversEncLine :
    ∀ raw ∈ [[0#8], List.replicate 45 0#8], 1 ≤ raw.length ∧ raw.length ≤ 45 := by decide

/-- A line, and byte strings that are none: empty, length byte 0x20, length byte 0x4E. -/
theorem witness_DecLineAcceptsExactlyTheLines :
    (∃ (l : Byte) (body : Bytes), [0x21#8, 0x60#8, 0x60#8, 0x60#8, 0x60#8] = l :: body ∧ 0x21 ≤ l.toNat ∧ l.toNat ≤ 0x4D
      ∧ body.length = 4 * ((l.toNat - 32 + 2) / 3) ∧ ∀ c ∈ body, 0x21 ≤ c.toNat ∧ c.toNat ≤ 0x60)
    ∧ ¬ (∃ (l : Byte) (body : Bytes), ([0x20#8] : Bytes) = l :: body ∧ 0x21 ≤ l.toNat ∧ l.toNat ≤ 0x4D
      ∧ body.length = 4 * ((l.toNat - 32 + 2) / 3) ∧ ∀ c ∈ body, 0x21 ≤ c.toNat ∧ c.toNat ≤ 0x60) := by
  refine ⟨⟨0x21#8, [0x60#8, 0x60#8, 0x60#8, 0x60#8], rfl, by decide⟩, ?_⟩
  rintro ⟨l, body, h, h1, -⟩
  simp only [List.cons.injEq] at h
  rw [← h.1] at h1
  revert h1
  decide

theorem witness_EncHalfSplitsIntoTwelveLines : (List.replicate 512 0#8).length = 512 := List.length_replicate

theorem witness_ParseDecReadsTheDigitsOnly : (List.replicate 10 0x39#8).length = 10 := by decide

theorem witness_ExecuteAcceptsMatchingAnswers :
    uText ≠ [] ∧ syncString ≠ [] ∧ sep.length = session.cfg.sepLen
      ∧ (answered session syncString).rx = feed syncString [] ∧ (answered session uText).rx = feed uText []
      ∧ (answered session (uText ++ sep ++ tokenBytes .proto)).rx = feed (uText ++ sep ++ tokenBytes .proto) []
      ∧ (answered session (uText ++ sep ++ tokenBytes .proto ++ sep ++ [])).rx = feed (uText ++ sep ++ tokenBytes .proto ++ sep ++ []) [] :=
  ⟨by decide, by decide, rfl, rfl, rfl, rfl, rfl⟩

/-- One answer of zeros for each shape, of that shape's length, that matches nothing. -/
theorem witness_ExecuteRejectsMismatchingAnswers :
    (List.replicate 12 0#8).length = syncString.length ∧ List.replicate 12 0#8 ≠ syncString
      ∧ (List.replicate 7 0#8).length = uText.length ∧ List.replicate 7 0#8 ≠ uText
      ∧ ((List.replicate 10 0#8).length = uText.length + session.cfg.sepLen + (tokenBytes .proto).length
        ∧ ∀ sep : Bytes, sep.length = session.cfg.sepLen → List.replicate 10 0#8 ≠ uText ++ sep ++ tokenBytes .proto)
      ∧ ((List.replicate 12 0#8).length = uText.length + session.cfg.sepLen + (tokenBytes .proto).length + session.cfg.sepLen + 0
        ∧ ∀ sep sep' field : Bytes, sep.length = session.cfg.sepLen → sep'.length = session.cfg.sepLen → field.length = 0 →
          List.replicate 12 0#8 ≠ uText ++ sep ++ tokenBytes .proto ++ sep' ++ field) := by
  refine ⟨rfl, by decide, rfl, by decide, ⟨rfl, fun sep _ h => ?_⟩, rfl, fun sep sep' field _ _ _ h => ?_⟩ <;>
    exact absurd (congrArg List.head? h) (by simp [uText, List.replicate])

theorem witness_TransactionsCompleteOnAMatch :
    sep.length = session.cfg.sepLen ∧ ∀ p ∈ tenLines, (answered session (p.2.answer sep)).rx = feed (p.2.answer sep) [] :=
  ⟨rfl, fun _ _ => rfl⟩

theorem witness_TransactionsRejectOnAMismatch :
    ∀ p ∈ tenLines, p.2.MismatchedBy session.cfg.sepLen (List.replicate (p.2.answerLength session.cfg.sepLen) 0#8)
      ∧ (answered session (List.replicate (p.2.answerLength session.cfg.sepLen) 0#8)).rx =
        feed (List.replicate (p.2.answerLength session.cfg.sepLen) 0#8) [] := by
  have h : ∀ p ∈ tenLines, ∃ d, p.2.text.head? = some d ∧ d ≠ 0#8 := by
    intro p hp
    simp only [tenLines, List.mem_cons, List.not_mem_nil, or_false] at hp
    rcases hp with rfl | rfl | rfl | rfl | rfl | rfl | rfl | rfl | rfl | rfl <;> exact ⟨_, rfl, by decide⟩
  intro p hp
  obtain ⟨d, h1, h2⟩ := h p hp
  exact ⟨zeros_mismatch _ _ d h1 h2, rfl⟩

theorem witness_StartAndVersionTransactionsComplete :
    sep.length = session.cfg.sepLen ∧ (List.replicate 10 0x30#8).length = 10 ∧ (answered session syncString).rx = feed syncString []
      ∧ (answered session ([0x4A#8] ++ sep ++ [0x30#8] ++ sep ++ List.replicate 10 0x30#8)).rx =
        feed ([0x4A#8] ++ sep ++ [0x30#8] ++ sep ++ List.replicate 10 0x30#8) [] := ⟨rfl, rfl, rfl, rfl⟩

/-- A gap after nothing, a gap after one byte too few, and the end of the stream under a bound. -/
theorem witness_TimeoutRejectsAnyTransaction :
    (([] : Bytes).length < shapeLength .echo uText session.cfg.sepLen ∧ ({ session with rx := [.gap] } : State).rx = feed [] (.gap :: []))
      ∧ ((uText.take 6).length < shapeLength .echo uText session.cfg.sepLen
        ∧ ({ session with rx := feed (uText.take 6) [.gap] } : State).rx = feed (uText.take 6) (.gap :: []))
      ∧ (session.rx = feed [] [] ∧ session.cfg.rxTimeoutSet = true) :=
  ⟨⟨by decide, rfl⟩, ⟨by decide, rfl⟩, rfl, rfl⟩

/-- A session with no receive bound. -/
def unbounded : State := { session with cfg := { Config.default with rxTimeoutSet := false } }

theorem witness_SilenceWithoutABoundHangs :
    unbounded.cfg.rxTimeoutSet = false ∧ unbounded.rx = feed [] [] ∧ ([] : Bytes).length < shapeLength .echo uText unbounded.cfg.sepLen :=
  ⟨rfl, rfl, by decide⟩

theorem witness_EveryInstructionAnswersUnderABound :
    session.cfg.rxTimeoutSet = true ∧ ∀ raw, Instr.finish = .encLine raw → 1 ≤ raw.length ∧ raw.length ≤ 45 :=
  ⟨rfl, fun _ h => by cases h⟩

theorem witness_HandshakeTransitions :
    session.valid = true ∧ sep.length = session.cfg.sepLen
      ∧ (session.hs = .start ∧ (answered session syncString).rx = feed syncString []
        ∧ ((List.replicate 12 0#8).length = 12 ∧ List.replicate 12 0#8 ≠ syncString) ∧ (List.replicate 11 0#8).length < 12)
      ∧ (∀ p ∈ [(HandshakeState.syn, HandshakeState.ack, lineSyncAck), (.ack, .successful, lineAckVal)],
        ({ session with hs := p.1 } : State).hs = p.1
          ∧ (answered { session with hs := p.1 } (p.2.2.answer sep)).rx = feed (p.2.2.answer sep) []
          ∧ p.2.2.MismatchedBy session.cfg.sepLen (List.replicate (p.2.2.answerLength session.cfg.sepLen) 0#8)
          ∧ ([] : Bytes).length < p.2.2.text.length + session.cfg.sepLen + 2)
      ∧ ({ session with hs := .successful } : State).hs = .successful := by
  refine ⟨rfl, rfl, ⟨rfl, rfl, ⟨rfl, by decide⟩, by decide⟩, fun p hp => ?_, rfl⟩
  simp only [List.mem_cons, List.not_mem_nil, or_false] at hp
  rcases hp with rfl | rfl
  · exact ⟨rfl, rfl, zeros_mismatch lineSyncAck _ _ rfl (by decide), by decide⟩
  · exact ⟨rfl, rfl, zeros_mismatch lineAckVal _ _ rfl (by decide), by decide⟩

theorem witness_HandshakeCompletesInOnePass :
    let xs := ⟨[0x3F#8], syncString⟩ :: exchangesOf session.cfg seps [lineSyncAck, lineAckVal]
    session.valid = true ∧ session.hs = .start ∧ Separators session.cfg seps
      ∧ (answered session (answersOf xs)).rx = feed (answersOf xs) [] := ⟨rfl, rfl, seps_length, rfl⟩

theorem witness_NoSessionRejectsFiveOperations : State.reset.valid = false := rfl

/-- A field of one digit 1, and fields of zeros and of no digit. -/
theorem witness_VersionStatements :
    session.valid = true ∧ sep.length = session.cfg.sepLen
      ∧ (let field := List.replicate 9 0x30#8 ++ [0x31#8]
        field.length = 10
        ∧ Nat.ofDigits 10 ((field.filter fun b => 0x30 ≤ b.toNat && b.toNat ≤ 0x39).map fun b => b.toNat - 0x30).reverse ≠ 0)
      ∧ (∀ field ∈ [List.replicate 10 0x30#8, List.replicate 10 0x20#8], field.length = 10
        ∧ ∀ b ∈ field, ¬ (0x31 ≤ b.toNat ∧ b.toNat ≤ 0x39))
      ∧ ∀ a, (answered session a).rx = feed a [] := ⟨rfl, rfl, by decide, by decide, fun _ => rfl⟩

/-- VERSION's rejecting side: the answer `J` with token `1` and a field that is not 0 (vector V85), and a gap one byte before the end. -/
theorem witness_VersionRejections :
    session.valid = true
      ∧ (let r := [0x4A#8] ++ sep ++ [0x31#8] ++ sep ++ (List.replicate 9 0x30#8 ++ [0x31#8])
        r.length = 1 + session.cfg.sepLen + 1 + session.cfg.sepLen + 10
        ∧ (∀ sep sep' field : Bytes, sep.length = session.cfg.sepLen → sep'.length = session.cfg.sepLen → field.length = 10 →
          r ≠ [0x4A#8] ++ sep ++ [0x30#8] ++ sep' ++ field)
        ∧ (answered session r).rx = feed r []
        ∧ (let part := r.take 15
          part.length < 1 + session.cfg.sepLen + 1 + session.cfg.sepLen + 10
          ∧ ({ session with rx := feed part [.gap] } : State).rx = feed part (.gap :: []))) := by
  refine ⟨rfl, rfl, fun sep' sep'' field h _ _ e => ?_, rfl, by decide, rfl⟩
  match sep', h with
  | [a, b], _ => exact absurd (congrArg (fun l => l[3]?) e) (by simp [sep])

theorem witness_PrepareRunsItsThreeLinesInOrder :
    Separators session.cfg seps ∧ State.reset.valid = false ∧ session.valid = true
      ∧ (let a := answersOf (exchangesOf session.cfg seps prepareLines)
        (answered session a).rx = feed a [])
      ∧ ∀ k l, (k, l) ∈ [(0, lineUnlock), (1, linePrepare 0 29), (2, lineErase 0 29)] → l ∈ prepareLines[k]?
        ∧ l.MismatchedBy session.cfg.sepLen (List.replicate (l.answerLength session.cfg.sepLen) 0#8)
        ∧ ([] : Bytes).length < l.answerLength session.cfg.sepLen
        ∧ ∀ a, (answered session a).rx = feed a [] ∧ ({ session with rx := feed a [.gap] } : State).rx = feed a (.gap :: []) := by
  refine ⟨seps_length, rfl, rfl, rfl, fun k l h => ?_⟩
  simp only [List.mem_cons, Prod.mk.injEq, List.not_mem_nil, or_false] at h
  rcases h with ⟨rfl, rfl⟩ | ⟨rfl, rfl⟩ | ⟨rfl, rfl⟩ <;>
    exact ⟨rfl, zeros_mismatch _ _ _ rfl (by decide), Nat.succ_pos _, fun _ => ⟨rfl, rfl⟩⟩

/-- A chain accepted to its end, one that ends in HANDSHAKE, and one that ends in VERSION. -/
theorem witness_StartIsTheFailFastChain :
    (∃ s1 s2 s3 s4, exec .openSession (answered State.reset startAnswers) = .next s1 ∧ exec .handshake s1 = .next s2 ∧ s2.out = some .accepted
      ∧ exec .version s2 = .next s3 ∧ s3.out = some (.acceptedVersion 123) ∧ exec .prepare s3 = .next s4 ∧ s4.out = some .accepted)
    ∧ (∃ s1 s2, exec .openSession State.reset = .next s1 ∧ exec .handshake s1 = .next s2 ∧ s2.out ≠ some .accepted)
    ∧ ∃ s1 s2 s3, exec .openSession (answered State.reset (startAnswers.take 33)) = .next s1 ∧ exec .handshake s1 = .next s2
      ∧ s2.out = some .accepted ∧ exec .version s2 = .next s3 ∧ ∀ v, s3.out ≠ some (.acceptedVersion v) :=
  ⟨⟨_, _, _, _, rfl, rfl, rfl, rfl, rfl, rfl, rfl⟩, ⟨_, _, rfl, rfl, by decide⟩, ⟨_, _, _, rfl, rfl, rfl, rfl, fun _ h => by cases h⟩⟩

theorem witness_StartCompletesWithSevenLines :
    let field := List.replicate 9 0x30#8 ++ [0x31#8]
    let xs := ⟨[0x3F#8], syncString⟩ :: exchangesOf State.reset.cfg seps [lineSyncAck, lineAckVal]
      ++ [⟨[0x4A#8] ++ State.reset.cfg.term, [0x4A#8] ++ sep ++ [0x30#8] ++ sep ++ field⟩] ++ exchangesOf State.reset.cfg seps prepareLines
    Separators State.reset.cfg seps ∧ sep.length = State.reset.cfg.sepLen ∧ field.length = 10
      ∧ Nat.ofDigits 10 ((field.filter fun b => 0x30 ≤ b.toNat && b.toNat ≤ 0x39).map fun b => b.toNat - 0x30).reverse ≠ 0
      ∧ (answered State.reset (answersOf xs)).rx = feed (answersOf xs) [] := ⟨seps_length, rfl, rfl, by decide, rfl⟩

/-- The invariant holds of a session with `fill` staged filler bytes. -/
theorem session_inv (fill : Nat) (h : fill < 1024) (h4 : fill % 4 = 0) : ({ session with fill := fill } : State).Inv :=
  ⟨rfl, h, h4, rfl, Nat.zero_le _, (by decide : 1 ≤ Config.default.term.length)⟩

/-- A payload of nothing on an empty buffer, and the last word that still fits. -/
theorem witness_WriteAccumulatesBelowTheThreshold :
    session.Inv ∧ ({ session with fill := 1016 } : State).Inv ∧ session.valid = true ∧ (List.replicate 4 0#8).length = 4
      ∧ (∀ p ∈ [([], 0#8, 0), ([1#8, 2#8, 3#8, 4#8], 4#8, 1016)],
        p.1.length = (((0#8).toNat * 256 + (0#8).toNat) * 256 + (0#8).toNat) * 256 + p.2.1.toNat ∧ p.1.length % 4 = 0
          ∧ p.2.2 + p.1.length < 1024) :=
  ⟨session_inv 0 (by decide) rfl, session_inv 1016 (by decide) rfl, rfl, rfl, by decide⟩

theorem witness_WriteIgnoresDestAndSurplus :
    ([0xDE#8, 0xAD#8, 0xBE#8, 0xEF#8] : Bytes).length = 4 ∧ (List.replicate 4 0#8).length = 4
      ∧ ([1#8, 2#8, 3#8, 4#8] : Bytes).length = (((0#8).toNat * 256 + (0#8).toNat) * 256 + (0#8).toNat) * 256 + (4#8).toNat := by decide

/-- A record of four bytes, and one of 1024. -/
def record4 : Bytes := [0#8, 0#8, 0#8, 0#8, 0#8, 0#8, 0#8, 4#8, 1#8, 2#8, 3#8, 4#8]
def record1024 : Bytes := [0#8, 0#8, 0#8, 0#8, 0#8, 0#8, 4#8, 0#8] ++ List.replicate 1024 0xAA#8

theorem record4_whole : WholeWords record4 ∧ declaredSize record4 = 4 := by decide
theorem record1024_size : declaredSize record1024 = 1024 := by decide
theorem record1024_whole : WholeWords record1024 :=
  ⟨by rw [record1024_size], by rw [record1024_size, record1024, List.length_append, List.length_replicate]; decide⟩

/-- `fill + size` exactly 1024, and 2044 (the largest for whole words), at the first and at the last unit of the range. -/
theorem witness_WriteFlushesOneUnitAndCarriesTheRest :
    (({ session with fill := 1020 } : State).Inv ∧ ({ session with cursor := 43008 } : State).Inv)
      ∧ session.valid = true ∧ Separators session.cfg seps ∧ (List.replicate 4 0#8).length = 4
      ∧ (∀ p ∈ [(0#8, 4#8, 4), (4#8, 0#8, 1024)],
        let size := (((0#8).toNat * 256 + (0#8).toNat) * 256 + p.1.toNat) * 256 + p.2.1.toNat
        size % 4 = 0 ∧ 1024 ≤ 1020 + size ∧ 1020 + size ≤ 2047 ∧ size ≤ (List.replicate p.2.2 0xAA#8).length)
      ∧ ({ session with cursor := 43008 } : State).cursor ≤ 43008
      ∧ ∀ a, (answered { session with fill := 1020 } a).rx = feed a [] := by
  refine ⟨⟨session_inv 1020 (by decide) rfl, ⟨rfl, by decide, rfl, rfl, by decide, by decide⟩⟩, rfl, seps_length, rfl, ?_, Nat.le_refl _, fun _ => rfl⟩
  simp only [List.length_replicate]
  decide

theorem witness_RejectedWriteLeavesTheRegisters :
    session.Inv ∧ ∃ t, exec (.write []) session = .next t ∧ t.out = some (.rejected .badRecord) :=
  ⟨session_inv 0 (by decide) rfl, _, rfl, rfl⟩

/-- One record for each of the four tests, and a size whose top byte alone is not 0. -/
theorem witness_BadRecordHasNoEffect :
    session.valid = true ∧ (List.replicate 7 0#8).length < 8 ∧ (List.replicate 4 0#8).length = 4
      ∧ ((((0#8).toNat * 256 + (0#8).toNat) * 256 + (0#8).toNat) * 256 + (3#8).toNat) % 4 ≠ 0
      ∧ 2047 < 4 + ((((0#8).toNat * 256 + (0#8).toNat) * 256 + (7#8).toNat) * 256 + (0xFC#8).toNat)
      ∧ 2047 < 0 + ((((8#8).toNat * 256 + (0#8).toNat) * 256 + (0#8).toNat) * 256 + (0#8).toNat)
      ∧ ([1#8, 2#8, 3#8] : Bytes).length < (((0#8).toNat * 256 + (0#8).toNat) * 256 + (0#8).toNat) * 256 + (4#8).toNat := by decide

theorem witness_FlushBeyondTheRangeHasNoEffect :
    let s := { session with fill := 1020, cursor := 44032 }
    s.valid = true ∧ 44032 < s.cursor + 1024 ∧ WholeWords record4 ∧ 1024 ≤ s.fill + declaredSize record4
      ∧ s.fill + declaredSize record4 ≤ 2047 ∧ s.fill ≠ 0 := by decide

theorem unitLines_last (buf : Bytes) (cursor : Nat) : (unitLines buf cursor)[32]? = some (lineCopy cursor) := by
  simp [unitLines, halfLines, halfEncode_length]

/-- The first and the last line of a flush and of a half. -/
theorem witness_FlushUnitAndSendHalf (a : Bytes) :
    Separators session.cfg seps ∧ (answered session a).rx = feed a []
      ∧ ({ session with rx := feed a [.gap] } : State).rx = feed a (.gap :: [])
      ∧ (lineUnlock ∈ (unitLines (Memory.readBytes session.sb 0 1024) session.cursor)[0]?
        ∧ lineCopy 0 ∈ (unitLines (Memory.readBytes session.sb 0 1024) session.cursor)[32]?)
      ∧ (∀ p ∈ [(Half.half0, lineWriteRam1, 0), (Half.half1, lineWriteRam2, 512)],
        lineUnlock ∈ (halfLines p.2.1 (Memory.readBytes session.sb p.2.2 512))[0]?
        ∧ ∃ n, lineChecksum n ∈ (halfLines p.2.1 (Memory.readBytes session.sb p.2.2 512))[14]?)
      ∧ ∀ l ∈ [lineUnlock, lineCopy 0], l.MismatchedBy session.cfg.sepLen (List.replicate (l.answerLength session.cfg.sepLen) 0#8)
        ∧ ([] : Bytes).length < l.answerLength session.cfg.sepLen := by
  refine ⟨seps_length, rfl, rfl, ⟨rfl, ?_⟩, fun p _ => ⟨rfl, (p.2.2 |> fun i => ((Memory.readBytes session.sb i 512).map BitVec.toNat).sum), ?_⟩,
    fun l hl => ?_⟩
  · exact unitLines_last _ _
  · simp [halfLines, halfEncode_length]
  · simp only [List.mem_cons, List.not_mem_nil, or_false] at hl
    rcases hl with rfl | rfl <;> exact ⟨zeros_mismatch _ _ _ rfl (by decide), Nat.succ_pos _⟩

/-- The answers that the thirty-three lines of a flush ask for complete it. -/
theorem flush_completes (s : State) (hs : s.cfg.sepLen = 2) :
    ∃ t, exec .flushUnit (answered s (answersOf (exchangesOf s.cfg seps (unitLines (s.sb.readBytes 0 1024) s.cursor)))) = .next t
      ∧ t.out = some .accepted := by
  have h := runLines_ok (unitLines (s.sb.readBytes 0 1024) s.cursor)
    (answered s (answersOf (exchangesOf s.cfg seps (unitLines (s.sb.readBytes 0 1024) s.cursor)))) seps [] (fun _ => hs.symm) rfl
  have e := runFlushUnit_eq (answered s (answersOf (exchangesOf s.cfg seps (unitLines (s.sb.readBytes 0 1024) s.cursor))))
  exact ⟨_, congrArg (fun x => x.report acceptUnit) (e.trans h), rfl⟩

theorem witness_CompletedFlushTransmitsTheUnit :
    ∃ t, exec .flushUnit (answered session (answersOf (exchangesOf session.cfg seps
        (unitLines (session.sb.readBytes 0 1024) session.cursor)))) = .next t
      ∧ t.out = some .accepted := flush_completes session rfl

/-- WRITE on the overflow path and FINISH with bytes staged, the first line of the flush answered by a mismatch or not at all. -/
theorem witness_FailedFlushReportsItsLineAndChangesNothing (a : Bytes) :
    let s := { session with fill := 1020 }
    s.Inv ∧ s.valid = true ∧ Separators s.cfg seps ∧ s.cursor ≤ 43008 ∧ s.fill ≠ 0
      ∧ (WholeWords record4 ∧ 1024 ≤ s.fill + declaredSize record4 ∧ s.fill + declaredSize record4 ≤ 2047)
      ∧ (∀ buf, lineUnlock ∈ (unitLines buf s.cursor)[0]?)
      ∧ lineUnlock.MismatchedBy s.cfg.sepLen (List.replicate (lineUnlock.answerLength s.cfg.sepLen) 0#8)
      ∧ ([] : Bytes).length < lineUnlock.answerLength s.cfg.sepLen
      ∧ (answered s a).rx = feed a [] ∧ ({ s with rx := feed a [.gap] } : State).rx = feed a (.gap :: []) :=
  ⟨session_inv 1020 (by decide) rfl, rfl, seps_length, Nat.zero_le _, by decide,
    ⟨record4_whole.1, by rw [record4_whole.2], by rw [record4_whole.2]; decide⟩, fun _ => rfl,
    zeros_mismatch _ _ _ rfl (by decide), by decide, rfl, rfl⟩

theorem witness_FinishStatements (a : Bytes) :
    (session.valid = true ∧ session.fill = 0)
      ∧ (({ session with fill := 4 } : State).fill ≠ 0 ∧ session.cursor ≤ 43008 ∧ Separators session.cfg seps
        ∧ (answered { session with fill := 4 } a).rx = feed a [])
      ∧ ∃ t, exec .finish { session with fill := 4 } = .next t ∧ t.out = some (.rejected .transportTimeout) :=
  ⟨⟨rfl, rfl⟩, ⟨by decide, Nat.zero_le _, seps_length, rfl⟩, _, rfl, rfl⟩

theorem witness_WritesUnderOneUnitOnlyAccumulate :
    session.valid = true ∧ (∀ record ∈ [record4, record4], WholeWords record) ∧ session.fill + ([record4, record4].map declaredSize).sum < 1024 :=
  ⟨rfl, by intro r hr; simp only [List.mem_cons, List.not_mem_nil, or_false, or_self] at hr; rw [hr]; exact record4_whole.1, by decide⟩

/-- One unit in one record, and the last two words of a unit in two. -/
theorem witness_WritesOfExactlyOneUnitFlushOnce (a : Bytes) :
    (session.Inv ∧ (∀ record ∈ [record1024], WholeWords record) ∧ session.fill + ([record1024].map declaredSize).sum = 1024)
      ∧ (({ session with fill := 1016 } : State).Inv ∧ (∀ record ∈ [record4, record4], WholeWords record)
        ∧ 1016 + ([record4, record4].map declaredSize).sum = 1024)
      ∧ session.valid = true ∧ session.cursor ≤ 43008 ∧ Separators session.cfg seps ∧ (answered session a).rx = feed a [] := by
  refine ⟨⟨session_inv 0 (by decide) rfl, fun r hr => ?_, ?_⟩, ⟨session_inv 1016 (by decide) rfl, fun r hr => ?_, by decide⟩, rfl,
    Nat.zero_le _, seps_length, rfl⟩
  · simp only [List.mem_cons, List.not_mem_nil, or_false] at hr
    rw [hr]
    exact record1024_whole
  · simp only [List.map_cons, List.map_nil, List.sum_cons, List.sum_nil, record1024_size]
    rfl
  · simp only [List.mem_cons, List.not_mem_nil, or_false, or_self] at hr
    rw [hr]
    exact record4_whole.1

/-- A state of the invariant, not at reset, and its step. -/
theorem witness_EveryStepKeepsTheRestInvariant :
    ({ session with fill := 4, program := [⟨.hostOp, [0x06#8]⟩] } : State).Inv
      ∧ ∃ t, step { session with fill := 4, program := [⟨.hostOp, [0x06#8]⟩] } = .next t :=
  ⟨⟨rfl, by decide, rfl, rfl, Nat.zero_le _, by decide⟩, _, rfl⟩

/-- The whole-machine rules speak of instructions that answer a next state: one that is accepted, one that is rejected, one that clears `valid`,
START rejected, and OPEN. -/
theorem witness_WholeMachineRules :
    (∃ t, exec .handshake { session with hs := .successful } = .next t ∧ t.out = some .accepted)
      ∧ (∃ t, exec (.write []) session = .next t ∧ t.out = some (.rejected .badRecord))
      ∧ (∃ t, exec .closeSession session = .next t ∧ t.valid ≠ session.valid)
      ∧ (∃ t, exec .start session = .next t ∧ t.out = some (.rejected .transportTimeout))
      ∧ (∃ t, exec .openSession session = .next t)
      ∧ ∃ t, exec .handshake (answered session syncString) = .next t ∧ t.hs ≠ session.hs :=
  ⟨⟨_, rfl, rfl⟩, ⟨_, rfl, rfl⟩, ⟨_, rfl, by decide⟩, ⟨_, rfl, rfl⟩, ⟨_, rfl⟩, ⟨_, rfl, by decide⟩⟩

theorem witness_StepRunsTheDecodedInstruction :
    (({ session with program := [⟨.hostOp, [0x06#8]⟩] } : State).program = [⟨.hostOp, [0x06#8]⟩]
      ∧ decode ⟨.hostOp, [0x06#8]⟩ = .ok .closeSession)
      ∧ (({ session with program := [⟨.hostOp, []⟩] } : State).program = [⟨.hostOp, []⟩] ∧ decode ⟨.hostOp, []⟩ = .error .emptyRequest)
      ∧ session.program = [] := ⟨⟨rfl, rfl⟩, ⟨rfl, rfl⟩, rfl⟩

/-- Boundary operands on both sides of the case split: an instruction with a request, and one without. -/
theorem witness_DecodeOfEncodeIsTheInstruction :
    (Instr.txPrepare 0 29).wf = true ∧ encode (.txPrepare 0 29) = some ⟨.letterLine, [0x50#8, 0x20#8, 0x30#8, 0x20#8, 0x32#8, 0x39#8]⟩
      ∧ Instr.flushUnit.wf = true ∧ encode .flushUnit = none :=
  ⟨by decide, rfl, rfl, rfl⟩

theorem witness_DecodedInstructionsAreWellFormed : decode ⟨.checksumLine, [0x30#8]⟩ = .ok (.txChecksum 0#32) := rfl

theorem witness_SelectCodesNameTheirOperations : 7 < (0x08#8).toNat ∧ 3 < (0x04#8).toNat := by decide

end Sys2Proof.Tests
end

namespace Sys2Proof.Machine

/-! ### OPEN (R24) -/

/-- OPEN is total: it answers at once, on every state, with the session creation values and acceptance. -/
theorem exec_openSession (s : State) : exec .openSession s = .next (returnResult .accepted (openState s)) := rfl

/-- The session creation value of the whole staging buffer. -/
theorem read_openState_sb (s : State) (a : Nat) : Memory.read (openState s).sb a = 0xFF#8 := by
  rw [openState_sb, Memory.read_nil]

theorem openState_sameTransport (s : State) : s.SameTransport (openState s) := ⟨openState_trace s, openState_rx s⟩

theorem openState_sameSetting (s : State) : s.SameSetting (openState s) := ⟨openState_cfg s, openState_program s⟩

/-- Settles O20: OPEN returns acceptance on the opened state, and returning a result leaves every other field as `openState` sets or keeps it. -/
theorem openCreatesAFreshSession : Obligations.OpenCreatesAFreshSession := by
  intro s
  refine ⟨_, exec_openSession s, fun a => ?buffer, ?fill, ?cursor, ?hs, ?valid, ?out, ?transport, ?setting⟩
  case buffer => rw [returnResult_sb, read_openState_sb]
  case fill => rw [returnResult_fill, openState_fill]
  case cursor => rw [returnResult_cursor, openState_cursor]
  case hs => rw [returnResult_hs, openState_hs]
  case valid => rw [returnResult_valid, openState_valid]
  case out => rw [returnResult_out]
  case transport => exact openState_sameTransport s
  case setting => exact openState_sameSetting s

end Sys2Proof.Machine

namespace Sys2Proof.Machine

/-! ### The transcoder's instructions (R82, R84, R85) -/

theorem exec_encGroup (b0 b1 b2 : Byte) (s : State) :
    exec (.encGroup b0 b1 b2) s = .next (returnResult (.bytes (groupEncode b0 b1 b2)) s) := rfl

theorem exec_decGroup (c0 c1 c2 c3 : Byte) (s : State) :
    exec (.decGroup c0 c1 c2 c3) s = .next (returnResult (decoderOutput (groupDecode c0 c1 c2 c3)) s) := rfl

/-- ENC_LINE on its domain; outside it the port refuses. -/
theorem exec_encLine_of_length {raw : Bytes} (h1 : 1 ≤ raw.length) (h2 : raw.length ≤ 45) (s : State) :
    exec (.encLine raw) s = .next (returnResult (.bytes (lineEncode raw)) s) :=
  if_pos ⟨h1, h2⟩

/-- The output port tells two byte results apart. -/
theorem next_returnResult_bytes_injective {b b' : Bytes} {s : State}
    (h : (.next (returnResult (.bytes b) s) : Host.Outcome State Fault Refusal) = .next (returnResult (.bytes b') s)) : b = b' := by
  have hstate : returnResult (.bytes b) s = returnResult (.bytes b') s := Host.Outcome.next.inj h
  have hout : some (Output.bytes b) = some (.bytes b') := congrArg State.out hstate
  exact Output.bytes.inj (Option.some.inj hout)

/-! ### R88 as the ports show it -/

/-- A printable character is no control character and no space. -/
theorem ne_of_printable_of_toNat_lt {c d : Byte} (hc : 0x21 ≤ c.toNat) (hd : d.toNat < 0x21) : c ≠ d := by
  rintro rfl
  omega

/-- R88: DEC_GROUP on the characters of a group gives the three bytes back. -/
theorem exec_decGroup_of_split (b0 b1 b2 : Byte) (s : State) :
    exec (.decGroup (enc6 (splitS0 b0)) (enc6 (splitS1 b0 b1)) (enc6 (splitS2 b1 b2)) (enc6 (splitS3 b2))) s =
      .next (returnResult (.bytes [b0, b1, b2]) s) := by
  rw [exec_decGroup, groupDecode_groupEncode, decoderOutput]

/-- R88 (b): the result port of ENC_GROUP determines the three bytes. -/
theorem exec_encGroup_injective {b0 b1 b2 b0' b1' b2' : Byte} {s : State}
    (h : exec (.encGroup b0 b1 b2) s = exec (.encGroup b0' b1' b2') s) : b0 = b0' ∧ b1 = b1' ∧ b2 = b2' := by
  rw [exec_encGroup, exec_encGroup] at h
  exact groupEncode_injective (next_returnResult_bytes_injective h)

/-- R88 (a): a data line holds no space, CR or LF, and nothing above 0x60. -/
theorem lineEncode_avoids_separators {raw : Bytes} (h1 : 1 ≤ raw.length) (h2 : raw.length ≤ 45) :
    ∀ c ∈ lineEncode raw, c ≠ 0x20#8 ∧ c ≠ 0x0D#8 ∧ c ≠ 0x0A#8 ∧ c.toNat ≤ 0x60 := by
  intro c hc
  obtain ⟨hlow, hhigh⟩ := lineEncode_printable raw h1 h2 c hc
  have hne {d : Byte} (hd : d.toNat < 0x21) : c ≠ d := ne_of_printable_of_toNat_lt hlow hd
  exact ⟨hne (by decide), hne (by decide), hne (by decide), hhigh⟩

/-- R88 (c): the result port of ENC_LINE determines the raw bytes, among those it accepts. -/
theorem exec_encLine_injective {raw raw' : Bytes} {s : State} (h1 : 1 ≤ raw.length) (h2 : raw.length ≤ 45)
    (h1' : 1 ≤ raw'.length) (h2' : raw'.length ≤ 45) (h : exec (.encLine raw) s = exec (.encLine raw') s) : raw = raw' := by
  rw [exec_encLine_of_length h1 h2, exec_encLine_of_length h1' h2'] at h
  exact lineEncode_injective h1 h2 h1' h2' (next_returnResult_bytes_injective h)

/-- Settles O3: the laws of the codec, read off the result port. DEC_GROUP undoes ENC_GROUP and DEC_LINE undoes ENC_LINE, whence both are
injective; a group's characters come from ENC6, whose range is 0x21..0x60, and the length byte is at most 0x4D. -/
theorem transcoderIsPrintableAndReversible : Obligations.TranscoderIsPrintableAndReversible := by
  refine ⟨fun b0 b1 b2 s => ?group, ?groupInjective, ?line, ?lineInjective⟩
  case group =>
    refine ⟨_, _, _, _, exec_encGroup b0 b1 b2 s, fun c hc => ?_, exec_decGroup_of_split b0 b1 b2 s⟩
    obtain ⟨hlow, hhigh⟩ := groupEncode_printable b0 b1 b2 c hc
    exact ⟨hlow, hhigh, ne_of_printable_of_toNat_lt hlow (by decide)⟩
  case groupInjective => exact fun _ _ _ _ _ _ _ h => exec_encGroup_injective h
  case line => exact fun _ s h1 h2 => ⟨_, exec_encLine_of_length h1 h2 s, lineEncode_avoids_separators h1 h2⟩
  case lineInjective => exact fun _ _ _ h1 h2 h1' h2' h => exec_encLine_injective h1 h2 h1' h2' h

end Sys2Proof.Machine

namespace Sys2Proof.Machine

/-! ### The checksums of the two halves (R155) -/

/-- The bytes of a half summed one address at a time. -/
theorem halfBytes_sum (h : Half) (s : State) :
    ((halfBytes h s).map BitVec.toNat).sum = ((List.range 512).map fun i => (Memory.read s.sb (halfBase h + i)).toNat).sum := by
  rw [halfBytes, Memory.readBytes, List.map_map]
  rfl

/-- 512 bytes of at most 255 each. -/
theorem halfBytes_sum_le (h : Half) (s : State) : ((halfBytes h s).map BitVec.toNat).sum ≤ 130560 := by
  have hle := byteSum_le (halfBytes h s)
  rwa [halfBytes_length] at hle

/-- Settles O44: the checksum is the byte sum reduced modulo 2^32, and 512 bytes sum to far less than that. -/
theorem checksumsArePlainByteSums : Obligations.ChecksumsArePlainByteSums := by
  intro s p hp
  have hbase : p.2 = halfBase p.1 := by
    simp only [List.mem_cons, List.not_mem_nil, or_false] at hp
    rcases hp with rfl | rfl
    · rfl
    · rfl
  rw [hbase, ← halfBytes_sum p.1 s]
  exact ⟨checksum_toNat _, halfBytes_sum_le _ _, checksum_half _ (halfBytes_length _ _).le⟩

end Sys2Proof.Machine

namespace Sys2Proof.Machine

/-! ### What a completed run of lines shows at the transport (R100, R157) -/

/-- The transport events of a line sent with terminator and answered in full by `a`. -/
def CatalogueLine.events (l : CatalogueLine) (cfg : Config) (a : Bytes) : List Event :=
  [.send (l.text ++ cfg.term), .recv (l.answerLength cfg.sepLen) (some a)]

theorem CatalogueLine.shapeLength_shape (l : CatalogueLine) (n : Nat) : shapeLength l.shape l.text n = l.answerLength n := by
  obtain ⟨text, token, why⟩ := l
  cases token with
  | none => rfl
  | some tok => rfl

/-- A line that goes on was answered in full, whatever the answer. -/
theorem CatalogueLine.events_of_run_ok {l : CatalogueLine} {s u : State} {field : Bytes} (h : l.run s = .ok field u) :
    u.cfg = s.cfg ∧ ∃ a : Bytes, a.length = l.answerLength s.cfg.sepLen ∧ u.trace = s.trace ++ l.events s.cfg a := by
  rw [CatalogueLine.run] at h
  rcases transact_cases l.text true l.shape l.why s with
    ⟨r, rest, hl, -, -, hok⟩ | ⟨r, rest, -, -, -, hmismatch⟩ | ⟨eaten, rest, -, htimeout⟩ | ⟨-, hhang⟩
  · rw [hok] at h
    cases h
    rw [l.shapeLength_shape] at hl
    exact ⟨rfl, r, hl, by rw [CatalogueLine.events, ← hl]; rfl⟩
  · rw [hmismatch] at h; cases h
  · rw [htimeout] at h; cases h
  · rw [hhang] at h; cases h

/-- Lines that all went on were each answered in full, one after another. -/
theorem events_of_runLines_ok (ls : List CatalogueLine) {s u : State} (h : runLines ls s = .ok () u) :
    ∃ answers : List Bytes, answers.map List.length = ls.map (fun l => l.answerLength s.cfg.sepLen)
      ∧ u.trace = s.trace ++ (List.zipWith (fun l a => l.events s.cfg a) ls answers).flatten := by
  induction ls generalizing s with
  | nil =>
    cases h
    exact ⟨[], rfl, (List.append_nil _).symm⟩
  | cons l ls ih =>
    rw [runLines] at h
    cases hl : l.run s with
    | ok field v =>
      rw [hl, Run.andThen_ok] at h
      obtain ⟨hcfg, a, ha, hv⟩ := CatalogueLine.events_of_run_ok hl
      obtain ⟨answers, hlen, hu⟩ := ih h
      rw [hcfg] at hlen hu
      refine ⟨a :: answers, by rw [List.map_cons, List.map_cons, ha, hlen], ?_⟩
      rw [hu, hv, List.zipWith_cons_cons, List.flatten_cons, List.append_assoc]
    | raise r v => rw [hl] at h; cases h
    | hang => rw [hl] at h; cases h

theorem transmitted_append (a b : List Event) : transmitted (a ++ b) = transmitted a ++ transmitted b := List.flatMap_append

/-- One line leaves its text and the terminator on the transmit stream. -/
theorem transmitted_events (l : CatalogueLine) (cfg : Config) (a : Bytes) : transmitted (l.events cfg a) = l.text ++ cfg.term :=
  List.append_nil _

/-- The transmit stream does not depend on the answers, only on there being one to each line. -/
theorem transmitted_zipWith_events (cfg : Config) (ls : List CatalogueLine) (answers : List Bytes) (h : answers.length = ls.length) :
    transmitted (List.zipWith (fun l a => l.events cfg a) ls answers).flatten = ls.flatMap fun l => l.text ++ cfg.term := by
  induction ls generalizing answers with
  | nil => rfl
  | cons l ls ih =>
    cases answers with
    | nil => cases h
    | cons a answers =>
      rw [List.zipWith_cons_cons, List.flatten_cons, transmitted_append, transmitted_events, ih answers (Nat.succ.inj h),
        List.flatMap_cons]

/-- An operation that returns `Accepted` ran to its end. -/
theorem Run.ok_of_report_accepted {x : Run Unit} {t : State} (h : x.report acceptUnit = .next t) (hout : t.out = some .accepted) :
    ∃ u, x = .ok () u ∧ t = returnResult .accepted u := by
  rcases Run.report_next h with ⟨a, u, hx, ht⟩ | ⟨r, u, -, rfl⟩
  · exact ⟨u, hx, ht⟩
  · cases hout

/-! ### The length of a unit on the wire (R59, R87, R161) -/

theorem lineEncode_length (raw : Bytes) : (lineEncode raw).length = lineLen raw.length := by
  rw [lineEncode, List.length_cons, bodyEncode_length, lineLen, Nat.add_comm]

/-- Eleven lines of 61 characters and one of 25 (R87). -/
theorem halfEncode_lengths {half : Bytes} (h : half.length = 512) :
    (halfEncode half).map List.length = List.replicate 11 61 ++ [25] := by
  have hfull : ∀ k < 11, (lineEncode ((half.drop (45 * k)).take 45)).length = 61 := fun k hk => by
    have hraw : ((half.drop (45 * k)).take 45).length = 45 := by rw [List.length_take, List.length_drop, h]; omega
    rw [lineEncode_length, hraw]
    rfl
  have hlast : (lineEncode ((half.drop 495).take 17)).length = 25 := by
    have hraw : ((half.drop 495).take 17).length = 17 := by rw [List.length_take, List.length_drop, h]; rfl
    rw [lineEncode_length, hraw]
    rfl
  rw [halfEncode, List.map_append, List.map_map, List.map_cons, List.map_nil, hlast]
  congr 1
  exact List.eq_replicate_iff.2 ⟨rfl, fun n hn => by
    obtain ⟨k, hk, rfl⟩ := List.mem_map.1 hn
    exact hfull k (List.mem_range.1 hk)⟩

/-- The characters of the lines' texts, terminators not counted. -/
def textLength (ls : List CatalogueLine) : Nat := (ls.map fun l => l.text.length).sum

theorem textLength_append (a b : List CatalogueLine) : textLength (a ++ b) = textLength a + textLength b := by
  rw [textLength, List.map_append, List.sum_append]
  rfl

theorem textLength_cons (l : CatalogueLine) (ls : List CatalogueLine) : textLength (l :: ls) = l.text.length + textLength ls := rfl

theorem textLength_nil : textLength [] = 0 := rfl

theorem textLength_map_lineData (ls : List Bytes) : textLength (ls.map lineData) = (ls.map List.length).sum := by
  rw [textLength, List.map_map]
  rfl

/-- A half's fifteen texts: unlock, write-RAM, 696 characters of data, the decimal sum (R158). -/
theorem textLength_halfLines (ram : CatalogueLine) {half : Bytes} (h : half.length = 512) :
    textLength (halfLines ram half) = 7 + ram.text.length + 696 + (dec (half.map BitVec.toNat).sum).length := by
  have hdata : textLength ((halfEncode half).map lineData) = 696 := by
    rw [textLength_map_lineData, halfEncode_lengths h]
    rfl
  have hunlock : lineUnlock.text.length = 7 := rfl
  simp only [halfLines, textLength_append, textLength_cons, textLength_nil, hdata, hunlock, lineChecksum]
  omega

/-- The copy line is its cursor's digits and 17 more characters. -/
theorem lineCopy_length (cursor : Nat) : (lineCopy cursor).text.length = 17 + (dec cursor).length := by
  simp only [lineCopy, List.length_append, List.length_cons, List.length_nil]
  omega

/-- The thirty-three texts of a unit (R161). -/
theorem textLength_unitLines {buf : Bytes} (h : buf.length = 1024) (cursor : Nat) :
    textLength (unitLines buf cursor) = 3 * 7 + 2 * 15 + 2 * 696 + 6 + 17
      + ((dec ((buf.take 512).map BitVec.toNat).sum).length + (dec ((buf.drop 512).map BitVec.toNat).sum).length
        + (dec cursor).length) := by
  have hfirst : (buf.take 512).length = 512 := by rw [List.length_take, h]; rfl
  have hsecond : (buf.drop 512).length = 512 := by rw [List.length_drop, h]
  have hunlock : lineUnlock.text.length = 7 := rfl
  have hram1 : lineWriteRam1.text.length = 15 := rfl
  have hram2 : lineWriteRam2.text.length = 15 := rfl
  have hprepare : (linePrepare 0 29).text.length = 6 := rfl
  simp only [unitLines, textLength_append, textLength_cons, textLength_nil, textLength_halfLines _ hfirst,
    textLength_halfLines _ hsecond, hunlock, hram1, hram2, hprepare, lineCopy_length]
  omega

/-- Lines on the transmit stream: their texts, and a terminator to each. -/
theorem length_flatMap_text_append (term : Bytes) (ls : List CatalogueLine) :
    (ls.flatMap fun l => l.text ++ term).length = textLength ls + ls.length * term.length := by
  induction ls with
  | nil => simp [textLength_nil]
  | cons l ls ih =>
    rw [List.flatMap_cons, List.length_append, List.length_append, ih, textLength_cons, List.length_cons, Nat.succ_mul]
    omega

/-! ### A completed FLUSH_UNIT (R157, R161) -/

/-- An accepted FLUSH_UNIT ran its thirty-three lines to the end. -/
theorem runLines_of_flushUnit_accepted {s t : State} (h : exec .flushUnit s = .next t) (hout : t.out = some .accepted) :
    ∃ u, runLines (unitLines (Memory.readBytes s.sb 0 1024) s.cursor) s = .ok () u ∧ t.trace = u.trace := by
  have hreport : (runFlushUnit s).report acceptUnit = .next t := h
  rw [runFlushUnit_eq] at hreport
  obtain ⟨u, hrun, rfl⟩ := Run.ok_of_report_accepted hreport hout
  exact ⟨u, hrun, returnResult_trace _ u⟩

/-- Settles O39: the flush runs its catalogue lines, each of which sends its text and terminator and asks for its own answer; the lengths are
those of the lines' texts. -/
theorem completedFlushTransmitsTheUnit : Obligations.CompletedFlushTransmitsTheUnit := by
  intro s t h hout buf sum ls sent digits
  obtain ⟨u, hrun, htu⟩ := runLines_of_flushUnit_accepted h hout
  obtain ⟨answers, hanswers, htrace⟩ := events_of_runLines_ok ls hrun
  rw [← htu] at htrace
  have hcount : answers.length = ls.length := by
    simpa only [List.length_map] using congrArg List.length hanswers
  have hsent : sent.length = 3 * 7 + 2 * 15 + 2 * 696 + 6 + 17 + digits + 33 * s.cfg.term.length := by
    calc sent.length = textLength ls + ls.length * s.cfg.term.length := length_flatMap_text_append _ _
      _ = _ := by rw [textLength_unitLines (Memory.readBytes_length _ _ _), unitLines_length]
  refine ⟨?stream, hsent, fun hterm => ?default, answers, hanswers, htrace⟩
  case stream => rw [htrace, transmitted_append, transmitted_zipWith_events _ _ _ hcount]
  case default => rw [hsent, hterm]; omega

end Sys2Proof.Machine

namespace Sys2Proof.Machine

/-! ### What an instruction can do, said once -/

/-- The state an instruction leaves when it answers one: what its meaning can do to registers, transport and result port. -/
inductive Effect (s : State) : Instr → State → Prop
  | quiet {i : Instr} {n : Nat} {t : State} (hn : registerQuiet i = some n) (ht : QuietTo n s t) : Effect s i t
  | opened : Effect s .openSession (returnResult .accepted (openState s))
  | closed : Effect s .closeSession (returnResult .accepted { s with valid := false })
  | shaken {u : State} (o : Output) (hu : Shakes 3 s u) : Effect s .handshake (returnResult o u)
  | started {u : State} (o : Output) (hu : Shakes 7 (openState s) u) : Effect s .start (returnResult o u)
  | writeRejected (record : Bytes) (r : Reason) : Effect s (.write record) (takeRejection r s)
  | accumulated (record : Bytes) (h4 : recordSize record % 4 = 0) (hroom : s.fill + recordSize record < 1024)
      (hlen : 8 + recordSize record ≤ record.length) :
      Effect s (.write record) (returnResult .accepted (accumulate (recordData record) s))
  | flushAborted {u : State} (record : Bytes) (r : Reason) (hu : UsesUpTo 33 (topUp (recordData record) s) u) :
      Effect s (.write record) (takeRejection r { u with sb := u.sb.refillFrom u.fill })
  | flushed {u : State} (record : Bytes) (h4 : recordSize record % 4 = 0) (hdue : 1024 ≤ s.fill + recordSize record)
      (hmax : s.fill + recordSize record ≤ 2047) (hlen : 8 + recordSize record ≤ record.length)
      (hrange : s.cursor + 1024 ≤ 44032) (hu : UsesUpTo 33 (topUp (recordData record) s) u) :
      Effect s (.write record) (returnResult .accepted (advanceAndCarry ((recordData record).drop (1024 - s.fill)) u))
  | finishRejected {u : State} (r : Reason) (hu : UsesUpTo 33 s u) : Effect s .finish (takeRejection r u)
  | finishedEmpty : Effect s .finish (returnResult .accepted { s with valid := false })
  | finished {u : State} (hrange : s.cursor + 1024 ≤ 44032) (hu : UsesUpTo 33 s u) :
      Effect s .finish (returnResult .accepted (finishState u))

theorem exec_write_effect {record : Bytes} {s t : State} (h : exec (.write record) s = .next t) : Effect s (.write record) t := by
  rcases execWrite_cases s record t h with ⟨r, rfl⟩ | ⟨-, h4, hroom, hlen, rfl⟩ |
    ⟨-, h4, hdue, hmax, hlen, hrange, u, hu, ⟨r, rfl⟩ | rfl⟩
  · exact .writeRejected record r
  · exact .accumulated record h4 hroom hlen
  · exact .flushAborted record r hu
  · exact .flushed record h4 hdue hmax hlen hrange hu

theorem exec_finish_effect {s t : State} (h : exec .finish s = .next t) : Effect s .finish t := by
  rcases execFinish_cases s t h with ⟨r, rfl⟩ | ⟨-, -, rfl⟩ | ⟨-, -, hrange, u, hu, ⟨r, rfl⟩ | rfl⟩
  · exact .finishRejected r ((UsesUpTo.refl s).mono (Nat.zero_le _))
  · exact .finishedEmpty
  · exact .finishRejected r hu
  · exact .finished hrange hu

/-- Every answer of every instruction is one of its effects. -/
theorem exec_effect {i : Instr} {s t : State} (h : exec i s = .next t) : Effect s i t := by
  cases i
  case openSession => cases h; exact .opened
  case closeSession => cases h; exact .closed
  case handshake =>
    obtain ⟨u, o, hu, rfl⟩ := Run.report_leaves h (runHandshake_shakes s)
    exact .shaken o hu
  case start =>
    obtain ⟨u, o, hu, rfl⟩ := Run.report_leaves h (runStart_shakes s)
    exact .started o hu
  case write record => exact exec_write_effect h
  case finish => exact exec_finish_effect h
  all_goals exact .quiet rfl (exec_registerQuiet _ _ rfl s t h)

/-! ### The frames of the effects -/

theorem UsesUpTo.registers {n : Nat} {s t : State} (h : UsesUpTo n s t) : s.SameRegisters t := h.1.registers

theorem UsesUpTo.setting {n : Nat} {s t : State} (h : UsesUpTo n s t) : s.SameSetting t := h.1.setting

theorem QuietTo.registers {n : Nat} {s t : State} (h : QuietTo n s t) : s.SameRegisters t := by
  obtain ⟨u, o, hu, rfl⟩ := h
  exact hu.registers

/-- A handshake writes no register but `hs`. -/
theorem Shakes.registers {n : Nat} {s t : State} (h : Shakes n s t) :
    t.sb = s.sb ∧ t.fill = s.fill ∧ t.cursor = s.cursor ∧ t.valid = s.valid := by
  obtain ⟨u, hu, ht, -⟩ := h
  obtain ⟨hsb, hfill, hcursor, -, hvalid⟩ := hu.registers
  rw [ht]
  exact ⟨hsb, hfill, hcursor, hvalid⟩

theorem Shakes.rank_le {n : Nat} {s t : State} (h : Shakes n s t) : s.hs.rank ≤ t.hs.rank := by
  obtain ⟨-, -, -, hrank⟩ := h
  exact hrank

/-! ### Transport and setting -/

/-- Parameters and requests are as they were, the trace grew, with at most `n` receives, and the stream lost a front part. -/
def Consumes (n : Nat) (s t : State) : Prop :=
  s.SameSetting t ∧ s.trace <+: t.trace ∧ t.rx <:+ s.rx ∧ receives t.trace ≤ receives s.trace + n

theorem Consumes.of_same {s t : State} (hset : s.SameSetting t) (htr : s.SameTransport t) : Consumes 0 s t := by
  obtain ⟨htrace, hrx⟩ := htr
  refine ⟨hset, ?_, ?_, ?_⟩
  · rw [htrace]
  · rw [hrx]
  · rw [htrace]; exact Nat.le_refl _

theorem Consumes.mono {m n : Nat} {s t : State} (h : Consumes m s t) (hmn : m ≤ n) : Consumes n s t := by
  obtain ⟨hset, htrace, hrx, hcount⟩ := h
  exact ⟨hset, htrace, hrx, by omega⟩

theorem Consumes.trans {m n : Nat} {s t u : State} (h : Consumes m s t) (h' : Consumes n t u) : Consumes (m + n) s u := by
  obtain ⟨⟨hcfg, hprog⟩, htrace, hrx, hcount⟩ := h
  obtain ⟨⟨hcfg', hprog'⟩, htrace', hrx', hcount'⟩ := h'
  exact ⟨⟨hcfg'.trans hcfg, hprog'.trans hprog⟩, htrace.trans htrace', hrx'.trans hrx, by omega⟩

/-- Registers and result port may be written after the transport was used. -/
theorem Consumes.then_same {n : Nat} {s t u : State} (h : Consumes n s t) (hset : t.SameSetting u) (htr : t.SameTransport u) :
    Consumes n s u := h.trans (.of_same hset htr)

theorem UsesUpTo.consumes {n : Nat} {s t : State} (h : UsesUpTo n s t) : Consumes n s t :=
  ⟨h.setting, h.1.trace_prefix, h.1.rx_suffix, h.2⟩

theorem Shakes.consumes {n : Nat} {s t : State} (h : Shakes n s t) : Consumes n s t := by
  obtain ⟨u, hu, ht, -⟩ := h
  rw [ht]
  exact hu.consumes.then_same ⟨rfl, rfl⟩ ⟨rfl, rfl⟩

theorem UsesUpTo.consumes_of_topUp {n : Nat} {data : Bytes} {s t : State} (h : UsesUpTo n (topUp data s) t) : Consumes n s t :=
  (((Consumes.of_same ⟨rfl, rfl⟩ ⟨rfl, rfl⟩ : Consumes 0 s (topUp data s))).trans h.consumes).mono (by omega)

/-- The most receives an instruction issues (R222). -/
def maxReceives (i : Instr) : Nat :=
  match registerQuiet i with
  | some n => n
  | none =>
    match i with
    | .openSession | .closeSession => 0
    | .handshake => 3
    | .start => 7
    | _ => 33

theorem maxReceives_of_registerQuiet {i : Instr} {n : Nat} (h : registerQuiet i = some n) : maxReceives i = n := by
  unfold maxReceives
  rw [h]

/-- Every instruction keeps parameters and requests, only appends to the trace and only eats the stream's front, within its receives. -/
theorem Effect.consumes {i : Instr} {s t : State} (h : Effect s i t) : Consumes (maxReceives i) s t := by
  cases h with
  | quiet hn ht =>
    obtain ⟨u, o, hu, rfl⟩ := ht
    rw [maxReceives_of_registerQuiet hn]
    exact hu.consumes.then_same ⟨rfl, rfl⟩ ⟨rfl, rfl⟩
  | opened => exact .of_same ⟨rfl, rfl⟩ ⟨rfl, rfl⟩
  | closed => exact .of_same ⟨rfl, rfl⟩ ⟨rfl, rfl⟩
  | shaken o hu => exact hu.consumes.then_same ⟨rfl, rfl⟩ ⟨rfl, rfl⟩
  | started o hu =>
    have hopen : Consumes 0 s (openState s) := .of_same ⟨rfl, rfl⟩ ⟨rfl, rfl⟩
    exact (hopen.trans hu.consumes).then_same ⟨rfl, rfl⟩ ⟨rfl, rfl⟩
  | writeRejected record r => exact (Consumes.of_same ⟨rfl, rfl⟩ ⟨rfl, rfl⟩).mono (Nat.zero_le _)
  | accumulated record h4 hroom hlen => exact (Consumes.of_same ⟨rfl, rfl⟩ ⟨rfl, rfl⟩).mono (Nat.zero_le _)
  | flushAborted record r hu => exact hu.consumes_of_topUp.then_same ⟨rfl, rfl⟩ ⟨rfl, rfl⟩
  | flushed record h4 hdue hmax hlen hrange hu => exact hu.consumes_of_topUp.then_same ⟨rfl, rfl⟩ ⟨rfl, rfl⟩
  | finishRejected r hu => exact hu.consumes.then_same ⟨rfl, rfl⟩ ⟨rfl, rfl⟩
  | finishedEmpty => exact (Consumes.of_same ⟨rfl, rfl⟩ ⟨rfl, rfl⟩).mono (Nat.zero_le _)
  | finished hrange hu => exact hu.consumes.then_same ⟨rfl, rfl⟩ ⟨rfl, rfl⟩

/-! ### The invariant of the registers at rest (R162) -/

/-- The invariant reads the buffer, `fill`, `cursor` and the parameters only. -/
theorem State.Inv.of_same {s t : State} (h : s.Inv) (hsb : t.sb = s.sb) (hfill : t.fill = s.fill) (hcursor : t.cursor = s.cursor)
    (hcfg : t.cfg = s.cfg) : t.Inv := by
  unfold State.Inv
  rw [hsb, hfill, hcursor, hcfg]
  exact h

/-- An empty buffer is at rest wherever the cursor may stand. -/
theorem State.Inv.of_empty {t : State} (hsb : t.sb = []) (hfill : t.fill = 0) (h1024 : t.cursor % 1024 = 0) (hmax : t.cursor ≤ 44032)
    (hterm : 1 ≤ t.cfg.term.length) : t.Inv := by
  refine ⟨?_, ?_, ?_, h1024, hmax, hterm⟩
  · rw [hsb]; rfl
  · omega
  · omega

/-- A record that holds its payload enters the buffer with the size it declares. -/
theorem recordData_length {record : Bytes} (h : 8 + recordSize record ≤ record.length) :
    (recordData record).length = recordSize record := by
  rw [recordData, swapWords_length, recordPayload, List.length_take, List.length_drop]
  omega

theorem accumulate_inv {s : State} {data : Bytes} (h : s.Inv) (h4 : data.length % 4 = 0) (hroom : s.fill + data.length < 1024) :
    (accumulate data s).Inv := by
  obtain ⟨hwf, hfill, hfill4, hcursor⟩ := h
  refine ⟨Memory.wfFrom_append hwf, hroom, ?_, hcursor⟩
  rw [accumulate_fill]
  omega

theorem unitLen_mod {n : Nat} (h : n % 1024 = 0) : (n + unitLen) % 1024 = 0 := by
  rw [Nat.add_mod_right, h]

theorem advanceAndCarry_inv {s : State} {rem : Bytes} (h4 : rem.length % 4 = 0) (hlen : rem.length < 1024)
    (hcursor : s.cursor % 1024 = 0) (hrange : s.cursor + 1024 ≤ 44032) (hterm : 1 ≤ s.cfg.term.length) :
    (advanceAndCarry rem s).Inv := by
  have hwf : Memory.wfFrom 0 (0 + rem.length) (Memory.writeBytes [] 0 rem) = true := Memory.wfFrom_append rfl
  rw [Nat.zero_add] at hwf
  exact ⟨hwf, hlen, h4, unitLen_mod hcursor, hrange, hterm⟩

theorem finishState_inv {s : State} (h : s.Inv) (hrange : s.cursor + 1024 ≤ 44032) : (finishState s).Inv := by
  obtain ⟨-, -, -, hcursor, -, hterm⟩ := h
  exact .of_empty (finishState_sb s) (finishState_fill s) (unitLen_mod hcursor) hrange hterm

/-- The refill of an aborted flush takes back exactly what `topUp` wrote (R159): the canonical buffer is the old one. -/
theorem refillFrom_topUp {s : State} (data : Bytes) (h : s.Inv) : (topUp data s).sb.refillFrom s.fill = s.sb := by
  obtain ⟨hwf, hfill, -⟩ := h
  have hunit : unitLen = 1024 := rfl
  have hwf' : Memory.wfFrom 0 1024 s.sb = true := Memory.wfFrom_mono hwf (Nat.le_refl _) (by omega)
  have htop : Memory.wfFrom 0 1024 (topUp data s).sb = true :=
    Memory.wfFrom_writeBytes hwf' (Nat.zero_le _) (by rw [List.length_take]; omega)
  have hrefill : Memory.wfFrom 0 1024 ((topUp data s).sb.refillFrom s.fill) = true :=
    Memory.wfFrom_writeBytes htop (Nat.zero_le _) (by rw [List.length_replicate]; omega)
  refine Memory.eq_of_read_eq hrefill hwf' fun a => ?_
  rw [Memory.refillFrom, Memory.read_writeBytes htop, topUp_sb, Memory.read_writeBytes hwf, List.length_replicate]
  by_cases hnew : s.fill ≤ a ∧ a < 1024
  · rw [if_pos (by omega), Memory.read_of_wfFrom hwf (.inr hnew.1)]
    exact List.getD_replicate _ (by omega)
  · rw [if_neg (by omega), if_neg (by rw [List.length_take]; omega)]

/-- A flush from the topped-up buffer leaves, after the refill, the registers it started from. -/
theorem sameRegisters_of_aborted {s u : State} {data : Bytes} {r : Reason} {n : Nat} (h : s.Inv) (hu : UsesUpTo n (topUp data s) u) :
    s.SameRegisters (takeRejection r { u with sb := u.sb.refillFrom u.fill }) := by
  obtain ⟨hsb, hfill, hcursor, hhs, hvalid⟩ := hu.registers
  refine ⟨?_, hfill, hcursor, hhs, hvalid⟩
  rw [takeRejection_sb, hsb, hfill]
  exact refillFrom_topUp data h

/-- Every instruction keeps the invariant of the registers at rest. -/
theorem Effect.inv {i : Instr} {s t : State} (h : Effect s i t) (hI : s.Inv) : t.Inv := by
  have hcfg : t.cfg = s.cfg := h.consumes.1.1
  cases h with
  | quiet hn ht =>
    obtain ⟨hsb, hfill, hcursor, -, -⟩ := ht.registers
    exact hI.of_same hsb hfill hcursor hcfg
  | opened =>
    obtain ⟨-, -, -, -, -, hterm⟩ := hI
    exact .of_empty rfl rfl rfl (Nat.zero_le _) hterm
  | closed => exact hI
  | shaken o hu =>
    obtain ⟨hsb, hfill, hcursor, -⟩ := hu.registers
    exact hI.of_same hsb hfill hcursor hcfg
  | started o hu =>
    obtain ⟨-, -, -, -, -, hterm⟩ := hI
    obtain ⟨hsb, hfill, hcursor, -⟩ := hu.registers
    have hzero : (returnResult o _).cursor = 0 := hcursor
    refine .of_empty hsb hfill ?_ ?_ ?_
    · rw [hzero]
    · rw [hzero]; exact Nat.zero_le _
    · rw [hcfg]; exact hterm
  | writeRejected record r => exact hI
  | accumulated record h4 hroom hlen =>
    have hdata := recordData_length hlen
    exact accumulate_inv hI (by rw [hdata]; exact h4) (by rw [hdata]; exact hroom)
  | flushAborted record r hu =>
    obtain ⟨hsb, hfill, hcursor, -, -⟩ := sameRegisters_of_aborted (r := r) hI hu
    exact hI.of_same hsb hfill hcursor hcfg
  | flushed record h4 hdue hmax hlen hrange hu =>
    obtain ⟨-, hfill, hfill4, hcursor4, -, hterm⟩ := hI
    obtain ⟨-, -, hcursor, -, -⟩ := hu.registers
    rw [topUp_cursor] at hcursor
    have hrem : ((recordData record).drop (1024 - s.fill)).length = recordSize record - (1024 - s.fill) := by
      rw [List.length_drop, recordData_length hlen]
    refine advanceAndCarry_inv ?_ ?_ ?_ ?_ ?_
    · rw [hrem]; omega
    · rw [hrem]; omega
    · rw [hcursor]; exact hcursor4
    · rw [hcursor]; exact hrange
    · rw [hu.setting.1]; exact hterm
  | finishRejected r hu =>
    obtain ⟨hsb, hfill, hcursor, -, -⟩ := hu.registers
    exact hI.of_same hsb hfill hcursor hcfg
  | finishedEmpty => exact hI
  | finished hrange hu =>
    obtain ⟨hsb, hfill, hcursor, -, -⟩ := hu.registers
    exact finishState_inv (hI.of_same hsb hfill hcursor hcfg) (by rw [hcursor]; exact hrange)

/-! ### A step -/

theorem step_of_nil {s : State} (h : s.program = []) : step s = .next s := by
  rw [step, h]

theorem step_of_decode_ok {s : State} {r : Request} {rest : List Request} {i : Instr} (h : s.program = r :: rest)
    (hd : decode r = .ok i) : step s = exec i { s with program := rest } := by
  unfold step
  rw [h]
  simp only [hd]

theorem step_of_decode_error {s : State} {r : Request} {rest : List Request} {e : DecodeError} (h : s.program = r :: rest)
    (hd : decode r = .error e) : step s = .refused (.undecodable e) := by
  unfold step
  rw [h]
  simp only [hd]

/-- A step that answers a next state was idle, or ran the instruction of the next request. -/
theorem step_next_cases {s t : State} (h : step s = .next t) :
    t = s ∨ ∃ (i : Instr) (rest : List Request), exec i { s with program := rest } = .next t := by
  cases hp : s.program with
  | nil =>
    rw [step_of_nil hp] at h
    cases h
    exact .inl rfl
  | cons r rest =>
    cases hd : decode r with
    | ok i => exact .inr ⟨i, rest, (step_of_decode_ok hp hd).symm.trans h⟩
    | error e =>
      rw [step_of_decode_error hp hd] at h
      cases h

/-- Settles O50: a step is idle or runs one instruction, and every effect of an instruction keeps the invariant. -/
theorem everyStepKeepsTheRestInvariant : Obligations.EveryStepKeepsTheRestInvariant := by
  intro s t hI h
  rcases step_next_cases h with rfl | ⟨i, rest, hexec⟩
  · exact hI
  · have hI' : State.Inv { s with program := rest } := hI
    exact (exec_effect hexec).inv hI'

/-- Settles O57: the three cases of a step. -/
theorem stepRunsTheDecodedInstruction : Obligations.StepRunsTheDecodedInstruction :=
  fun _ _ _ => ⟨fun _ hp hd => step_of_decode_ok hp hd, fun _ hp hd => step_of_decode_error hp hd, step_of_nil⟩

/-- Settles O49: the buffer is empty, `fill` and `cursor` are 0 and the default TERM has two bytes. -/
theorem restInvariantHoldsAtReset : Obligations.RestInvariantHoldsAtReset :=
  .of_empty rfl rfl rfl (Nat.zero_le _) (by decide)

/-- Settles O48: the read ports of the reset state; an unlisted buffer byte reads as the filler. -/
theorem resetGivesTheStatedValues : Obligations.ResetGivesTheStatedValues :=
  ⟨rfl, fun i => Memory.read_nil i.val, rfl, rfl, rfl⟩

/-! ### Whole-machine rules, read off the effects -/

/-- Settles O51: an effect leaves `hs`, except that OPEN and START reset it and HANDSHAKE may move it forward. -/
theorem handshakeStateOnlyMovesForward : Obligations.HandshakeStateOnlyMovesForward := by
  refine ⟨rfl, rfl, fun s t h => ?opened, fun i s t h hopen hstart => ?forward⟩
  case opened =>
    rw [exec_openSession] at h
    cases h
    rfl
  case forward =>
    have of_same (hsame : t.hs = s.hs) : s.hs.rank ≤ t.hs.rank ∧ (t.hs ≠ s.hs → i = .handshake) :=
      ⟨by rw [hsame], fun hne => absurd hsame hne⟩
    cases exec_effect h with
    | opened => exact absurd rfl hopen
    | started => exact absurd rfl hstart
    | shaken o hu => exact ⟨hu.rank_le, fun _ => rfl⟩
    | quiet hn ht =>
      obtain ⟨-, -, -, hhs, -⟩ := ht.registers
      exact of_same hhs
    | flushAborted record r hu | flushed record h4 hdue hmax hlen hrange hu | finishRejected r hu | finished hrange hu =>
      obtain ⟨-, -, -, hhs, -⟩ := hu.registers
      exact of_same hhs
    | closed | writeRejected | accumulated | finishedEmpty => exact of_same rfl

/-- The instructions that write no register are none of those that move the cursor. -/
theorem ne_opening_of_registerQuiet {i : Instr} {n : Nat} (h : registerQuiet i = some n) : ¬ (i = .openSession ∨ i = .start) := by
  rintro (rfl | rfl)
  · cases h
  · cases h

/-- Settles O52: an effect leaves `cursor`, except that OPEN and START zero it and a completed flush advances it within the range. -/
theorem cursorAdvancesByWholeUnits : Obligations.CursorAdvancesByWholeUnits := by
  intro i s t h
  cases exec_effect h with
  | quiet hn ht =>
    obtain ⟨-, -, hcursor, -, -⟩ := ht.registers
    rw [if_neg (ne_opening_of_registerQuiet hn)]
    exact .inl hcursor
  | opened => exact rfl
  | started o hu =>
    obtain ⟨-, -, hcursor, -⟩ := hu.registers
    exact hcursor
  | shaken o hu =>
    obtain ⟨-, -, hcursor, -⟩ := hu.registers
    exact .inl hcursor
  | flushAborted record r hu =>
    obtain ⟨-, -, hcursor, -, -⟩ := hu.registers
    exact .inl hcursor
  | finishRejected r hu =>
    obtain ⟨-, -, hcursor, -, -⟩ := hu.registers
    exact .inl hcursor
  | flushed record h4 hdue hmax hlen hrange hu =>
    obtain ⟨-, -, hcursor, -, -⟩ := hu.registers
    have hadvance : _ = s.cursor + 1024 := congrArg (· + 1024) hcursor
    exact .inr ⟨hadvance, hadvance.trans_le hrange, rfl, .inr ⟨record, rfl⟩⟩
  | finished hrange hu =>
    obtain ⟨-, -, hcursor, -, -⟩ := hu.registers
    have hadvance : _ = s.cursor + 1024 := congrArg (· + 1024) hcursor
    exact .inr ⟨hadvance, hadvance.trans_le hrange, rfl, .inl rfl⟩
  | closed | writeRejected | accumulated | finishedEmpty => exact .inl rfl

/-- Settles O53: no rejecting effect writes `valid`, `fill` or `cursor` (START's own OPEN apart), and `valid` is written by OPEN, CLOSE and
an accepted FINISH. -/
theorem rejectionsNeverEndTheSession : Obligations.RejectionsNeverEndTheSession := by
  intro i s t h
  cases exec_effect h with
  | quiet hn ht =>
    obtain ⟨-, hfill, hcursor, -, hvalid⟩ := ht.registers
    refine ⟨fun _ _ _ => ⟨hvalid, hfill, hcursor⟩, ?_, fun hne => absurd hvalid hne⟩
    rintro r - rfl
    cases hn
  | opened => exact ⟨fun r hr => (nomatch hr), fun r hr => (nomatch hr), fun _ => .inl rfl⟩
  | closed => exact ⟨fun r hr => (nomatch hr), fun r hr => (nomatch hr), fun _ => .inr (.inr (.inl rfl))⟩
  | shaken o hu =>
    obtain ⟨-, hfill, hcursor, hvalid⟩ := hu.registers
    exact ⟨fun _ _ _ => ⟨hvalid, hfill, hcursor⟩, fun _ _ hi => (nomatch hi), fun hne => absurd hvalid hne⟩
  | started o hu =>
    obtain ⟨-, -, -, hvalid⟩ := hu.registers
    exact ⟨fun _ _ hi => absurd rfl hi, fun _ _ _ => hvalid, fun _ => .inr (.inl rfl)⟩
  | writeRejected record r => exact ⟨fun _ _ _ => ⟨rfl, rfl, rfl⟩, fun _ _ hi => (nomatch hi), fun hne => absurd rfl hne⟩
  | accumulated record h4 hroom hlen => exact ⟨fun r hr => (nomatch hr), fun r hr => (nomatch hr), fun hne => absurd rfl hne⟩
  | flushAborted record r hu =>
    obtain ⟨-, hfill, hcursor, -, hvalid⟩ := hu.registers
    exact ⟨fun _ _ _ => ⟨hvalid, hfill, hcursor⟩, fun _ _ hi => (nomatch hi), fun hne => absurd hvalid hne⟩
  | flushed record h4 hdue hmax hlen hrange hu =>
    obtain ⟨-, -, -, -, hvalid⟩ := hu.registers
    exact ⟨fun r hr => (nomatch hr), fun r hr => (nomatch hr), fun hne => absurd hvalid hne⟩
  | finishRejected r hu =>
    obtain ⟨-, hfill, hcursor, -, hvalid⟩ := hu.registers
    exact ⟨fun _ _ _ => ⟨hvalid, hfill, hcursor⟩, fun _ _ hi => (nomatch hi), fun hne => absurd hvalid hne⟩
  | finishedEmpty | finished =>
    exact ⟨fun r hr => (nomatch hr), fun r hr => (nomatch hr), fun _ => .inr (.inr (.inr ⟨rfl, rfl⟩))⟩

/-- Settles O55: the history of every effect. -/
theorem transportHistoryOnlyGrows : Obligations.TransportHistoryOnlyGrows := by
  intro i s t h
  obtain ⟨-, htrace, hrx, -⟩ := (exec_effect h).consumes
  exact ⟨htrace, hrx⟩

/-- Settles O56: the receives of every effect; the table of the statement is `maxReceives`. -/
theorem receivesPerOperationAreBounded : Obligations.ReceivesPerOperationAreBounded := by
  intro i s t h
  obtain ⟨-, -, -, hcount⟩ := (exec_effect h).consumes
  refine hcount.trans_eq (congrArg (receives s.trace + ·) ?_)
  cases i <;> rfl

/-- ENC_LINE answers, where it answers at all, on the result port only. -/
theorem eq_returnResult_of_exec_encLine {raw : Bytes} {s t : State} (h : exec (.encLine raw) s = .next t) :
    t = returnResult (.bytes (lineEncode raw)) s := by
  have hline : (if 1 ≤ raw.length ∧ raw.length ≤ lineMax then .next (returnResult (.bytes (lineEncode raw)) s)
    else .refused .encLineDomain : Host.Outcome State Fault Refusal) = .next t := h
  split at hline
  · cases hline; rfl
  · cases hline

/-- Settles O54: each effect's own frame, and the seven instructions that answer without using the transport. -/
theorem registersAreWrittenOnlyByTheirWriters : Obligations.RegistersAreWrittenOnlyByTheirWriters := by
  intro i s t h
  refine ⟨(exec_effect h).consumes.1, ?writers, ?transport⟩
  case writers =>
    cases exec_effect h with
    | quiet hn ht =>
      cases i
      case openSession | start => trivial
      case write | finish | closeSession | handshake => cases hn
      all_goals exact ht.registers
    | opened | started => trivial
    | closed => exact ⟨rfl, rfl, rfl, rfl⟩
    | shaken o hu => exact hu.registers
    | writeRejected | accumulated => exact ⟨rfl, rfl⟩
    | flushAborted record r hu | flushed record h4 hdue hmax hlen hrange hu =>
      obtain ⟨-, -, -, hhs, hvalid⟩ := hu.registers
      exact ⟨hhs, hvalid⟩
    | finishedEmpty => rfl
    | finishRejected r hu | finished hrange hu =>
      obtain ⟨-, -, -, hhs, -⟩ := hu.registers
      exact hhs
  case transport =>
    cases i
    case openSession | closeSession | encGroup | decGroup | decLine | parseDec | encHalf =>
      cases h
      exact ⟨rfl, rfl⟩
    case encLine raw =>
      rw [eq_returnResult_of_exec_encLine h]
      exact ⟨rfl, rfl⟩
    all_goals trivial

end Sys2Proof.Machine

namespace Sys2Proof.Machine

/-! ### Decimal text and its reader (R56) -/

/-- `dec n` is digits only, has value `n`, and begins with `0` only when `n` is 0. -/
theorem dec_spec (n : Nat) : dec n ≠ [] ∧ (∀ b ∈ dec n, 0x30 ≤ b.toNat ∧ b.toNat ≤ 0x39)
    ∧ Nat.ofDigits 10 ((dec n).map fun b => b.toNat - 0x30).reverse = n ∧ (n ≠ 0 → (dec n).head? ≠ some 0x30#8) := by
  obtain ⟨digits, hdigits, hspec⟩ := decAux_spec (n.log2 + 1) n [] Nat.lt_log2_self (Nat.succ_pos _)
  have hdec : dec n = digits := by rw [dec, hdigits, List.append_nil]
  rw [hdec]
  exact hspec

theorem dec_digits (n : Nat) : ∀ b ∈ dec n, 0x30 ≤ b.toNat ∧ b.toNat ≤ 0x39 := by
  obtain ⟨-, hdigits, -⟩ := dec_spec n
  exact hdigits

/-- Settles O45: `dec` is its digit loop, started with fuel enough for every bit of `n`. -/
theorem decIsTheShortestDecimalText : Obligations.DecIsTheShortestDecimalText := ⟨rfl, dec_spec⟩

/-- PARSE_DEC reads back what `dec` wrote: no byte of it is skipped. -/
theorem parseDigits_dec (n : Nat) : parseDigits (dec n) = n := by
  obtain ⟨-, hdigits, hvalue, -⟩ := dec_spec n
  have hall : (dec n).filter (fun b => 0x30 ≤ b.toNat && b.toNat ≤ 0x39) = dec n :=
    List.filter_eq_self.2 fun b hb => by simpa using hdigits b hb
  rw [parseDigits_eq, hall, hvalue]

theorem readDec_dec (n : Nat) : readDec (dec n) = some n := by
  rw [readDec, parseDigits_dec, if_pos rfl]

/-! ### The fields of a letter line (R57) -/

theorem splitSpaces_of_no_space {w : Bytes} (h : ∀ c ∈ w, c ≠ 0x20#8) : splitSpaces w = [w] := by
  induction w with
  | nil => rfl
  | cons c w ih =>
    rw [splitSpaces, if_neg (h c List.mem_cons_self), ih fun x hx => h x (List.mem_cons_of_mem _ hx)]

theorem splitSpaces_append_space {w : Bytes} (h : ∀ c ∈ w, c ≠ 0x20#8) (rest : Bytes) :
    splitSpaces (w ++ 0x20#8 :: rest) = w :: splitSpaces rest := by
  induction w with
  | nil => rw [List.nil_append, splitSpaces, if_pos rfl]
  | cons c w ih =>
    rw [List.cons_append, splitSpaces, if_neg (h c List.mem_cons_self), ih fun x hx => h x (List.mem_cons_of_mem _ hx)]

theorem dec_no_space (n : Nat) : ∀ c ∈ dec n, c ≠ 0x20#8 := by
  rintro c hc rfl
  have := dec_digits n _ hc
  simp at this

/-- The text of a letter line with two sector operands. -/
def sectorText (letter : Byte) (first last : Nat) : Bytes := letter :: 0x20#8 :: (dec first ++ 0x20#8 :: dec last)

theorem textPrepare_eq_sectorText (first last : Nat) : textPrepare first last = sectorText 0x50#8 first last := by
  simp [textPrepare, sectorText]

theorem textErase_eq_sectorText (first last : Nat) : textErase first last = sectorText 0x45#8 first last := by
  simp [textErase, sectorText]

theorem splitSpaces_sectorText {letter : Byte} (h : letter ≠ 0x20#8) (first last : Nat) :
    splitSpaces (sectorText letter first last) = [[letter], dec first, dec last] := by
  have hletter : ∀ c ∈ [letter], c ≠ 0x20#8 := fun c hc => by rwa [List.mem_singleton.1 hc]
  have hsplit := splitSpaces_append_space hletter (dec first ++ 0x20#8 :: dec last)
  rw [splitSpaces_append_space (dec_no_space first), splitSpaces_of_no_space (dec_no_space last)] at hsplit
  exact hsplit

/-- A text of more than one byte that begins like none of the four fixed lines is read as a sector line. -/
theorem decodeLetterLine_of_head {a b : Byte} {rest : Bytes} (hS : a ≠ 0x53#8) (hU : a ≠ 0x55#8) (hW : a ≠ 0x57#8) :
    decodeLetterLine (a :: b :: rest) = decodeSectorLine (a :: b :: rest) := by
  have hne {c : Byte} {text : Bytes} (hc : text.head? = some c) (ha : a ≠ c) : a :: b :: rest ≠ text := by
    rintro rfl
    exact ha (Option.some.inj hc)
  rw [decodeLetterLine, if_neg (hne (c := 0x53#8) rfl hS), if_neg (hne (c := 0x55#8) rfl hU),
    if_neg (hne (c := 0x57#8) rfl hW), if_neg (hne (c := 0x57#8) rfl hW)]
  all_goals nofun

theorem decodeLetterLine_textPrepare {first last : Nat} (h : (Instr.txPrepare first last).wf = true) :
    decodeLetterLine (textPrepare first last) = .ok (.txPrepare first last) := by
  rw [textPrepare_eq_sectorText, sectorText, decodeLetterLine_of_head (by decide) (by decide) (by decide), ← sectorText,
    decodeSectorLine, splitSpaces_sectorText (by decide)]
  simp only [readDec_dec, if_true, h]

theorem decodeLetterLine_textErase {first last : Nat} (h : (Instr.txErase first last).wf = true) :
    decodeLetterLine (textErase first last) = .ok (.txErase first last) := by
  have hletter : ([0x45#8] : Bytes) ≠ [0x50#8] := by decide
  rw [textErase_eq_sectorText, sectorText, decodeLetterLine_of_head (by decide) (by decide) (by decide), ← sectorText,
    decodeSectorLine, splitSpaces_sectorText (by decide)]
  simp only [readDec_dec, if_true, if_neg hletter, h]

theorem decodeChecksumLine_textChecksum (sum : BitVec 32) : decodeChecksumLine (textChecksum sum) = .ok (.txChecksum sum) := by
  rw [decodeChecksumLine, textChecksum, readDec_dec]
  simp only [BitVec.ofNat_toNat, BitVec.setWidth_eq]
  exact if_pos sum.isLt

/-! ### Requests -/

/-- Settles O58: the select bytes decode to their rows, the fixed texts to their lines, and the texts with operands to the operands that
`dec` wrote. -/
theorem decodeOfEncodeIsTheInstruction : Obligations.DecodeOfEncodeIsTheInstruction := by
  intro i hwf
  cases i
  case encLine raw => exact ⟨_, rfl, if_pos hwf⟩
  case txPrepare first last => exact ⟨_, rfl, decodeLetterLine_textPrepare hwf⟩
  case txErase first last => exact ⟨_, rfl, decodeLetterLine_textErase hwf⟩
  case txDataLine line => exact ⟨_, rfl, if_pos hwf⟩
  case txChecksum sum => exact ⟨_, rfl, decodeChecksumLine_textChecksum sum⟩
  case execute | parseDec | encHalf | sendHalf | flushUnit => rfl
  all_goals exact ⟨_, rfl, rfl⟩

/-- A well-formed instruction that some port selects. -/
def Selectable (i : Instr) : Prop := i.wf = true ∧ encode i ≠ none

theorem decodeHostOp_selectable {bytes : Bytes} {i : Instr} (h : decodeHostOp bytes = .ok i) : Selectable i := by
  unfold decodeHostOp at h
  split at h
  · cases h
  · split at h
    case h_9 => cases h
    all_goals cases h; exact ⟨rfl, nofun⟩

theorem decodeTranscoder_selectable {bytes : Bytes} {i : Instr} (h : decodeTranscoder bytes = .ok i) : Selectable i := by
  unfold decodeTranscoder at h
  split at h
  · cases h
  · split at h
    · cases h; exact ⟨rfl, nofun⟩
    · cases h; exact ⟨rfl, nofun⟩
    · split at h
      next hwf => cases h; exact ⟨hwf, nofun⟩
      next => cases h
    · cases h; exact ⟨rfl, nofun⟩
    · cases h

theorem decodeSectorLine_selectable {text : Bytes} {i : Instr} (h : decodeSectorLine text = .ok i) : Selectable i := by
  unfold decodeSectorLine at h
  split at h
  · split at h
    · split at h
      · split at h
        next hwf => cases h; exact ⟨hwf, nofun⟩
        next => cases h
      · split at h
        · split at h
          next hwf => cases h; exact ⟨hwf, nofun⟩
          next => cases h
        · cases h
    · cases h
  · cases h

theorem decodeLineSelect_selectable {b : Byte} {i : Instr} (h : decodeLineSelect b = .ok i) : Selectable i := by
  unfold decodeLineSelect at h
  split at h
  case h_10 => cases h
  all_goals cases h; exact ⟨rfl, nofun⟩

theorem decodeLetterLine_selectable {bytes : Bytes} {i : Instr} (h : decodeLetterLine bytes = .ok i) : Selectable i := by
  unfold decodeLetterLine at h
  split at h
  · cases h
  · exact decodeLineSelect_selectable h
  · repeat' split at h
    case isFalse => exact decodeSectorLine_selectable h
    all_goals cases h; exact ⟨rfl, nofun⟩

theorem decodeDataLine_selectable {text : Bytes} {i : Instr} (h : decodeDataLine text = .ok i) : Selectable i := by
  unfold decodeDataLine at h
  split at h
  next hwf => cases h; exact ⟨hwf, nofun⟩
  next => cases h

theorem decodeChecksumLine_selectable {text : Bytes} {i : Instr} (h : decodeChecksumLine text = .ok i) : Selectable i := by
  unfold decodeChecksumLine at h
  split at h
  · split at h
    · cases h; exact ⟨rfl, nofun⟩
    · cases h
  · cases h

/-- Settles O59: each port's decoder answers only well-formed instructions that have a request. -/
theorem decodedInstructionsAreWellFormed : Obligations.DecodedInstructionsAreWellFormed := by
  rintro i ⟨port, bytes⟩ h
  cases port with
  | hostOp => exact decodeHostOp_selectable h
  | transcoder => exact decodeTranscoder_selectable h
  | letterLine => exact decodeLetterLine_selectable h
  | dataLine => exact decodeDataLine_selectable h
  | checksumLine => exact decodeChecksumLine_selectable h

/-- `op_sel` has no code above 7 (R52). -/
theorem decodeHostOp_of_seven_lt {b : Byte} (h : 7 < b.toNat) (x : Bytes) : decodeHostOp (b :: x) = .error .noSuchOperation := by
  obtain ⟨k, hk⟩ : ∃ k, b.toNat = k + 8 := ⟨b.toNat - 8, by omega⟩
  unfold decodeHostOp
  simp only [hk]
  exact congrArg Except.error (if_neg (by omega))

/-- `xc_sel` has no code above 3 (R53). -/
theorem decodeTranscoder_of_three_lt {b : Byte} (h : 3 < b.toNat) (x : Bytes) :
    decodeTranscoder (b :: x) = .error .noSuchFunction := by
  obtain ⟨k, hk⟩ : ∃ k, b.toNat = k + 4 := ⟨b.toNat - 4, by omega⟩
  unfold decodeTranscoder
  simp only [hk]
  exact congrArg Except.error (if_neg (by omega))

/-- Settles O60: the codes by computation, the other selects by their bounds. -/
theorem selectCodesNameTheirOperations : Obligations.SelectCodesNameTheirOperations :=
  ⟨rfl, rfl, rfl, rfl, rfl, fun _ h x => decodeHostOp_of_seven_lt h x, fun _ h x => decodeTranscoder_of_three_lt h x, rfl⟩

end Sys2Proof.Machine

namespace Sys2Proof.Machine

/-! ### Groups in arithmetic (R80 to R84) -/

/-- The characters of ENC6 by value (R81). -/
theorem enc6_eq_ofNat (v : BitVec 6) : enc6 v = if v.toNat = 0 then 0x60#8 else BitVec.ofNat 8 (v.toNat + 32) := by
  revert v; decide

/-- Settles O1: the four six-bit values as digits of the 24-bit number, each through ENC6. -/
theorem encGroupGivesTheFourCharacters : Obligations.EncGroupGivesTheFourCharacters := by
  intro b0 b1 b2 s w char
  obtain ⟨h0, h1, h2, h3⟩ := split_toNat b0 b1 b2
  rw [exec_encGroup, groupEncode, enc6_eq_ofNat, enc6_eq_ofNat, enc6_eq_ofNat, enc6_eq_ofNat, h0, h1, h2, h3]
  rfl

/-- DEC6 of a valid character, by value (R83). -/
theorem dec6_of_valid {c : Byte} (h : 33 ≤ c.toNat ∧ c.toNat ≤ 96) : dec6 c = some (BitVec.ofNat 6 ((c.toNat - 32) % 64)) := by
  rw [dec6_eq, if_pos h]

theorem groupDecode_of_valid {c0 c1 c2 c3 : Byte} (h0 : 33 ≤ c0.toNat ∧ c0.toNat ≤ 96) (h1 : 33 ≤ c1.toNat ∧ c1.toNat ≤ 96)
    (h2 : 33 ≤ c2.toNat ∧ c2.toNat ≤ 96) (h3 : 33 ≤ c3.toNat ∧ c3.toNat ≤ 96) :
    groupDecode c0 c1 c2 c3 = some (joinSix (BitVec.ofNat 6 ((c0.toNat - 32) % 64)) (BitVec.ofNat 6 ((c1.toNat - 32) % 64))
      (BitVec.ofNat 6 ((c2.toNat - 32) % 64)) (BitVec.ofNat 6 ((c3.toNat - 32) % 64))) := by
  rw [groupDecode, dec6_of_valid h0, dec6_of_valid h1, dec6_of_valid h2, dec6_of_valid h3]

/-- Any other character makes the group `invalid` (R84). -/
theorem groupDecode_eq_none {c0 c1 c2 c3 : Byte} (h : ¬ ∀ c ∈ [c0, c1, c2, c3], 0x21 ≤ c.toNat ∧ c.toNat ≤ 0x60) :
    groupDecode c0 c1 c2 c3 = none := by
  rcases groupDecode_spec c0 c1 c2 c3 with ⟨-, -, -, hvalid⟩ | ⟨hnone, -⟩
  · exact absurd hvalid h
  · exact hnone

theorem forall_mem_four {α : Type} {p : α → Prop} {a b c d : α} : (∀ x ∈ [a, b, c, d], p x) ↔ p a ∧ p b ∧ p c ∧ p d := by
  simp

/-- Settles O2: DEC6 by value, joined into the 24-bit number. -/
theorem decGroupGivesTheBytesOrInvalid : Obligations.DecGroupGivesTheBytesOrInvalid := by
  intro c0 c1 c2 c3 s ok val w
  refine ⟨fun ⟨h0, h1, h2, h3⟩ => ?_, fun h => ?_⟩
  · have hval (c : Byte) : (BitVec.ofNat 6 ((c.toNat - 32) % 64)).toNat = val c := by
      rw [BitVec.toNat_ofNat]
      exact Nat.mod_mod _ _
    rw [exec_decGroup, groupDecode_of_valid h0 h1 h2 h3, joinSix_eq_ofNat, hval, hval, hval, hval]
    rfl
  · rw [exec_decGroup, groupDecode_eq_none fun hall => h (forall_mem_four.1 hall)]
    rfl

/-- The bytes of four valid characters encode to these characters. -/
theorem groupEncode_of_groupDecode {c0 c1 c2 c3 b0 b1 b2 : Byte} (h : groupDecode c0 c1 c2 c3 = some [b0, b1, b2]) :
    groupEncode b0 b1 b2 = [c0, c1, c2, c3] := by
  rw [groupDecode] at h
  split at h
  next s0 s1 s2 s3 h0 h1 h2 h3 =>
    obtain ⟨e0, e1, e2, e3⟩ := split_of_joinSix s0 s1 s2 s3 b0 b1 b2 (Option.some.inj h)
    rw [groupEncode, e0, e1, e2, e3, enc6_of_dec6 c0 s0 h0, enc6_of_dec6 c1 s1 h1, enc6_of_dec6 c2 s2 h2, enc6_of_dec6 c3 s3 h3]
  next => cases h

/-- Four valid characters decode to three bytes. -/
theorem exists_groupDecode {c0 c1 c2 c3 : Byte} (h : ∀ c ∈ [c0, c1, c2, c3], 0x21 ≤ c.toNat ∧ c.toNat ≤ 0x60) :
    ∃ b0 b1 b2, groupDecode c0 c1 c2 c3 = some [b0, b1, b2] := by
  rcases groupDecode_spec c0 c1 c2 c3 with ⟨g, hg, hlen, -⟩ | ⟨-, hbad⟩
  · obtain ⟨b0, b1, b2, rfl⟩ := List.length_eq_three.1 hlen
    exact ⟨b0, b1, b2, hg⟩
  · exact absurd h hbad

/-- Settles O4: ENC6 undoes DEC6 on valid characters, and SPLIT undoes the joining. -/
theorem validCharactersReencodeToThemselves : Obligations.ValidCharactersReencodeToThemselves := by
  intro c0 c1 c2 c3 s h
  obtain ⟨b0, b1, b2, hdec⟩ := exists_groupDecode h
  refine ⟨b0, b1, b2, ?_, ?_⟩
  · rw [exec_decGroup, hdec]; rfl
  · rw [exec_encGroup, groupEncode_of_groupDecode hdec]; rfl

/-! ### Lines (R85, R86) -/

/-- Settles O5: the length byte, and the body group by group. -/
theorem encLineGivesLengthByteAndGroups : Obligations.EncLineGivesLengthByteAndGroups := by
  intro raw s h1 h2
  refine ⟨_, exec_encLine_of_length h1 h2 s, lineEncode_length raw, rfl, fun g hg => ?_⟩
  have hdrop : (lineEncode raw).drop (1 + 4 * g) = (bodyEncode raw).drop (4 * g) := by
    rw [lineEncode, Nat.add_comm, List.drop_succ_cons]
  rw [exec_encGroup, hdrop, bodyEncode_group raw g hg]
  rfl

/-- Settles O6: the domain test of the port. -/
theorem encLineRefusesOtherLengths : Obligations.EncLineRefusesOtherLengths := by
  intro raw s h
  have hdomain : ¬ (1 ≤ raw.length ∧ raw.length ≤ lineMax) := by
    rintro ⟨h1, h2⟩
    rcases h with h | h
    · omega
    · exact absurd h2 (Nat.not_le.2 h)
  exact if_neg hdomain

theorem exec_decLine (line : Bytes) (s : State) :
    exec (.decLine line) s = .next (returnResult (decoderOutput (lineDecode line)) s) := rfl

/-- DEC_LINE on the port undoes ENC_LINE. -/
theorem exec_decLine_lineEncode {raw : Bytes} (h1 : 1 ≤ raw.length) (h2 : raw.length ≤ 45) (s : State) :
    exec (.decLine (lineEncode raw)) s = .next (returnResult (.bytes raw) s) := by
  rw [exec_decLine, lineDecode_lineEncode raw h1 h2, decoderOutput]

/-- Settles O7: `lineDecode` undoes `lineEncode`, on the port. -/
theorem decLineRecoversEncLine : Obligations.DecLineRecoversEncLine :=
  fun _ s h1 h2 => ⟨_, exec_encLine_of_length h1 h2 s, exec_decLine_lineEncode h1 h2 s⟩

/-- DEC_LINE's three tests are passed exactly by a length byte in range and a body of the length it calls for (R86). -/
theorem lineDecode_of_length {l : Byte} {body : Bytes} (hlow : 0x21 ≤ l.toNat) (hhigh : l.toNat ≤ 0x4D)
    (hlen : body.length = 4 * ((l.toNat - 32 + 2) / 3)) :
    lineDecode (l :: body) = (bodyDecode body).map (List.take (l.toNat - 32)) := by
  have hrange : ¬ (decide (l.toNat < 0x21) || decide (0x4D < l.toNat)) = true := by simp; omega
  have hbody : ¬ (body.length + 1 != lineLen (l.toNat - 0x20)) = true := by simp [lineLen]; omega
  rw [lineDecode, if_neg hrange, if_neg hbody]

/-- A line that DEC_LINE accepts passed all its tests. -/
theorem valid_of_lineDecode {l : Byte} {body raw : Bytes} (h : lineDecode (l :: body) = some raw) :
    0x21 ≤ l.toNat ∧ l.toNat ≤ 0x4D ∧ body.length = 4 * ((l.toNat - 32 + 2) / 3) ∧ ∀ c ∈ body, 0x21 ≤ c.toNat ∧ c.toNat ≤ 0x60 := by
  rw [lineDecode] at h
  split at h
  next => cases h
  next hrange =>
    split at h
    next => cases h
    next hbody =>
      have hlen : body.length + 1 = lineLen (l.toNat - 0x20) := by simpa using hbody
      have hbounds : 0x21 ≤ l.toNat ∧ l.toNat ≤ 0x4D := by simp at hrange; omega
      rcases bodyDecode_spec body with ⟨-, -, -, -, hchars⟩ | ⟨hnone, -⟩
      · exact ⟨hbounds.1, hbounds.2, by rw [lineLen] at hlen; omega, hchars⟩
      · rw [hnone] at h; cases h

/-- Group `g` of an accepted body: DEC_GROUP's three bytes, of which the line keeps those below its length. -/
theorem groups_of_bodyDecode {body d : Bytes} (hd : bodyDecode body = some d) (hlen : d.length = 3 * (body.length / 4)) {g n : Nat}
    (hg : g < body.length / 4) :
    ∃ b0 b1 b2, groupDecode (body.getD (4 * g) 0#8) (body.getD (4 * g + 1) 0#8) (body.getD (4 * g + 2) 0#8)
        (body.getD (4 * g + 3) 0#8) = some [b0, b1, b2]
      ∧ ((d.take n).drop (3 * g)).take 3 = [b0, b1, b2].take (n - 3 * g) := by
  have hgroup := bodyDecode_group body d hd g hg
  have hthree : ((d.drop (3 * g)).take 3).length = 3 := by rw [List.length_take, List.length_drop]; omega
  obtain ⟨b0, b1, b2, hbytes⟩ := List.length_eq_three.1 hthree
  refine ⟨b0, b1, b2, hbytes ▸ hgroup, ?_⟩
  rw [← hbytes, List.drop_take, List.take_take, List.take_take, Nat.min_comm]

/-- Settles O8: DEC_LINE's tests, its result cut from the decoded groups, and `invalid` when a test fails. -/
theorem decLineAcceptsExactlyTheLines : Obligations.DecLineAcceptsExactlyTheLines := by
  intro line s good
  refine ⟨fun l body ⟨hline, hlow, hhigh, hlen, hchars⟩ => ?_, fun hbad => ?_⟩
  · rcases bodyDecode_spec body with ⟨d, hd, -, hdlen, -⟩ | ⟨-, hfail⟩
    · have hraw : (d.take (l.toNat - 32)).length = l.toNat - 32 := by rw [List.length_take]; omega
      refine ⟨d.take (l.toNat - 32), ?_, by omega, fun g hg => ?_⟩
      · rw [exec_decLine, hline, lineDecode_of_length hlow hhigh hlen, hd]
        rfl
      · rw [hraw] at hg ⊢
        obtain ⟨b0, b1, b2, hgroup, hbytes⟩ := groups_of_bodyDecode (n := l.toNat - 32) hd hdlen (g := g) (by omega)
        refine ⟨b0, b1, b2, ?_, hbytes⟩
        rw [exec_decGroup, hgroup]
        rfl
    · exact absurd ⟨by omega, hchars⟩ hfail
  · have hnone : lineDecode line = none := by
      cases line with
      | nil => rfl
      | cons l body =>
        cases hdec : lineDecode (l :: body) with
        | none => rfl
        | some raw => exact absurd ⟨l, body, rfl, valid_of_lineDecode hdec⟩ hbad
    rw [exec_decLine, hnone]
    rfl

/-! ### Halves (R87) -/

theorem exec_encHalf (half : Bytes) (s : State) : exec (.encHalf half) s = .next (returnResult (.lines (halfEncode half)) s) := rfl

theorem halfEncode_getElem_lt {half : Bytes} {k : Nat} (hk : k < 11) :
    (halfEncode half)[k]? = some (lineEncode ((half.drop (45 * k)).take 45)) := by
  rw [halfEncode, List.getElem?_append_left (by simpa using hk), List.getElem?_map, List.getElem?_range hk, Option.map_some]

theorem halfEncode_getElem_last {half : Bytes} : (halfEncode half)[11]? = some (lineEncode ((half.drop 495).take 17)) := by
  rw [halfEncode, List.getElem?_append_right (by simp)]
  simp

/-- What is said of each line of a half: its length, its length byte, and that both line functions read it as `raw`. -/
theorem line_of_slice {raw : Bytes} {n : Nat} (hraw : raw.length = n) (h1 : 1 ≤ n) (h2 : n ≤ 45) (s : State) :
    (lineEncode raw).length = lineLen n ∧ (lineEncode raw).head? = some (BitVec.ofNat 8 (n + 0x20))
      ∧ exec (.encLine raw) s = .next (returnResult (.bytes (lineEncode raw)) s)
      ∧ exec (.decLine (lineEncode raw)) s = .next (returnResult (.bytes raw) s) := by
  subst hraw
  exact ⟨lineEncode_length raw, rfl, exec_encLine_of_length h1 h2 s, exec_decLine_lineEncode h1 h2 s⟩

/-- Settles O9: eleven lines of 45 bytes and one of the last 17. -/
theorem encHalfSplitsIntoTwelveLines : Obligations.EncHalfSplitsIntoTwelveLines := by
  intro half s hlen
  refine ⟨halfEncode half, exec_encHalf half s, halfEncode_length half, ?total, fun k hk => ?full, ?last⟩
  case total => rw [halfEncode_lengths hlen]; rfl
  case full =>
    have hraw : ((half.drop (45 * k)).take 45).length = 45 := by rw [List.length_take, List.length_drop, hlen]; omega
    exact ⟨_, halfEncode_getElem_lt hk, line_of_slice hraw (by decide) (by decide) s⟩
  case last =>
    have hraw : (half.drop 495).length = 17 := by rw [List.length_drop, hlen]
    have hline : (halfEncode half)[11]? = some (lineEncode (half.drop 495)) := by
      rw [halfEncode_getElem_last, List.take_of_length_le hraw.le]
    exact ⟨_, hline, line_of_slice hraw (by decide) (by decide) s⟩

/-! ### PARSE_DEC (R136) -/

theorem exec_parseDec (field : Bytes) (s : State) : exec (.parseDec field) s = .next (returnResult (.number (parseDigits field)) s) := rfl

/-- The digit values of a field. -/
theorem digit_lt_ten {field : Bytes} {d : Nat}
    (h : d ∈ (field.filter fun b => 0x30 ≤ b.toNat && b.toNat ≤ 0x39).map fun b => b.toNat - 0x30) : d < 10 := by
  obtain ⟨b, hb, rfl⟩ := List.mem_map.1 h
  have hdigit := (List.mem_filter.1 hb).2
  simp at hdigit
  omega

/-- The number of a field has at most as many digits as the field has bytes. -/
theorem ofDigits_field_lt (field : Bytes) :
    Nat.ofDigits 10 ((field.filter fun b => 0x30 ≤ b.toNat && b.toNat ≤ 0x39).map fun b => b.toNat - 0x30).reverse
      < 10 ^ field.length := by
  refine (Nat.ofDigits_lt_base_pow_length (by decide) fun d hd => digit_lt_ten (List.mem_reverse.1 hd)).trans_le ?_
  rw [List.length_reverse, List.length_map]
  exact Nat.pow_le_pow_right (by decide) (List.length_filter_le _ _)

/-- Settles O10: the digit loop is `Nat.ofDigits` on the digit characters, at most ten of them in a 10-byte field. -/
theorem parseDecReadsTheDigitsOnly : Obligations.ParseDecReadsTheDigitsOnly := by
  intro field s digits
  refine ⟨?_, fun h => ?_⟩
  · rw [exec_parseDec, parseDigits_eq]
    rfl
  · have hlt := ofDigits_field_lt field
    rw [h] at hlt
    exact Nat.le_of_lt_succ hlt

end Sys2Proof.Machine

namespace Sys2Proof.Machine

/-! ### EXECUTE (R100 to R106) -/

theorem exec_execute (text : Bytes) (term : Bool) (shape : Shape) (why : Reason) (s : State) :
    exec (.execute text term shape why) s = (transact text term shape why s).report (acceptShape shape) := rfl

/-- EXECUTE on a full answer in the checked regions of its shape. -/
theorem exec_execute_of_match {text : Bytes} {shape : Shape} {s : State} {r : Bytes} {rest : List RxItem} (term : Bool) (why : Reason)
    (hl : r.length = shapeLength shape text s.cfg.sepLen) (hm : shapeMatches shape text s.cfg.sepLen r = true)
    (hx : s.rx = feed r rest) :
    exec (.execute text term shape why) s = .next (s.afterExchanges [⟨sentBytes text term s.cfg, r⟩] rest
      (acceptShape shape (shapeField shape text s.cfg.sepLen r))) := by
  rw [exec_execute, transact_answered text term shape why s r rest hl hx, if_pos hm]
  rfl

/-- EXECUTE on a full answer outside them. -/
theorem exec_execute_of_mismatch {text : Bytes} {shape : Shape} {s : State} {r : Bytes} {rest : List RxItem} (term : Bool)
    (why : Reason) (hl : r.length = shapeLength shape text s.cfg.sepLen) (hm : ¬ shapeMatches shape text s.cfg.sepLen r = true)
    (hx : s.rx = feed r rest) :
    exec (.execute text term shape why) s =
      .next (s.afterExchanges [⟨sentBytes text term s.cfg, r⟩] rest (.rejected why)) := by
  rw [exec_execute, transact_answered text term shape why s r rest hl hx, if_neg hm]
  rfl

theorem shapeMatches_literal (lit text r : Bytes) (n : Nat) : shapeMatches (.literal lit) text n r = true ↔ r = lit := by
  simp [shapeMatches]

theorem shapeMatches_echo (text r : Bytes) (n : Nat) : shapeMatches .echo text n r = true ↔ r = text := by
  simp [shapeMatches]

/-- The field is what stands behind the second separator (R106). -/
theorem shapeField_append (text sep sep' field : Bytes) (tok : Token) (n f : Nat) (hs : sep.length = n) (hs' : sep'.length = n) :
    shapeField (.echoStatusField tok f) text n (text ++ sep ++ tokenBytes tok ++ sep' ++ field) = field := by
  have hfront : text.length + n + (tokenBytes tok).length + n = (text ++ sep ++ tokenBytes tok ++ sep').length := by
    simp only [List.length_append, hs, hs']
  rw [shapeField, hfront, List.drop_left]

theorem length_echoStatus (text sep : Bytes) (tok : Token) :
    (text ++ sep ++ tokenBytes tok).length = text.length + sep.length + (tokenBytes tok).length := by
  simp only [List.length_append]

theorem length_echoStatusField (text sep sep' field : Bytes) (tok : Token) :
    (text ++ sep ++ tokenBytes tok ++ sep' ++ field).length =
      text.length + sep.length + (tokenBytes tok).length + sep'.length + field.length := by
  simp only [List.length_append]

/-- Settles O11: in each of the four shapes the answer has the shape's length and matches it; only the field shape hands bytes back. -/
theorem executeAcceptsMatchingAnswers : Obligations.ExecuteAcceptsMatchingAnswers := by
  intro text term why s rest tok sep sep' lit field _ _ hs hs' sent after
  refine ⟨fun hx => ?literal, fun hx => ?echo, fun hx => ?status, fun hx => ?statusField⟩
  case literal => exact exec_execute_of_match term why rfl ((shapeMatches_literal ..).2 rfl) hx
  case echo => exact exec_execute_of_match term why rfl ((shapeMatches_echo ..).2 rfl) hx
  case status =>
    have hl : (text ++ sep ++ tokenBytes tok).length = text.length + s.cfg.sepLen + (tokenBytes tok).length := by
      rw [length_echoStatus, hs]
    exact exec_execute_of_match term why hl ((shapeMatches_echoStatus _ _ _ _ hl).2 ⟨sep, hs, rfl⟩) hx
  case statusField =>
    have hl : (text ++ sep ++ tokenBytes tok ++ sep' ++ field).length =
        text.length + s.cfg.sepLen + (tokenBytes tok).length + s.cfg.sepLen + field.length := by
      rw [length_echoStatusField, hs, hs']
    have hm := (shapeMatches_field _ _ _ _ _ hl).2 ⟨sep, sep', field, hs, hs', rfl, rfl⟩
    rw [exec_execute_of_match term why hl hm hx, shapeField_append text sep sep' field tok _ _ hs hs']
    rfl

/-- Settles O12: in each of the four shapes the answer has the shape's length and does not match it. -/
theorem executeRejectsMismatchingAnswers : Obligations.ExecuteRejectsMismatchingAnswers := by
  intro text term why s rest tok lit r f _ _ hx sent after
  refine ⟨fun hl hne => ?literal, fun hl hne => ?echo, fun hl hne => ?status, fun hl hne => ?statusField⟩
  case literal => exact exec_execute_of_mismatch term why hl (fun hm => hne ((shapeMatches_literal ..).1 hm)) hx
  case echo => exact exec_execute_of_mismatch term why hl (fun hm => hne ((shapeMatches_echo ..).1 hm)) hx
  case status =>
    refine exec_execute_of_mismatch term why hl (fun hm => ?_) hx
    obtain ⟨sep, hs, hr⟩ := (shapeMatches_echoStatus _ _ _ _ hl).1 hm
    exact hne sep hs hr
  case statusField =>
    refine exec_execute_of_mismatch term why hl (fun hm => ?_) hx
    obtain ⟨sep, sep', field, hs, hs', hf, hr⟩ := (shapeMatches_field _ _ _ _ _ hl).1 hm
    exact hne sep sep' field hs hs' hf hr

/-! ### The line rows -/

/-- The start token and the version line as calls of EXECUTE. -/
theorem exec_txStart (s : State) :
    exec .txStart s = exec (.execute [0x3F#8] false (.literal syncString) .handshakeFailure) s := rfl

theorem exec_txVersion (s : State) :
    exec .txVersion s = exec (.execute [0x4A#8] true (.echoStatusField .proto 10) .transactionMismatch) s := rfl

theorem acceptShape_catalogue (l : CatalogueLine) : acceptShape l.shape = acceptPlain := by
  obtain ⟨text, token, why⟩ := l
  cases token with
  | none => rfl
  | some tok => rfl

/-- A catalogue line run on its own is one call of EXECUTE. -/
theorem exec_execute_line (l : CatalogueLine) (s : State) :
    exec (.execute l.text true l.shape l.why) s = (l.run s).report acceptPlain := by
  rw [exec_execute, acceptShape_catalogue]
  rfl

/-- Settles O13: the rows without text operands by definition, the others by their texts in the catalogue. -/
theorem transactionsAreCallsOfExecute : Obligations.TransactionsAreCallsOfExecute := by
  intro s first last line sum
  have hrows := fun p hp => (exec_line s first last line sum p hp).trans (exec_execute_line p.2 s).symm
  simp only [List.forall_mem_cons] at hrows
  obtain ⟨hsyn, hack, hunlock, hprepare, herase, hram1, hram2, hdata, hsum, hcopy, -⟩ := hrows
  exact ⟨exec_txStart s, hsyn, hack, exec_txVersion s, hunlock, hprepare, herase, hram1, hram2, hdata, hsum, hcopy⟩

/-- Settles O14: each row is its catalogue line, which a match completes. -/
theorem transactionsCompleteOnAMatch : Obligations.TransactionsCompleteOnAMatch := by
  intro s sep rest first last line sum hs p hp hx
  rw [exec_line s first last line sum p hp, p.2.run_ok s sep rest hs hx]
  rfl

/-- Settles O15: each row is its catalogue line, which a mismatch rejects with the line's reason. -/
theorem transactionsRejectOnAMismatch : Obligations.TransactionsRejectOnAMismatch := by
  intro s r rest first last line sum hx p hp hm
  rw [exec_line s first last line sum p hp, p.2.run_bad s r rest hm hx]
  rfl

/-- Settles O16: the two transactions that are no catalogue line, each on a match. -/
theorem startAndVersionTransactionsComplete : Obligations.StartAndVersionTransactionsComplete := by
  intro s sep sep' field rest hs hs' hf
  refine ⟨fun hx => ?_, fun hx => ?_⟩
  · have hrun : exec .txStart s = (runTxStart s).report acceptPlain := rfl
    rw [hrun, runTxStart_ok s rest hx]
    rfl
  · have hrun : exec .txVersion s = (runTxVersion s).report .acceptedField := rfl
    rw [hrun, runTxVersion_ok s sep sep' field rest hs hs' hf hx]
    rfl

/-! ### Timeouts and silence (R102, R222) -/

/-- The receive of a transaction meets the stream as it stood before the send. -/
theorem transact_eq (text : Bytes) (term : Bool) (shape : Shape) (why : Reason) (s : State) :
    transact text term shape why s =
      (recv (shapeLength shape text s.cfg.sepLen) (send (sentBytes text term s.cfg) s)).andThen fun r s' =>
        if shapeMatches shape text s'.cfg.sepLen r then .ok (shapeField shape text s'.cfg.sepLen r) s' else .raise why s' := by
  cases term with
  | false => rfl
  | true => rfl

theorem recv_of_timedOut {n : Nat} {s : State} {rest : List RxItem} (h : arrival n s.rx = .timedOut rest) :
    recv n s = .raise .transportTimeout { s with rx := rest, trace := s.trace ++ [.recv n none] } := by
  rw [recv, h]

theorem recv_of_silence_bounded {n : Nat} {s : State} (h : arrival n s.rx = .silence) (hb : s.cfg.rxTimeoutSet = true) :
    recv n s = .raise .transportTimeout { s with rx := [], trace := s.trace ++ [.recv n none] } := by
  rw [recv, h]
  exact if_pos hb

theorem recv_of_silence_unbounded {n : Nat} {s : State} (h : arrival n s.rx = .silence) (hb : s.cfg.rxTimeoutSet = false) :
    recv n s = .hang := by
  rw [recv, h]
  exact if_neg (by rw [hb]; exact Bool.false_ne_true)

/-- The two ways a receive times out: a gap, or the end of the stream under a bound. -/
theorem recv_of_short {n : Nat} {s : State} {part : Bytes} {rest : List RxItem} (hp : part.length < n)
    (hx : s.rx = feed part (.gap :: rest) ∨ (s.rx = feed part [] ∧ rest = [] ∧ s.cfg.rxTimeoutSet = true)) :
    recv n s = .raise .transportTimeout { s with rx := rest, trace := s.trace ++ [.recv n none] } := by
  rcases hx with hx | ⟨hx, rfl, hb⟩
  · exact recv_of_timedOut (by rw [hx, arrival_gap part n rest hp])
  · exact recv_of_silence_bounded (by rw [hx, arrival_silence part n hp]) hb

/-- Settles O17: the receive raises before the comparison, so the reason of the call is never reached. -/
theorem timeoutRejectsAnyTransaction : Obligations.TimeoutRejectsAnyTransaction := by
  intro text term shape why s part rest hp hx
  have hrecv := recv_of_short (s := send (sentBytes text term s.cfg) s) hp hx
  rw [exec_execute, transact_eq, hrecv, Run.andThen_raise, Run.report_raise, send_trace, List.append_assoc]
  rfl

/-- Settles O18: the receive hangs, and with it the transaction. -/
theorem silenceWithoutABoundHangs : Obligations.SilenceWithoutABoundHangs := by
  intro text term shape why s part hb hx hp
  have harrival : arrival (shapeLength shape text s.cfg.sepLen) (send (sentBytes text term s.cfg) s).rx = .silence := by
    rw [send_rx, hx, arrival_silence part _ hp]
  rw [exec_execute, transact_eq, recv_of_silence_unbounded harrival hb]
  rfl

/-! ### Completion under a receive bound (R200, R222) -/

/-- The run ends, in a state where a receive bound is still in force. -/
inductive Run.Answers {α : Type} : Run α → Prop
  | ok {a : α} {s : State} (hb : s.cfg.rxTimeoutSet = true) : Run.Answers (.ok a s)
  | raise {r : Reason} {s : State} (hb : s.cfg.rxTimeoutSet = true) : Run.Answers (.raise r s)

theorem Run.Answers.andThen {α β : Type} {x : Run α} {f : α → State → Run β} (hx : x.Answers)
    (hf : ∀ a s, s.cfg.rxTimeoutSet = true → (f a s).Answers) : (x.andThen f).Answers := by
  cases hx with
  | ok hb => exact hf _ _ hb
  | raise hb => exact .raise hb

theorem Run.Answers.ite {α : Type} {c : Prop} [Decidable c] {x y : Run α} (hx : x.Answers) (hy : y.Answers) :
    (if c then x else y).Answers := by
  split
  · exact hx
  · exact hy

theorem Run.Answers.report {α : Type} {x : Run α} (hx : x.Answers) (f : α → Output) : ∃ t, x.report f = .next t := by
  cases hx with
  | ok hb => exact ⟨_, rfl⟩
  | raise hb => exact ⟨_, rfl⟩

theorem transact_answers (text : Bytes) (term : Bool) (shape : Shape) (why : Reason) {s : State} (hb : s.cfg.rxTimeoutSet = true) :
    (transact text term shape why s).Answers := by
  rcases transact_cases text term shape why s with ⟨r, rest, -, -, -, h⟩ | ⟨r, rest, -, -, -, h⟩ | ⟨e, rest, -, h⟩ | ⟨hb', -⟩
  · rw [h]; exact .ok hb
  · rw [h]; exact .raise hb
  · rw [h]; exact .raise hb
  · rw [hb] at hb'; cases hb'

theorem requireSession_answers {s : State} (hb : s.cfg.rxTimeoutSet = true) : (requireSession s).Answers :=
  .ite (.ok hb) (.raise hb)

theorem runLines_answers (ls : List CatalogueLine) {s : State} (hb : s.cfg.rxTimeoutSet = true) : (runLines ls s).Answers := by
  induction ls generalizing s with
  | nil => exact .ok hb
  | cons l ls ih => exact (transact_answers _ _ _ _ hb).andThen fun _ _ hb' => ih hb'

theorem runFlushUnit_answers {s : State} (hb : s.cfg.rxTimeoutSet = true) : (runFlushUnit s).Answers := by
  rw [runFlushUnit_eq]
  exact runLines_answers _ hb

theorem handshakeStart_answers {s : State} (hb : s.cfg.rxTimeoutSet = true) : (handshakeStart s).Answers :=
  .ite ((transact_answers _ _ _ _ hb).andThen fun _ _ hb' => .ok hb') (.ok hb)

theorem handshakeSyn_answers {s : State} (hb : s.cfg.rxTimeoutSet = true) : (handshakeSyn s).Answers :=
  .ite ((transact_answers _ _ _ _ hb).andThen fun _ _ hb' => .ok hb') (.ok hb)

theorem handshakeAck_answers {s : State} (hb : s.cfg.rxTimeoutSet = true) : (handshakeAck s).Answers :=
  .ite ((transact_answers _ _ _ _ hb).andThen fun _ _ hb' => .ok hb') (.ok hb)

theorem runHandshake_answers {s : State} (hb : s.cfg.rxTimeoutSet = true) : (runHandshake s).Answers :=
  (requireSession_answers hb).andThen fun _ _ hb1 =>
  (handshakeStart_answers hb1).andThen fun _ _ hb2 =>
  (handshakeSyn_answers hb2).andThen fun _ _ hb3 => handshakeAck_answers hb3

theorem runVersion_answers {s : State} (hb : s.cfg.rxTimeoutSet = true) : (runVersion s).Answers :=
  (requireSession_answers hb).andThen fun _ _ hb1 =>
  (transact_answers _ _ _ _ hb1).andThen fun _ _ hb2 => .ite (.raise hb2) (.ok hb2)

theorem runPrepare_answers {s : State} (hb : s.cfg.rxTimeoutSet = true) : (runPrepare s).Answers :=
  (requireSession_answers hb).andThen fun _ _ hb1 =>
  (transact_answers _ _ _ _ hb1).andThen fun _ _ hb2 =>
  (transact_answers _ _ _ _ hb2).andThen fun _ _ hb3 =>
  (transact_answers _ _ _ _ hb3).andThen fun _ _ hb4 => .ok hb4

theorem runStart_answers {s : State} (hb : s.cfg.rxTimeoutSet = true) : (runStart s).Answers :=
  (runHandshake_answers (s := openState s) hb).andThen fun _ _ hb1 =>
  (runVersion_answers hb1).andThen fun _ _ hb2 =>
  (runPrepare_answers hb2).andThen fun _ _ hb3 => .ok hb3

theorem abortFlush_answers {x : Run Unit} (hx : x.Answers) : (abortFlush x).Answers := by
  cases hx with
  | ok hb => exact .ok hb
  | raise hb => exact .raise hb

theorem runOverflow_answers (data : Bytes) {s : State} (hb : s.cfg.rxTimeoutSet = true) : (runOverflow data s).Answers :=
  .ite (.raise hb) ((abortFlush_answers (runFlushUnit_answers (s := topUp data s) hb)).andThen fun _ _ hb' => .ok hb')

theorem runWrite_answers (record : Bytes) {s : State} (hb : s.cfg.rxTimeoutSet = true) : (runWrite record s).Answers :=
  (requireSession_answers hb).andThen fun _ _ hb1 => .ite (.raise hb1) (.ite (runOverflow_answers _ hb1) (.ok hb1))

theorem runFinish_answers {s : State} (hb : s.cfg.rxTimeoutSet = true) : (runFinish s).Answers :=
  (requireSession_answers hb).andThen fun _ _ hb1 =>
  .ite (.ok hb1) (.ite (.raise hb1) ((runFlushUnit_answers hb1).andThen fun _ _ hb2 => .ok hb2))

theorem runSendHalf_answers (h : Half) {s : State} (hb : s.cfg.rxTimeoutSet = true) : (runSendHalf h s).Answers := by
  rw [runSendHalf_eq]
  exact runLines_answers _ hb

/-- Settles O19: no run hangs while a bound is in force, and every other instruction answers without receiving. -/
theorem everyInstructionAnswersUnderABound : Obligations.EveryInstructionAnswersUnderABound := by
  intro i s hb hraw
  cases i
  case encLine raw =>
    obtain ⟨h1, h2⟩ := hraw raw rfl
    exact ⟨_, exec_encLine_of_length h1 h2 s⟩
  case handshake => exact (runHandshake_answers hb).report _
  case version => exact (runVersion_answers hb).report _
  case prepare => exact (runPrepare_answers hb).report _
  case start => exact (runStart_answers hb).report _
  case write record => exact (runWrite_answers record hb).report _
  case finish => exact (runFinish_answers hb).report _
  case sendHalf h => exact (runSendHalf_answers h hb).report _
  case flushUnit => exact (runFlushUnit_answers hb).report _
  case openSession | closeSession | encGroup | decGroup | decLine | parseDec | encHalf => exact ⟨_, rfl⟩
  all_goals exact (transact_answers _ _ _ _ hb).report _

end Sys2Proof.Machine

namespace Sys2Proof.Machine

/-! ### Operations that need a session (R191) -/

theorem requireSession_none {s : State} (hv : s.valid = false) : requireSession s = .raise .noSession s := by
  rw [requireSession, hv]
  exact if_neg Bool.false_ne_true

/-- Whatever an operation would do, without a session it is rejected on the state as it is. -/
theorem report_without_session {α : Type} {s : State} (hv : s.valid = false) (body : Unit → State → Run α) (accept : α → Output) :
    ((requireSession s).andThen body).report accept = .next (takeRejection .noSession s) := by
  rw [requireSession_none hv, Run.andThen_raise, Run.report_raise]

/-- Settles O24: each of the five operations begins with the session test. -/
theorem noSessionRejectsFiveOperations : Obligations.NoSessionRejectsFiveOperations := by
  intro s record hv i hi
  simp only [List.mem_cons, List.not_mem_nil, or_false] at hi
  rcases hi with rfl | rfl | rfl | rfl | rfl
  · exact report_without_session hv _ acceptUnit
  · exact report_without_session hv _ .acceptedVersion
  · exact report_without_session hv _ acceptUnit
  · exact report_without_session hv _ acceptUnit
  · exact report_without_session hv _ acceptUnit

/-- Settles O21: CLOSE is one register update and its result. -/
theorem closeClearsValidOnly : Obligations.CloseClearsValidOnly := fun _ => rfl

/-! ### HANDSHAKE, one transition at a time (R131 to R134) -/

theorem exec_handshake (s : State) : exec .handshake s = (runHandshake s).report acceptUnit := rfl

theorem runHandshake_of_session {s : State} (hv : s.valid = true) :
    runHandshake s = (handshakeStart s).andThen fun _ s2 => (handshakeSyn s2).andThen fun _ s3 => handshakeAck s3 := by
  rw [runHandshake, requireSession_ok s hv, Run.andThen_ok]

theorem handshakeStart_of_ne {s : State} (h : s.hs ≠ .start) : handshakeStart s = .ok () s := if_neg h

theorem handshakeSyn_of_ne {s : State} (h : s.hs ≠ .syn) : handshakeSyn s = .ok () s := if_neg h

theorem handshakeAck_of_ne {s : State} (h : s.hs ≠ .ack) : handshakeAck s = .ok () s := if_neg h

theorem TransportOnly.valid_eq {s t : State} (h : TransportOnly s t) : t.valid = s.valid := by
  obtain ⟨-, -, -, -, hvalid⟩ := h.registers
  exact hvalid

/-- From START the pass is the start token and then the pass from SYN. -/
theorem runHandshake_of_start {s : State} (hv : s.valid = true) (hh : s.hs = .start) :
    runHandshake s = (runTxStart s).andThen fun _ s' => runHandshake { s' with hs := .syn } := by
  rw [runHandshake_of_session hv, handshakeStart, if_pos hh, Run.andThen_assoc]
  refine Run.andThen_congr (runTxStart_leaves s) fun _ t ht => ?_
  have hvt : t.valid = true := ht.valid_eq.trans hv
  rw [Run.andThen_ok, runHandshake_of_session (s := { t with hs := .syn }) hvt,
    handshakeStart_of_ne (s := { t with hs := .syn }) nofun, Run.andThen_ok]

theorem runHandshake_of_syn {s : State} (hv : s.valid = true) (hh : s.hs = .syn) :
    runHandshake s = (lineSyncAck.run s).andThen fun _ s' => runHandshake { s' with hs := .ack } := by
  have hrun : runTxSyncAck s = lineSyncAck.run s := rfl
  rw [runHandshake_of_session hv, handshakeStart_of_ne (by rw [hh]; nofun), Run.andThen_ok, handshakeSyn, if_pos hh, hrun,
    Run.andThen_assoc]
  refine Run.andThen_congr (lineSyncAck.run_leaves s) fun _ t ht => ?_
  have hvt : t.valid = true := ht.valid_eq.trans hv
  rw [Run.andThen_ok, runHandshake_of_session (s := { t with hs := .ack }) hvt,
    handshakeStart_of_ne (s := { t with hs := .ack }) nofun, Run.andThen_ok,
    handshakeSyn_of_ne (s := { t with hs := .ack }) nofun, Run.andThen_ok]

theorem runHandshake_of_successful {s : State} (hv : s.valid = true) (hh : s.hs = .successful) : runHandshake s = .ok () s := by
  rw [runHandshake_of_session hv, handshakeStart_of_ne (by rw [hh]; nofun), Run.andThen_ok,
    handshakeSyn_of_ne (by rw [hh]; nofun), Run.andThen_ok, handshakeAck_of_ne (by rw [hh]; nofun)]

theorem runHandshake_of_ack {s : State} (hv : s.valid = true) (hh : s.hs = .ack) :
    runHandshake s = (lineAckVal.run s).andThen fun _ s' => runHandshake { s' with hs := .successful } := by
  have hrun : runTxAckVal s = lineAckVal.run s := rfl
  rw [runHandshake_of_session hv, handshakeStart_of_ne (by rw [hh]; nofun), Run.andThen_ok,
    handshakeSyn_of_ne (by rw [hh]; nofun), Run.andThen_ok, handshakeAck, if_pos hh, hrun]
  refine Run.andThen_congr (lineAckVal.run_leaves s) fun _ t ht => ?_
  have hvt : t.valid = true := ht.valid_eq.trans hv
  rw [runHandshake_of_successful (s := { t with hs := .successful }) hvt rfl]

/-- `s` with `hs` at `h` after the exchanges `xs`. -/
def State.shaken (s : State) (h : HandshakeState) (xs : List Exchange) (rest : List RxItem) : State :=
  { s with hs := h, rx := rest, trace := s.trace ++ eventsOf xs }

theorem State.shaken_shaken (s : State) (h h' : HandshakeState) (xs ys : List Exchange) (rest rest' : List RxItem) :
    (s.shaken h xs rest).shaken h' ys rest' = s.shaken h' (xs ++ ys) rest' := by
  simp only [State.shaken, eventsOf_append, List.append_assoc]

/-- The start token answered by `Synchronized`. -/
theorem runHandshake_start_step {s : State} {rest : List RxItem} (hv : s.valid = true) (hh : s.hs = .start)
    (hx : s.rx = feed syncString rest) :
    runHandshake s = runHandshake (s.shaken .syn [⟨[0x3F#8], syncString⟩] rest) := by
  rw [runHandshake_of_start hv hh, runTxStart_ok s rest hx]
  rfl

/-- The two transitions that are catalogue lines: the state, the next state, the line. -/
def handshakeRows : List (HandshakeState × HandshakeState × CatalogueLine) :=
  [(.syn, .ack, lineSyncAck), (.ack, .successful, lineAckVal)]

theorem runHandshake_of_row {p : HandshakeState × HandshakeState × CatalogueLine} (hp : p ∈ handshakeRows) {s : State}
    (hv : s.valid = true) (hh : s.hs = p.1) :
    runHandshake s = (p.2.2.run s).andThen fun _ s' => runHandshake { s' with hs := p.2.1 } := by
  simp only [handshakeRows, List.mem_cons, List.not_mem_nil, or_false] at hp
  rcases hp with rfl | rfl
  · exact runHandshake_of_syn hv hh
  · exact runHandshake_of_ack hv hh

/-- A transition's line answered by a match. -/
theorem runHandshake_row_step {p : HandshakeState × HandshakeState × CatalogueLine} (hp : p ∈ handshakeRows) {s : State} {sep : Bytes}
    {rest : List RxItem} (hv : s.valid = true) (hh : s.hs = p.1) (hs : sep.length = s.cfg.sepLen)
    (hx : s.rx = feed (p.2.2.answer sep) rest) :
    runHandshake s = runHandshake (s.shaken p.2.1 [p.2.2.exchange s.cfg sep] rest) := by
  rw [runHandshake_of_row hp hv hh, p.2.2.run_ok s sep rest hs hx]
  rfl

/-- Both lines fail with HandshakeFailure and are answered with a two-byte token. -/
theorem why_and_answerLength_of_row {p : HandshakeState × HandshakeState × CatalogueLine} (hp : p ∈ handshakeRows) :
    p.2.2.why = .handshakeFailure ∧ ∀ n, p.2.2.answerLength n = p.2.2.text.length + n + 2 := by
  simp only [handshakeRows, List.mem_cons, List.not_mem_nil, or_false] at hp
  rcases hp with rfl | rfl
  · exact ⟨rfl, fun _ => rfl⟩
  · exact ⟨rfl, fun _ => rfl⟩

/-- Settles O22: a transition's own exchange moves `hs` and the pass goes on; any other answer, or none, ends it before `hs` is written. -/
theorem handshakeTransitions : Obligations.HandshakeTransitions := by
  intro s sep r part rest hv hs
  refine ⟨fun hh => ⟨fun hx => ?tokenMatch, fun hl hr hx => ?tokenMismatch, fun hl hx => ?tokenTimeout⟩,
    fun p hp hh => ⟨fun hx => ?lineMatch, fun hm hx => ?lineMismatch, fun hl hx => ?lineTimeout⟩, fun hh => ?done⟩
  case tokenMatch => exact congrArg (Run.report · acceptUnit) (runHandshake_start_step hv hh hx)
  case tokenMismatch =>
    rw [exec_handshake, runHandshake_of_start hv hh, runTxStart_bad s r rest hl hr hx]
    rfl
  case tokenTimeout =>
    rw [exec_handshake, runHandshake_of_start hv hh, runTxStart_gap s part rest hl hx]
    rfl
  case lineMatch => exact congrArg (Run.report · acceptUnit) (runHandshake_row_step hp hv hh hs hx)
  case lineMismatch =>
    obtain ⟨hwhy, -⟩ := why_and_answerLength_of_row hp
    rw [exec_handshake, runHandshake_of_row hp hv hh, p.2.2.run_bad s r rest hm hx, hwhy]
    rfl
  case lineTimeout =>
    obtain ⟨-, hlen⟩ := why_and_answerLength_of_row hp
    rw [← hlen] at hl ⊢
    rw [exec_handshake, runHandshake_of_row hp hv hh, p.2.2.run_gap s part rest hl hx]
    rfl
  case done =>
    rw [exec_handshake, runHandshake_of_successful hv hh]
    rfl

theorem exchangesOf_nil (cfg : Config) (seps : Nat → Bytes) : exchangesOf cfg seps [] = [] := rfl

theorem answersOf_cons (x : Exchange) (xs : List Exchange) : answersOf (x :: xs) = x.answer ++ answersOf xs := rfl

theorem exchange_answer (l : CatalogueLine) (cfg : Config) (sep : Bytes) : (l.exchange cfg sep).answer = l.answer sep := rfl

theorem answersOf_nil : answersOf [] = [] := rfl

theorem feed_nil (rest : List RxItem) : feed [] rest = rest := rfl

/-- The three exchanges of a handshake from START. -/
def handshakeExchanges (cfg : Config) (seps : Nat → Bytes) : List Exchange :=
  ⟨[0x3F#8], syncString⟩ :: exchangesOf cfg seps [lineSyncAck, lineAckVal]

/-- A handshake from START whose three lines are answered by matches. -/
theorem runHandshake_completes {s : State} {seps : Nat → Bytes} {rest : List RxItem} (hv : s.valid = true) (hh : s.hs = .start)
    (hs : Separators s.cfg seps) (hx : s.rx = feed (answersOf (handshakeExchanges s.cfg seps)) rest) :
    runHandshake s = .ok () (s.shaken .successful (handshakeExchanges s.cfg seps) rest) := by
  simp only [handshakeExchanges, exchangesOf_cons, exchangesOf_nil, answersOf_cons, answersOf_nil, feed_append, feed_nil,
    exchange_answer, Nat.zero_add] at hx ⊢
  have hack (xs : List Exchange) (r : List RxItem) :=
    runHandshake_row_step (p := (.syn, .ack, lineSyncAck)) (s := s.shaken .syn xs (feed (lineSyncAck.answer (seps 0)) r)) (rest := r)
      (.head _) hv rfl (hs 0) rfl
  have hdone (xs : List Exchange) (r : List RxItem) :=
    runHandshake_row_step (p := (.ack, .successful, lineAckVal)) (s := s.shaken .ack xs (feed (lineAckVal.answer (seps 1)) r))
      (rest := r) (.tail _ (.head _)) hv rfl (hs 1) rfl
  rw [runHandshake_start_step hv hh hx, hack, State.shaken_shaken, hdone, State.shaken_shaken]
  exact runHandshake_of_successful hv rfl

/-- Settles O23: the three transitions in one pass. -/
theorem handshakeCompletesInOnePass : Obligations.HandshakeCompletesInOnePass := by
  intro s seps rest hv hh hs xs hx
  rw [exec_handshake, runHandshake_completes hv hh hs hx]
  rfl

/-! ### VERSION (R135) -/

theorem exec_version (s : State) : exec .version s = (runVersion s).report .acceptedVersion := rfl

theorem runVersion_of_session {s : State} (hv : s.valid = true) :
    runVersion s = (runTxVersion s).andThen fun field s' =>
      if parseDigits field = 0 then .raise .versionUnsupported s' else .ok (parseDigits field) s' := by
  rw [runVersion, requireSession_ok s hv, Run.andThen_ok]

/-- The exchange of the version line on a match. -/
def versionExchange (cfg : Config) (sep sep' field : Bytes) : Exchange :=
  ⟨[0x4A#8] ++ cfg.term, [0x4A#8] ++ sep ++ [0x30#8] ++ sep' ++ field⟩

/-- VERSION on a match, before its number is judged. -/
theorem runVersion_of_match {s : State} {sep sep' field : Bytes} {rest : List RxItem} (hv : s.valid = true)
    (hs : sep.length = s.cfg.sepLen) (hs' : sep'.length = s.cfg.sepLen) (hf : field.length = 10)
    (hx : s.rx = feed (versionExchange s.cfg sep sep' field).answer rest) :
    runVersion s =
      if parseDigits field = 0 then
        .raise .versionUnsupported
          { s with rx := rest, trace := s.trace ++ eventsOf [versionExchange s.cfg sep sep' field] }
      else
        .ok (parseDigits field) { s with rx := rest, trace := s.trace ++ eventsOf [versionExchange s.cfg sep sep' field] } := by
  rw [runVersion_of_session hv, runTxVersion_ok s sep sep' field rest hs hs' hf hx, Run.andThen_ok]
  rfl

/-- Settles O25: the version transaction on a match, on a mismatch and on a gap. -/
theorem versionReturnsTheFieldsNumber : Obligations.VersionReturnsTheFieldsNumber := by
  intro s r part rest hv
  refine ⟨?number, fun hl hm hx => ?mismatch, fun hl hx => ?timeout⟩
  case number =>
    intro sep sep' field hs hs' hf v x hne hx
    have hnumber : parseDigits field = v := parseDigits_eq field
    rw [exec_version, runVersion_of_match hv hs hs' hf hx, hnumber, if_neg hne]
    rfl
  case mismatch =>
    rw [exec_version, runVersion_of_session hv, runTxVersion_bad s r rest hl hm hx]
    rfl
  case timeout =>
    rw [exec_version, runVersion_of_session hv, runTxVersion_gap s part rest hl hx]
    rfl

/-- A field without a digit from 1 to 9 is the number 0. -/
theorem parseDigits_eq_zero {field : Bytes} (h : ∀ b ∈ field, ¬ (0x31 ≤ b.toNat ∧ b.toNat ≤ 0x39)) : parseDigits field = 0 := by
  induction field with
  | nil => rfl
  | cons b field ih =>
    have hb := h b List.mem_cons_self
    have hskip : (if isDigit b then 0 * 10 + (b.toNat - 0x30) else 0) = 0 := by
      split
      next hdigit => simp [isDigit] at hdigit; omega
      next => rfl
    rw [parseDigits, List.foldl_cons, hskip]
    exact ih fun x hx => h x (List.mem_cons_of_mem _ hx)

/-- Settles O26: the number of such a field is 0. -/
theorem versionOfNoDigitButZeroIsUnsupported : Obligations.VersionOfNoDigitButZeroIsUnsupported := by
  intro s sep sep' field rest hv hs hs' hf hdigits x hx
  rw [exec_version, runVersion_of_match hv hs hs' hf hx, if_pos (parseDigits_eq_zero hdigits)]
  rfl

/-! ### Lines as one operation (R137, R157, R158) -/

theorem report_runLines_ok {ls : List CatalogueLine} {s : State} {seps : Nat → Bytes} {rest : List RxItem}
    (hs : Separators s.cfg seps) (hx : s.rx = feed (answersOf (exchangesOf s.cfg seps ls)) rest) :
    (runLines ls s).report acceptUnit = .next (s.afterExchanges (exchangesOf s.cfg seps ls) rest .accepted) := by
  rw [runLines_ok ls s seps rest hs hx]
  rfl

theorem report_runLines_bad {ls : List CatalogueLine} {s : State} {seps : Nat → Bytes} {rest : List RxItem} {k : Nat}
    {l : CatalogueLine} {r : Bytes} (hs : Separators s.cfg seps) (hk : l ∈ ls[k]?) (hm : l.MismatchedBy s.cfg.sepLen r)
    (hx : s.rx = feed (answersOf (exchangesOf s.cfg seps (ls.take k)) ++ r) rest) :
    (runLines ls s).report acceptUnit = .next (s.afterExchanges
      (exchangesOf s.cfg seps (ls.take k) ++ [⟨l.text ++ s.cfg.term, r⟩]) rest (.rejected l.why)) := by
  rw [runLines_bad ls s seps rest hs k l hk r hm hx]
  rfl

theorem report_runLines_gap {ls : List CatalogueLine} {s : State} {seps : Nat → Bytes} {rest : List RxItem} {k : Nat}
    {l : CatalogueLine} {part : Bytes} (hs : Separators s.cfg seps) (hk : l ∈ ls[k]?)
    (hp : part.length < l.answerLength s.cfg.sepLen)
    (hx : s.rx = feed (answersOf (exchangesOf s.cfg seps (ls.take k)) ++ part) (.gap :: rest)) :
    (runLines ls s).report acceptUnit = .next { s with
      rx := rest
      trace := s.trace ++ eventsOf (exchangesOf s.cfg seps (ls.take k)) ++
        [.send (l.text ++ s.cfg.term), .recv (l.answerLength s.cfg.sepLen) none]
      out := some (.rejected .transportTimeout) } := by
  rw [runLines_gap ls s seps rest hs k l hk part hp hx]
  rfl

theorem exec_prepare_of_session {s : State} (hv : s.valid = true) : exec .prepare s = (runLines prepareLines s).report acceptUnit :=
  congrArg (Run.report · acceptUnit) (runPrepare_eq s hv)

/-- Settles O27: PREPARE is its three lines, once there is a session. -/
theorem prepareRunsItsThreeLinesInOrder : Obligations.PrepareRunsItsThreeLinesInOrder := by
  intro s seps r part rest hs
  refine ⟨fun hv => report_without_session hv _ acceptUnit, fun hv => ?_⟩
  rw [exec_prepare_of_session hv]
  exact ⟨report_runLines_ok hs, fun _ _ hk => ⟨report_runLines_bad hs hk, report_runLines_gap hs hk⟩⟩

/-! ### What the operations do not look at -/

/-- A run's end state changed by `g`. -/
def Run.mapState {α : Type} (g : State → State) : Run α → Run α
  | .ok a s => .ok a (g s)
  | .raise r s => .raise r (g s)
  | .hang => .hang

/-- `s` with handshake state and result port changed, which the transport and the writer do not look at. -/
def State.aside (fh : HandshakeState → HandshakeState) (fo : Option Output → Option Output) (s : State) : State :=
  { s with hs := fh s.hs, out := fo s.out }

theorem Run.mapState_andThen {α β : Type} {g : State → State} {x : Run α} {f f' : α → State → Run β}
    (h : ∀ a s, f' a (g s) = (f a s).mapState g) : (x.mapState g).andThen f' = (x.andThen f).mapState g := by
  cases x with
  | ok a s => exact h a s
  | raise r s => rfl
  | hang => rfl

theorem Run.mapState_ite {α : Type} {g : State → State} {c : Prop} [Decidable c] {x y : Run α} :
    (if c then x else y).mapState g = if c then x.mapState g else y.mapState g := by
  split
  · rfl
  · rfl

section
variable (fh : HandshakeState → HandshakeState) (fo : Option Output → Option Output)

theorem recv_aside (n : Nat) (s : State) : recv n (s.aside fh fo) = (recv n s).mapState (State.aside fh fo) := by
  have hrx : (s.aside fh fo).rx = s.rx := rfl
  rw [recv, recv, hrx]
  cases arrival n s.rx with
  | got b rest => rfl
  | timedOut rest => rfl
  | silence =>
    dsimp only
    rw [Run.mapState_ite]
    rfl

theorem transact_aside (text : Bytes) (term : Bool) (shape : Shape) (why : Reason) (s : State) :
    transact text term shape why (s.aside fh fo) = (transact text term shape why s).mapState (State.aside fh fo) := by
  have hrecv := recv_aside fh fo (shapeLength shape text s.cfg.sepLen) (send (sentBytes text term s.cfg) s)
  rw [transact_eq, transact_eq]
  refine (congrArg (Run.andThen · _) hrecv).trans (Run.mapState_andThen fun r t => ?_)
  rw [Run.mapState_ite]
  rfl

theorem requireSession_aside (s : State) :
    requireSession (s.aside fh fo) = (requireSession s).mapState (State.aside fh fo) := by
  rw [requireSession, requireSession, Run.mapState_ite]
  rfl

/-- VERSION looks neither at `hs` nor at the result port. -/
theorem runVersion_aside (s : State) : runVersion (s.aside fh fo) = (runVersion s).mapState (State.aside fh fo) := by
  unfold runVersion
  rw [requireSession_aside]
  refine Run.mapState_andThen fun _ s1 => ?_
  refine (congrArg (Run.andThen · _) (transact_aside fh fo _ _ _ _ s1)).trans (Run.mapState_andThen fun field s2 => ?_)
  rw [Run.mapState_ite]
  rfl

theorem runLines_aside (ls : List CatalogueLine) (s : State) :
    runLines ls (s.aside fh fo) = (runLines ls s).mapState (State.aside fh fo) := by
  induction ls generalizing s with
  | nil => rfl
  | cons l ls ih =>
    exact (congrArg (Run.andThen · _) (transact_aside fh fo _ _ _ _ s)).trans (Run.mapState_andThen fun _ t => ih t)

/-- PREPARE looks neither at `hs` nor at the result port. -/
theorem runPrepare_aside (s : State) : runPrepare (s.aside fh fo) = (runPrepare s).mapState (State.aside fh fo) := by
  cases hv : s.valid with
  | true => rw [runPrepare_eq s hv, runPrepare_eq (s.aside fh fo) hv, runLines_aside]
  | false =>
    rw [runPrepare, runPrepare, requireSession_none hv, requireSession_none (s := s.aside fh fo) hv]
    rfl

theorem runFlushUnit_aside (s : State) : runFlushUnit (s.aside fh fo) = (runFlushUnit s).mapState (State.aside fh fo) := by
  rw [runFlushUnit_eq, runFlushUnit_eq]
  exact runLines_aside fh fo _ s

theorem abortFlush_mapState_aside (x : Run Unit) :
    abortFlush (x.mapState (State.aside fh fo)) = (abortFlush x).mapState (State.aside fh fo) := by
  cases x with
  | ok a s => rfl
  | raise r s => rfl
  | hang => rfl

theorem runOverflow_aside (data : Bytes) (s : State) :
    runOverflow data (s.aside fh fo) = (runOverflow data s).mapState (State.aside fh fo) := by
  have hflush : abortFlush (runFlushUnit (topUp data (s.aside fh fo))) =
      (abortFlush (runFlushUnit (topUp data s))).mapState (State.aside fh fo) :=
    (congrArg abortFlush (runFlushUnit_aside fh fo (topUp data s))).trans (abortFlush_mapState_aside fh fo _)
  rw [runOverflow, runOverflow, Run.mapState_ite]
  refine congrArg (ite _ _) ?_
  exact (congrArg (Run.andThen · _) hflush).trans (Run.mapState_andThen fun _ _ => rfl)

/-- WRITE looks neither at `hs` nor at the result port. -/
theorem runWrite_aside (record : Bytes) (s : State) :
    runWrite record (s.aside fh fo) = (runWrite record s).mapState (State.aside fh fo) := by
  unfold runWrite
  rw [requireSession_aside]
  refine Run.mapState_andThen fun _ s1 => ?_
  rw [Run.mapState_ite, Run.mapState_ite, ← runOverflow_aside]
  rfl

/-- FINISH looks neither at `hs` nor at the result port. -/
theorem runFinish_aside (s : State) : runFinish (s.aside fh fo) = (runFinish s).mapState (State.aside fh fo) := by
  unfold runFinish
  rw [requireSession_aside]
  refine Run.mapState_andThen fun _ s1 => ?_
  rw [Run.mapState_ite, Run.mapState_ite]
  refine congrArg (ite _ _) (congrArg (ite _ _) ?_)
  exact (congrArg (Run.andThen · _) (runFlushUnit_aside fh fo s1)).trans (Run.mapState_andThen fun _ _ => rfl)

/-- A handshake step does not look at the result port. -/
theorem runHandshake_aside (s : State) : runHandshake (s.aside id fo) = (runHandshake s).mapState (State.aside id fo) := by
  have htx (text : Bytes) (term : Bool) (shape : Shape) (why : Reason) (g : HandshakeState) (t : State) :
      ((transact text term shape why (t.aside id fo)).andThen fun _ s' => (.ok () { s' with hs := g } : Run Unit)) =
        ((transact text term shape why t).andThen fun _ s' => .ok () { s' with hs := g }).mapState (State.aside id fo) :=
    (congrArg (Run.andThen · _) (transact_aside id fo _ _ _ _ t)).trans (Run.mapState_andThen fun _ _ => rfl)
  unfold runHandshake
  rw [requireSession_aside]
  refine Run.mapState_andThen fun _ s1 => ?_
  have hstart : handshakeStart (s1.aside id fo) = (handshakeStart s1).mapState (State.aside id fo) := by
    rw [handshakeStart, handshakeStart, Run.mapState_ite]
    exact congrArg (ite _ · _) (htx ..)
  rw [hstart]
  refine Run.mapState_andThen fun _ s2 => ?_
  have hsyn : handshakeSyn (s2.aside id fo) = (handshakeSyn s2).mapState (State.aside id fo) := by
    rw [handshakeSyn, handshakeSyn, Run.mapState_ite]
    exact congrArg (ite _ · _) (htx ..)
  rw [hsyn]
  refine Run.mapState_andThen fun _ s3 => ?_
  rw [handshakeAck, handshakeAck, Run.mapState_ite]
  exact congrArg (ite _ · _) (htx ..)

end

/-- A report's next state changed by `g`. -/
def mapNext (g : State → State) : Host.Outcome State Fault Refusal → Host.Outcome State Fault Refusal
  | .next t => .next (g t)
  | .fault f => .fault f
  | .refused r => .refused r

theorem report_mapState_setHs {α : Type} (h : HandshakeState) (x : Run α) (accept : α → Output) :
    (x.mapState (State.aside (fun _ => h) id)).report accept = mapNext (State.aside (fun _ => h) id) (x.report accept) := by
  cases x with
  | ok a s => rfl
  | raise r s => rfl
  | hang => rfl

/-- Settles O30: each of the four operations, with `hs` changed, is the same run with `hs` changed at its end. -/
theorem fourOperationsDoNotTestTheHandshake : Obligations.FourOperationsDoNotTestTheHandshake := by
  intro s h record i hi
  have key : exec i (s.aside (fun _ => h) id) = mapNext (State.aside (fun _ => h) id) (exec i s) := by
    simp only [List.mem_cons, List.not_mem_nil, or_false] at hi
    rcases hi with rfl | rfl | rfl | rfl
    · exact (congrArg (Run.report · _) (runVersion_aside _ id s)).trans (report_mapState_setHs h _ _)
    · exact (congrArg (Run.report · _) (runPrepare_aside _ id s)).trans (report_mapState_setHs h _ _)
    · exact (congrArg (Run.report · _) (runWrite_aside _ id record s)).trans (report_mapState_setHs h _ _)
    · exact (congrArg (Run.report · _) (runFinish_aside _ id s)).trans (report_mapState_setHs h _ _)
  cases he : exec i s with
  | next t => rw [he] at key; exact key
  | fault f => rw [he] at key; exact key
  | refused r => rw [he] at key; exact key

/-! ### START (R64, R139) -/

/-- The report of a run overwrites whatever stood on the result port. -/
theorem report_mapState_out {α : Type} (fo : Option Output → Option Output) (x : Run α) (accept : α → Output) :
    (x.mapState (State.aside id fo)).report accept = x.report accept := by
  cases x with
  | ok a s => rfl
  | raise r s => rfl
  | hang => rfl

theorem exec_handshake_returnResult (o : Output) (s : State) : exec .handshake (returnResult o s) = exec .handshake s :=
  (congrArg (Run.report · _) (runHandshake_aside (fun _ => some o) s)).trans (report_mapState_out _ _ _)

theorem exec_version_returnResult (o : Output) (s : State) : exec .version (returnResult o s) = exec .version s :=
  (congrArg (Run.report · _) (runVersion_aside id (fun _ => some o) s)).trans (report_mapState_out _ _ _)

theorem exec_prepare_returnResult (o : Output) (s : State) : exec .prepare (returnResult o s) = exec .prepare s :=
  (congrArg (Run.report · _) (runPrepare_aside id (fun _ => some o) s)).trans (report_mapState_out _ _ _)

theorem exec_start (s : State) : exec .start s =
    ((runHandshake (openState s)).andThen fun _ s1 => (runVersion s1).andThen fun v s2 =>
      (runPrepare s2).andThen fun _ s3 => .ok v s3).report .acceptedVersion := rfl

/-- Settles O28: an operation reads nothing of the result before it, so START's chain is the operations one after another. -/
theorem startIsTheFailFastChain : Obligations.StartIsTheFailFastChain := by
  intro s s1 s2 hopen hshake
  obtain rfl : returnResult .accepted (openState s) = s1 := Host.Outcome.next.inj hopen
  rw [exec_handshake_returnResult] at hshake
  rcases Run.report_next hshake with ⟨_, u1, hrun1, rfl⟩ | ⟨r, u1, hrun1, rfl⟩
  case inr => exact ⟨fun _ => by rw [exec_start, hrun1]; rfl, nofun⟩
  refine ⟨fun hne => absurd rfl hne, fun _ s3 hversion => ?_⟩
  rw [exec_version_returnResult] at hversion
  rcases Run.report_next hversion with ⟨v, u2, hrun2, rfl⟩ | ⟨r, u2, hrun2, rfl⟩
  case inr => exact ⟨fun _ => by rw [exec_start, hrun1, Run.andThen_ok, hrun2]; rfl, nofun⟩
  refine ⟨fun hne => absurd rfl (hne v), fun w hw s4 hprepare => ?_⟩
  obtain rfl : v = w := Output.acceptedVersion.inj (Option.some.inj hw)
  rw [exec_prepare_returnResult] at hprepare
  rw [exec_start, hrun1, Run.andThen_ok, hrun2, Run.andThen_ok]
  rcases Run.report_next hprepare with ⟨_, u3, hrun3, rfl⟩ | ⟨r, u3, hrun3, rfl⟩
  · rw [hrun3]
    rfl
  · rw [hrun3]
    rfl

/-- START when all its operations go on. -/
theorem exec_start_of_ok {s s1 s2 s3 : State} {v : Nat} (h1 : runHandshake (openState s) = .ok () s1) (h2 : runVersion s1 = .ok v s2)
    (h3 : runPrepare s2 = .ok () s3) : exec .start s = .next (returnResult (.acceptedVersion v) s3) := by
  rw [exec_start, h1, Run.andThen_ok, h2, Run.andThen_ok, h3]
  rfl

theorem runPrepare_completes {s : State} {seps : Nat → Bytes} {rest : List RxItem} (hv : s.valid = true)
    (hs : Separators s.cfg seps) (hx : s.rx = feed (answersOf (exchangesOf s.cfg seps prepareLines)) rest) :
    runPrepare s = .ok () { s with rx := rest, trace := s.trace ++ eventsOf (exchangesOf s.cfg seps prepareLines) } := by
  rw [runPrepare_eq s hv, runLines_ok prepareLines s seps rest hs hx]

/-- Settles O29: the handshake's three lines, the version line and the three lines of PREPARE, on the state OPEN leaves. -/
theorem startCompletesWithSevenLines : Obligations.StartCompletesWithSevenLines := by
  intro s seps sep sep' field rest hseps hs hs' hf v xs hne hx
  have hxs : xs = handshakeExchanges s.cfg seps ++ (versionExchange s.cfg sep sep' field :: exchangesOf s.cfg seps prepareLines) := by
    simp [xs, handshakeExchanges, versionExchange]
  rw [hxs, answersOf_append, answersOf_cons, feed_append, feed_append] at hx
  have hnumber : parseDigits field = v := parseDigits_eq field
  have hnonzero : parseDigits field ≠ 0 := by rw [hnumber]; exact hne
  have hshake := runHandshake_completes (s := openState s) rfl rfl hseps hx
  have hversion (r : List RxItem) := (runVersion_of_match (rest := r) (s := (openState s).shaken .successful
    (handshakeExchanges s.cfg seps) (feed (versionExchange s.cfg sep sep' field).answer r)) rfl hs hs' hf rfl).trans (if_neg hnonzero)
  rw [exec_start_of_ok hshake (hversion _) (runPrepare_completes (rest := rest) rfl hseps rfl), hxs, hnumber]
  simp [eventsOf, State.afterExchanges, State.shaken, returnResult]

end Sys2Proof.Machine

namespace Sys2Proof.Machine

/-! ### The record as the statements write it (R38, R39, R51) -/

theorem length_of_fields {dest : Bytes} (h : dest.length = 4) (z0 z1 z2 z3 : Byte) (tail : Bytes) :
    (dest ++ [z0, z1, z2, z3] ++ tail).length = 8 + tail.length := by
  simp only [List.length_append, List.length_cons, List.length_nil, h]

theorem declaredSize_of_fields {dest : Bytes} (h : dest.length = 4) (z0 z1 z2 z3 : Byte) (tail : Bytes) :
    declaredSize (dest ++ [z0, z1, z2, z3] ++ tail) = ((z0.toNat * 256 + z1.toNat) * 256 + z2.toNat) * 256 + z3.toNat := by
  obtain ⟨a, b, c, d, rfl⟩ := exists_of_length_four h
  rfl

/-- Byte `8 + n` of a record is byte `n` of what follows its size. -/
theorem getD_of_fields {dest : Bytes} (h : dest.length = 4) (z0 z1 z2 z3 : Byte) (tail : Bytes) (n : Nat) :
    (dest ++ [z0, z1, z2, z3] ++ tail).getD (8 + n) 0#8 = tail.getD n 0#8 := by
  have hfront : (dest ++ [z0, z1, z2, z3]).length = 8 := by simp [h]
  rw [List.getD_append_right _ _ _ _ (by omega), hfront, Nat.add_sub_cancel_left]

theorem swappedPayload_of_fields {dest : Bytes} (h : dest.length = 4) (z0 z1 z2 z3 : Byte) (tail : Bytes) :
    swappedPayload (dest ++ [z0, z1, z2, z3] ++ tail) =
      (List.range (((z0.toNat * 256 + z1.toNat) * 256 + z2.toNat) * 256 + z3.toNat)).map
        fun i => tail.getD (4 * (i / 4) + 3 - i % 4) 0#8 := by
  rw [swappedPayload, declaredSize_of_fields h]
  exact List.map_congr_left fun i _ => getD_of_fields h z0 z1 z2 z3 tail _

theorem swappedPayload_length (record : Bytes) : (swappedPayload record).length = declaredSize record := by
  rw [swappedPayload, List.length_map, List.length_range]

/-- Byte `i` of the swapped payload, whatever the default. -/
theorem swappedPayload_getD {record : Bytes} {i : Nat} (h : i < declaredSize record) (v : Byte) :
    (swappedPayload record).getD i v = record.getD (8 + (4 * (i / 4) + 3 - i % 4)) 0#8 := by
  rw [List.getD_eq_getElem _ _ (by rw [swappedPayload_length]; exact h)]
  simp [swappedPayload]

/-- A record that holds its payload has the size the statements read. -/
theorem recordSize_of_wholeWords {record : Bytes} (h : WholeWords record) : recordSize record = declaredSize record := by
  obtain ⟨-, hlen⟩ := h
  exact recordSize_eq_declaredSize record (by omega)

/-! ### The paths of WRITE (R150 to R154) -/

theorem exec_write (record : Bytes) (s : State) : exec (.write record) s = (runWrite record s).report acceptUnit := rfl

theorem runWrite_of_session {s : State} (hv : s.valid = true) (record : Bytes) :
    runWrite record s =
      if recordRejected s.fill record then .raise .badRecord s
      else if flushDue s.fill record then runOverflow (recordData record) s
      else .ok () (accumulate (recordData record) s) := by
  rw [runWrite, requireSession_ok s hv, Run.andThen_ok]

/-- R150, read from the record: which records are rejected. -/
theorem recordRejected_iff (fill : Nat) (record : Bytes) :
    recordRejected fill record = true ↔
      record.length < 8 ∨ recordSize record % 4 ≠ 0 ∨ 2047 < fill + recordSize record ∨ record.length < 8 + recordSize record := by
  simp [recordRejected, or_assoc]

theorem recordRejected_of_wholeWords {fill : Nat} {record : Bytes} (h : WholeWords record) (hmax : fill + declaredSize record ≤ 2047) :
    ¬ recordRejected fill record = true := by
  obtain ⟨h4, hlen⟩ := h
  rw [recordRejected_iff, recordSize_eq_declaredSize record (by omega)]
  omega

theorem flushDue_iff (fill : Nat) (record : Bytes) : flushDue fill record = true ↔ 1024 ≤ fill + recordSize record := by
  simp [flushDue]

theorem rangeExceeded_iff (cursor : Nat) : rangeExceeded cursor = true ↔ 44032 < cursor + 1024 := decide_eq_true_iff

/-- WRITE below the threshold. -/
theorem exec_write_accumulate {s : State} {record : Bytes} (hv : s.valid = true) (hw : WholeWords record)
    (hroom : s.fill + declaredSize record < 1024) :
    exec (.write record) s = .next (returnResult .accepted (accumulate (swappedPayload record) s)) := by
  have hsize := recordSize_of_wholeWords hw
  obtain ⟨h4, hlen⟩ := hw
  rw [exec_write, runWrite_accumulate s record hv (by rw [hsize]; exact h4) (by rw [hsize]; exact hroom) (by rw [hsize]; exact hlen),
    recordData_eq_swappedPayload record ⟨h4, hlen⟩]
  rfl

/-- The lines of the flush that a WRITE of `record` makes due. -/
def writeLines (record : Bytes) (s : State) : List CatalogueLine :=
  unitLines (Memory.readBytes s.sb 0 s.fill ++ (swappedPayload record).take (1024 - s.fill)) s.cursor

/-- WRITE on the overflow path, its range free: the flush's lines run from the topped-up buffer. -/
theorem runWrite_overflow {s : State} {record : Bytes} (hI : s.Inv) (hv : s.valid = true) (hw : WholeWords record)
    (hdue : 1024 ≤ s.fill + declaredSize record) (hmax : s.fill + declaredSize record ≤ 2047) (hrange : s.cursor ≤ 43008) :
    runWrite record s = (abortFlush (runLines (writeLines record s) (topUp (swappedPayload record) s))).andThen
      fun _ s' => .ok () (advanceAndCarry ((swappedPayload record).drop (1024 - s.fill)) s') := by
  have hflush : flushDue s.fill record = true := by
    rw [flushDue_iff, recordSize_of_wholeWords hw]
    exact hdue
  have hfree : ¬ rangeExceeded s.cursor = true := by rw [rangeExceeded_iff]; omega
  have hlines : runFlushUnit (topUp (swappedPayload record) s) = runLines (writeLines record s) (topUp (swappedPayload record) s) := by
    rw [runFlushUnit_eq, topUp_readBytes s _ hI (by rw [swappedPayload_length]; exact hdue)]
    rfl
  rw [runWrite_of_session hv, if_neg (recordRejected_of_wholeWords hw hmax), if_pos hflush, recordData_eq_swappedPayload record hw,
    runOverflow, if_neg hfree, hlines]

/-- WRITE whose flush completes. -/
theorem exec_write_flush {s : State} {record : Bytes} {seps : Nat → Bytes} {rest : List RxItem} (hI : s.Inv) (hv : s.valid = true)
    (hw : WholeWords record) (hdue : 1024 ≤ s.fill + declaredSize record) (hmax : s.fill + declaredSize record ≤ 2047)
    (hrange : s.cursor ≤ 43008) (hs : Separators s.cfg seps)
    (hx : s.rx = feed (answersOf (exchangesOf s.cfg seps (writeLines record s))) rest) :
    exec (.write record) s = .next { s.afterExchanges (exchangesOf s.cfg seps (writeLines record s)) rest .accepted with
      cursor := s.cursor + 1024
      sb := Memory.writeBytes [] 0 ((swappedPayload record).drop (1024 - s.fill))
      fill := ((swappedPayload record).drop (1024 - s.fill)).length } := by
  have hrun := runLines_ok (writeLines record s) (topUp (swappedPayload record) s) seps rest hs hx
  rw [exec_write, runWrite_overflow hI hv hw hdue hmax hrange, hrun]
  rfl

/-- WRITE whose flush is ended by a line: the refill takes back what was topped up, and no register has changed (R159). -/
theorem exec_write_aborted {s : State} {record : Bytes} {r : Reason} {rest : List RxItem} {trace : List Event} (hI : s.Inv)
    (hv : s.valid = true) (hw : WholeWords record) (hdue : 1024 ≤ s.fill + declaredSize record)
    (hmax : s.fill + declaredSize record ≤ 2047) (hrange : s.cursor ≤ 43008)
    (hrun : runLines (writeLines record s) (topUp (swappedPayload record) s) =
      .raise r { topUp (swappedPayload record) s with rx := rest, trace := trace }) :
    exec (.write record) s = .next { s with rx := rest, trace := trace, out := some (.rejected r) } := by
  have hrefill := refillFrom_topUp (swappedPayload record) hI
  rw [exec_write, runWrite_overflow hI hv hw hdue hmax hrange, hrun]
  exact congrArg (fun m => Host.Outcome.next { s with sb := m, rx := rest, trace := trace, out := some (.rejected r) }) hrefill

/-! ### What the accumulate path leaves (R152) -/

/-- The staged bytes after `data` was appended. -/
theorem accumulate_readBytes {s : State} (data : Bytes) (hI : s.Inv) :
    (accumulate data s).sb.readBytes 0 (s.fill + data.length) = s.sb.readBytes 0 s.fill ++ data := by
  obtain ⟨hwf, -⟩ := hI
  apply List.ext_getElem
  · simp
  · intro i h1 h2
    simp only [Memory.readBytes_length] at h1
    rw [Memory.readBytes_getElem, accumulate_sb, Memory.read_writeBytes hwf, Nat.zero_add]
    by_cases hi : i < s.fill
    · rw [if_neg (by omega), List.getElem_append_left (by simpa using hi), Memory.readBytes_getElem, Nat.zero_add]
    · rw [if_pos (by omega), List.getElem_append_right (by simpa using hi), List.getD_eq_getElem _ _ (by omega)]
      simp only [Memory.readBytes_length]

/-- Settles O31: the record is of whole words and below the threshold; reads after the append are those of `Memory.read_writeBytes`. -/
theorem writeAccumulatesBelowTheThreshold : Obligations.WriteAccumulatesBelowTheThreshold := by
  intro s dest payload extra z0 z1 z2 z3 hI hv hdest hsize h4 hroom
  have hrecord : dest ++ [z0, z1, z2, z3] ++ payload ++ extra = dest ++ [z0, z1, z2, z3] ++ (payload ++ extra) :=
    List.append_assoc _ _ _
  have hdeclared := declaredSize_of_fields hdest z0 z1 z2 z3 (payload ++ extra)
  rw [← hsize] at hdeclared
  have hw : WholeWords (dest ++ [z0, z1, z2, z3] ++ (payload ++ extra)) := by
    refine ⟨by rw [hdeclared]; exact h4, ?_⟩
    rw [hdeclared, length_of_fields hdest, List.length_append]
    omega
  have hlen : (swappedPayload (dest ++ [z0, z1, z2, z3] ++ (payload ++ extra))).length = payload.length := by
    rw [swappedPayload_length, hdeclared]
  obtain ⟨hwf, -⟩ := hI
  rw [hrecord]
  refine ⟨_, exec_write_accumulate hv hw (by rw [hdeclared]; exact hroom), ?fill, rfl, rfl, rfl, rfl, ⟨rfl, rfl⟩, ⟨rfl, rfl⟩,
    fun k j hk hj => ?written, fun a ha => ?frame⟩
  case fill => rw [returnResult_fill, accumulate_fill, hlen]
  case written =>
    have hoffset : s.fill + 4 * k + j - s.fill = 4 * k + j := by omega
    have hindex : 4 * ((4 * k + j) / 4) + 3 - (4 * k + j) % 4 = 4 * k + 3 - j := by omega
    rw [returnResult_sb, accumulate_sb, Memory.read_writeBytes hwf, if_pos (by omega), hoffset,
      swappedPayload_getD (by omega), hindex, getD_of_fields hdest, List.getD_append _ _ _ _ (by omega)]
  case frame =>
    rw [returnResult_sb, accumulate_sb, Memory.read_writeBytes hwf, if_neg (by omega)]

/-! ### What WRITE does not look at (U6) -/

/-- The payload of a record that holds it: the bytes after its size field. -/
theorem recordPayload_of_fields {dest payload : Bytes} {z0 z1 z2 z3 : Byte} (extra : Bytes) (h : dest.length = 4)
    (hsize : payload.length = ((z0.toNat * 256 + z1.toNat) * 256 + z2.toNat) * 256 + z3.toNat) :
    recordPayload (dest ++ [z0, z1, z2, z3] ++ (payload ++ extra)) = payload := by
  have hfront : (dest ++ [z0, z1, z2, z3]).length = 8 := by simp [h]
  have hrecord := recordSize_eq_declaredSize (dest ++ [z0, z1, z2, z3] ++ (payload ++ extra)) (by rw [length_of_fields h]; omega)
  rw [declaredSize_of_fields h, ← hsize] at hrecord
  rw [recordPayload, hrecord, ← hfront, List.drop_left, List.take_left]

/-- Of a record that holds its payload the size alone is tested. -/
theorem recordRejected_of_holds {fill : Nat} {record : Bytes} (h : 8 + recordSize record ≤ record.length) :
    recordRejected fill record = true ↔ recordSize record % 4 ≠ 0 ∨ 2047 < fill + recordSize record := by
  rw [recordRejected_iff]
  omega

/-- WRITE depends on a record that holds its payload through size and payload only. -/
theorem runWrite_congr {record record' : Bytes} (h : 8 + recordSize record ≤ record.length)
    (h' : 8 + recordSize record' ≤ record'.length) (hsize : recordSize record = recordSize record')
    (hpayload : recordPayload record = recordPayload record') (s : State) : runWrite record s = runWrite record' s := by
  have hrejected : recordRejected s.fill record = recordRejected s.fill record' := by
    rw [Bool.eq_iff_iff, recordRejected_of_holds h, recordRejected_of_holds h', hsize]
  have hdue : flushDue s.fill record = flushDue s.fill record' := by rw [flushDue, flushDue, hsize]
  have hdata : recordData record = recordData record' := by rw [recordData, recordData, hpayload]
  cases hv : s.valid with
  | true => rw [runWrite_of_session hv, runWrite_of_session hv, hrejected, hdue, hdata]
  | false => rw [runWrite, runWrite, requireSession_none hv, Run.andThen_raise, Run.andThen_raise]

/-- Settles O32: the two records have the same size and payload. -/
theorem writeIgnoresDestAndSurplus : Obligations.WriteIgnoresDestAndSurplus := by
  intro s dest dest' payload extra extra' z0 z1 z2 z3 hdest hdest' hsize
  have hrecordSize {d : Bytes} (hd : d.length = 4) (e : Bytes) :
      recordSize (d ++ [z0, z1, z2, z3] ++ (payload ++ e)) = payload.length := by
    rw [recordSize_eq_declaredSize _ (by rw [length_of_fields hd]; omega), declaredSize_of_fields hd, hsize]
  have hholds {d : Bytes} (hd : d.length = 4) (e : Bytes) : 8 + recordSize (d ++ [z0, z1, z2, z3] ++ (payload ++ e)) ≤
      (d ++ [z0, z1, z2, z3] ++ (payload ++ e)).length := by
    rw [hrecordSize hd, length_of_fields hd, List.length_append]
    omega
  rw [List.append_assoc _ payload extra, List.append_assoc _ payload extra', exec_write, exec_write,
    runWrite_congr (hholds hdest extra) (hholds hdest' extra') (by rw [hrecordSize hdest, hrecordSize hdest'])
      (by rw [recordPayload_of_fields extra hdest hsize, recordPayload_of_fields extra' hdest' hsize])]

/-! ### The overflow path (R153, R156, R159) -/

/-- Settles O33: the flush's lines complete, and the carried bytes are the swapped payload from `1024 - fill` on. -/
theorem writeFlushesOneUnitAndCarriesTheRest : Obligations.WriteFlushesOneUnitAndCarriesTheRest := by
  intro s dest tail z0 z1 z2 z3 seps rest hI hv hseps hdest size q k xs h4 hdue hmax hlen hrange hx
  have hdeclared : declaredSize (dest ++ [z0, z1, z2, z3] ++ tail) = size := declaredSize_of_fields hdest z0 z1 z2 z3 tail
  have hq : swappedPayload (dest ++ [z0, z1, z2, z3] ++ tail) = q := swappedPayload_of_fields hdest z0 z1 z2 z3 tail
  have hw : WholeWords (dest ++ [z0, z1, z2, z3] ++ tail) := by
    refine ⟨by rw [hdeclared]; exact h4, ?_⟩
    rw [hdeclared, length_of_fields hdest]
    omega
  have hqlen : q.length = size := by rw [← hq, swappedPayload_length, hdeclared]
  have hlines : writeLines (dest ++ [z0, z1, z2, z3] ++ tail) s =
      unitLines (Memory.readBytes s.sb 0 s.fill ++ q.take k) s.cursor := by rw [writeLines, hq]
  have hexec := exec_write_flush (rest := rest) hI hv hw (by rw [hdeclared]; exact hdue) (by rw [hdeclared]; exact hmax) hrange hseps
    (by rw [hlines]; exact hx)
  rw [hlines, hq] at hexec
  have hrem : (q.drop (1024 - s.fill)).length = s.fill + size - 1024 := by
    rw [List.length_drop, hqlen]
    obtain ⟨-, hfill, -⟩ := hI
    omega
  refine ⟨_, hexec, rfl, hrem, rfl, hv, fun a => ?carried, rfl, rfl, rfl, ⟨rfl, rfl⟩⟩
  case carried =>
    have hread := Memory.read_writeBytes (m := []) (hi := 0) rfl 0 (q.drop (1024 - s.fill)) a
    rw [hrem, Nat.zero_add] at hread
    refine hread.trans ?_
    by_cases ha : a < s.fill + size - 1024
    · have hindex : 1024 - s.fill + a < q.length := by rw [List.length_drop] at hrem; omega
      rw [if_pos ⟨Nat.zero_le _, ha⟩, if_pos ha, Nat.sub_zero, List.getD_eq_getElem _ _ (by omega), List.getElem_drop,
        List.getD_eq_getElem _ _ hindex]
    · rw [if_neg (fun h => ha h.2), if_neg ha, Memory.read_nil]

/-- Settles O34: of WRITE's effects the rejecting ones leave the state or take back what was topped up. -/
theorem rejectedWriteLeavesTheRegisters : Obligations.RejectedWriteLeavesTheRegisters := by
  intro s t record r hI h hr
  have heffect := exec_effect h
  refine ⟨?_, heffect.consumes.1⟩
  cases heffect with
  | quiet hn => cases hn
  | writeRejected => exact ⟨rfl, rfl, rfl, rfl, rfl⟩
  | flushAborted record r hu => exact sameRegisters_of_aborted hI hu
  | accumulated | flushed => cases hr

/-- A record that fails a test of R150. -/
theorem exec_write_rejected {s : State} {record : Bytes} (hv : s.valid = true) (h : recordRejected s.fill record = true) :
    exec (.write record) s = .next (takeRejection .badRecord s) := by
  rw [exec_write, runWrite_of_session hv, if_pos h, Run.report_raise]

/-- Settles O35: each of the four tests of R150. -/
theorem badRecordHasNoEffect : Obligations.BadRecordHasNoEffect := by
  intro s hv
  refine ⟨fun record hlen => exec_write_rejected hv ((recordRejected_iff _ _).2 (.inl hlen)), ?_⟩
  intro dest tail z0 z1 z2 z3 hdest size hbad
  refine exec_write_rejected hv ((recordRejected_iff _ _).2 (.inr ?_))
  rw [recordSize_eq_declaredSize _ (by rw [length_of_fields hdest]; omega), declaredSize_of_fields hdest, length_of_fields hdest]
  omega

/-! ### FINISH (R160) -/

theorem exec_finish (s : State) : exec .finish s = (runFinish s).report acceptUnit := rfl

theorem runFinish_of_staged {s : State} (hv : s.valid = true) (hfill : s.fill ≠ 0) :
    runFinish s = if rangeExceeded s.cursor then .raise .rangeExceeded s
      else (runFlushUnit s).andThen fun _ s' => .ok () (finishState s') := by
  rw [runFinish, requireSession_ok s hv, Run.andThen_ok, if_neg hfill]

/-- FINISH with bytes staged and the range free: the buffer's flush as it stands. -/
theorem runFinish_flush {s : State} (hv : s.valid = true) (hfill : s.fill ≠ 0) (hrange : s.cursor ≤ 43008) :
    runFinish s = (runLines (unitLines (Memory.readBytes s.sb 0 1024) s.cursor) s).andThen
      fun _ s' => .ok () (finishState s') := by
  have hfree : ¬ rangeExceeded s.cursor = true := by rw [rangeExceeded_iff]; omega
  rw [runFinish_of_staged hv hfill, if_neg hfree, runFlushUnit_eq]

/-- Settles O36: the range test comes before the flush, in WRITE as in FINISH. -/
theorem flushBeyondTheRangeHasNoEffect : Obligations.FlushBeyondTheRangeHasNoEffect := by
  intro s record hv hrange
  have hexceeded : rangeExceeded s.cursor = true := (rangeExceeded_iff _).2 hrange
  refine ⟨fun hw hdue hmax => ?_, fun hfill => ?_⟩
  · have hflush : flushDue s.fill record = true := by
      rw [flushDue_iff, recordSize_of_wholeWords hw]
      exact hdue
    rw [exec_write, runWrite_of_session hv, if_neg (recordRejected_of_wholeWords hw hmax), if_pos hflush, runOverflow,
      if_pos hexceeded]
    rfl
  · rw [exec_finish, runFinish_of_staged hv hfill, if_pos hexceeded]
    rfl

/-- Settles O41: with nothing staged FINISH clears `valid` before any test of the range. -/
theorem finishWithNothingStagedOnlyEndsTheSession : Obligations.FinishWithNothingStagedOnlyEndsTheSession := by
  intro s hv hfill
  rw [exec_finish, runFinish, requireSession_ok s hv, Run.andThen_ok, if_pos hfill]
  rfl

/-- Settles O42: the flush's lines complete. -/
theorem finishFlushesOnceAndEndsTheSession : Obligations.FinishFlushesOnceAndEndsTheSession := by
  intro s seps rest hv hfill hrange hseps xs hx
  rw [exec_finish, runFinish_flush hv hfill hrange, runLines_ok _ s seps rest hseps hx]
  rfl

/-- Settles O43: of FINISH's effects the rejecting one used the transport only. -/
theorem rejectedFinishLeavesTheRegisters : Obligations.RejectedFinishLeavesTheRegisters := by
  intro s t r h hr
  have heffect := exec_effect h
  refine ⟨?_, heffect.consumes.1⟩
  cases heffect with
  | quiet hn => cases hn
  | finishRejected r hu => exact hu.registers
  | finishedEmpty | finished => cases hr

/-- FINISH whose flush is ended by a line. -/
theorem exec_finish_aborted {s u : State} {r : Reason} (hv : s.valid = true) (hfill : s.fill ≠ 0) (hrange : s.cursor ≤ 43008)
    (hrun : runLines (unitLines (Memory.readBytes s.sb 0 1024) s.cursor) s = .raise r u) :
    exec .finish s = .next (takeRejection r u) := by
  rw [exec_finish, runFinish_flush hv hfill hrange, hrun, Run.andThen_raise, Run.report_raise]

/-! ### The sequences of the writer on their own (R157, R158) -/

theorem exec_flushUnit (s : State) :
    exec .flushUnit s = (runLines (unitLines (Memory.readBytes s.sb 0 1024) s.cursor) s).report acceptUnit :=
  congrArg (Run.report · acceptUnit) (runFlushUnit_eq s)

theorem exec_sendHalf (h : Half) (s : State) :
    exec (.sendHalf h) s = (runLines (halfLines (ramLine h) (halfBytes h s)) s).report acceptUnit :=
  congrArg (Run.report · acceptUnit) (runSendHalf_eq h s)

/-- Settles O37: FLUSH_UNIT is the lines of its unit. -/
theorem flushUnitRunsItsThirtyThreeLines : Obligations.FlushUnitRunsItsThirtyThreeLines := by
  intro s seps r part rest hs ls
  rw [exec_flushUnit]
  exact ⟨unitLines_length _ _, report_runLines_ok hs, fun _ _ hk => ⟨report_runLines_bad hs hk, report_runLines_gap hs hk⟩⟩

/-- The halves as the statement lists them: each with its write-RAM line and the base of its bytes. -/
theorem ramLine_and_halfBytes {p : Half × CatalogueLine × Nat}
    (hp : p ∈ [(Half.half0, lineWriteRam1, 0), (Half.half1, lineWriteRam2, 512)]) (s : State) :
    ramLine p.1 = p.2.1 ∧ halfBytes p.1 s = Memory.readBytes s.sb p.2.2 512 := by
  simp only [List.mem_cons, List.not_mem_nil, or_false] at hp
  rcases hp with rfl | rfl
  · exact ⟨rfl, rfl⟩
  · exact ⟨rfl, rfl⟩

/-- Settles O38: SEND_HALF is the lines of its half. -/
theorem sendHalfRunsItsFifteenLines : Obligations.SendHalfRunsItsFifteenLines := by
  intro s seps r part rest hs p hp ls
  obtain ⟨hram, hbytes⟩ := ramLine_and_halfBytes hp s
  rw [exec_sendHalf, hram, hbytes]
  exact ⟨halfLines_length _ _, report_runLines_ok hs, fun _ _ hk => ⟨report_runLines_bad hs hk, report_runLines_gap hs hk⟩⟩

/-- Settles O40: in WRITE the lines run from the topped-up buffer and the refill takes the bytes back; in FINISH they run from the buffer
as it stands. -/
theorem failedFlushReportsItsLineAndChangesNothing : Obligations.FailedFlushReportsItsLineAndChangesNothing := by
  intro s record seps r part rest hI hv hseps hrange
  rintro ⟨i, buf⟩ hp
  dsimp only
  intro hfinish hwrite k l hk
  simp only [List.mem_cons, List.not_mem_nil, or_false, Prod.mk.injEq] at hp
  rcases hp with ⟨rfl, hbuf⟩ | ⟨rfl, hbuf⟩
  · subst hbuf
    obtain ⟨hw, hdue, hmax⟩ := hwrite rfl
    refine ⟨fun hm hx => ?_, fun hpart hx => ?_⟩
    · exact exec_write_aborted hI hv hw hdue hmax hrange
        (runLines_bad _ (topUp (swappedPayload record) s) seps rest hseps k l hk r hm hx)
    · exact exec_write_aborted hI hv hw hdue hmax hrange
        (runLines_gap _ (topUp (swappedPayload record) s) seps rest hseps k l hk part hpart hx)
  · have hfill := hfinish rfl
    have haborted {reason : Reason} {u : State} (hrun : runLines (unitLines buf s.cursor) s = .raise reason u) :
        exec .finish s = .next (takeRejection reason u) := exec_finish_aborted hv hfill hrange (by rw [← hbuf]; exact hrun)
    refine ⟨fun hm hx => ?_, fun hpart hx => ?_⟩
    · exact haborted (runLines_bad _ s seps rest hseps k l hk r hm hx)
    · exact haborted (runLines_gap _ s seps rest hseps k l hk part hpart hx)

/-! ### Sequences of writes (R162) -/

theorem writeAll_cons_of_accepted {record : Bytes} {records : List Bytes} {s t : State} (h : exec (.write record) s = .next t)
    (hout : t.out = some .accepted) : writeAll (record :: records) s = writeAll records t := by
  rw [writeAll, h]
  exact if_pos hout

/-- One write below the threshold, and then the others. -/
theorem writeAll_cons_accumulate {record : Bytes} {records : List Bytes} {s : State} (hv : s.valid = true) (hw : WholeWords record)
    (hroom : s.fill + declaredSize record < 1024) :
    writeAll (record :: records) s = writeAll records (returnResult .accepted (accumulate (swappedPayload record) s)) :=
  writeAll_cons_of_accepted (exec_write_accumulate hv hw hroom) rfl

theorem accumulate_fill_declared (record : Bytes) (s : State) :
    (accumulate (swappedPayload record) s).fill = s.fill + declaredSize record := by
  rw [accumulate_fill, swappedPayload_length]

/-- Settles O46: by induction on the records, each of which accumulates. -/
theorem writesUnderOneUnitOnlyAccumulate : Obligations.WritesUnderOneUnitOnlyAccumulate := by
  intro records
  induction records with
  | nil => exact fun s hv _ _ => ⟨s, rfl, rfl, ⟨rfl, rfl⟩, rfl, rfl, hv⟩
  | cons record records ih =>
    intro s hv hw hsum
    rw [List.map_cons, List.sum_cons] at hsum ⊢
    have hfill := accumulate_fill_declared record s
    obtain ⟨t, ht, htfill, htransport, hcursor, hhs, hvalid⟩ :=
      ih (returnResult .accepted (accumulate (swappedPayload record) s)) hv (fun r hr => hw r (List.mem_cons_of_mem _ hr))
        (by rw [returnResult_fill, hfill]; omega)
    rw [returnResult_fill, hfill] at htfill
    exact ⟨t, (writeAll_cons_accumulate hv (hw record List.mem_cons_self) (by omega)).trans ht, by omega, htransport, hcursor, hhs,
      hvalid⟩

/-- Writes of nothing after an accepted one leave the state as it is. -/
theorem writeAll_of_empty_payloads {records : List Bytes} {s : State} (hv : s.valid = true) (hfill : s.fill < 1024)
    (hout : s.out = some .accepted) (hw : ∀ record ∈ records, WholeWords record)
    (hzero : (records.map declaredSize).sum = 0) : writeAll records s = some s := by
  induction records with
  | nil => rfl
  | cons record records ih =>
    rw [List.map_cons, List.sum_cons] at hzero
    have hsize : declaredSize record = 0 := by omega
    have hempty : swappedPayload record = [] := List.eq_nil_of_length_eq_zero (by rw [swappedPayload_length, hsize])
    have hsame : returnResult .accepted (accumulate [] s) = s := by
      rw [returnResult, ← hout]
      rfl
    rw [writeAll_cons_accumulate hv (hw record List.mem_cons_self) (by omega), hempty, hsame]
    exact ih (fun r hr => hw r (List.mem_cons_of_mem _ hr)) (by omega)

theorem flatMap_swappedPayload_length (records : List Bytes) :
    (records.flatMap swappedPayload).length = (records.map declaredSize).sum := by
  rw [List.length_flatMap]
  exact congrArg List.sum (List.map_congr_left fun record _ => swappedPayload_length record)

/-- The write that completes a unit exactly leaves nothing to carry. -/
theorem exec_write_flush_exact {s : State} {record : Bytes} {seps : Nat → Bytes} {rest : List RxItem} (hI : s.Inv)
    (hv : s.valid = true) (hw : WholeWords record) (hexact : s.fill + declaredSize record = 1024) (hrange : s.cursor ≤ 43008)
    (hs : Separators s.cfg seps) (hx : s.rx = feed (answersOf (exchangesOf s.cfg seps
      (unitLines (Memory.readBytes s.sb 0 s.fill ++ swappedPayload record) s.cursor))) rest) :
    exec (.write record) s = .next { s.afterExchanges (exchangesOf s.cfg seps
        (unitLines (Memory.readBytes s.sb 0 s.fill ++ swappedPayload record) s.cursor)) rest .accepted with
      cursor := s.cursor + 1024, sb := [], fill := 0 } := by
  have hlen : (swappedPayload record).length = 1024 - s.fill := by rw [swappedPayload_length]; omega
  have hlines : writeLines record s = unitLines (Memory.readBytes s.sb 0 s.fill ++ swappedPayload record) s.cursor := by
    rw [writeLines, List.take_of_length_le hlen.le]
  have hexec := exec_write_flush (rest := rest) hI hv hw (by omega) (by omega) hrange hs (by rw [hlines]; exact hx)
  rw [hlines, List.drop_eq_nil_of_le hlen.le] at hexec
  exact hexec

/-- Writes that complete the unit `buf`. By induction: a write that does not complete it accumulates; after the one that does, only writes
of nothing are left. -/
theorem writeAll_unit {records : List Bytes} {s : State} {seps : Nat → Bytes} {rest : List RxItem} {buf : Bytes} (hI : s.Inv)
    (hv : s.valid = true) (hw : ∀ record ∈ records, WholeWords record) (hsum : s.fill + (records.map declaredSize).sum = 1024)
    (hrange : s.cursor ≤ 43008) (hs : Separators s.cfg seps)
    (hbuf : buf = Memory.readBytes s.sb 0 s.fill ++ records.flatMap swappedPayload)
    (hx : s.rx = feed (answersOf (exchangesOf s.cfg seps (unitLines buf s.cursor))) rest) :
    writeAll records s = some { s.afterExchanges (exchangesOf s.cfg seps (unitLines buf s.cursor)) rest .accepted with
      cursor := s.cursor + 1024, sb := [], fill := 0 } := by
  induction records generalizing s with
  | nil =>
    obtain ⟨-, hfill, -⟩ := hI
    rw [List.map_nil, List.sum_nil] at hsum
    omega
  | cons record records ih =>
    have hrecord := hw record List.mem_cons_self
    have hrest : ∀ r ∈ records, WholeWords r := fun r hr => hw r (List.mem_cons_of_mem _ hr)
    have hlen := swappedPayload_length record
    rw [List.map_cons, List.sum_cons] at hsum
    rw [List.flatMap_cons, ← List.append_assoc] at hbuf
    by_cases hroom : s.fill + declaredSize record < 1024
    case pos =>
      have hI' : (accumulate (swappedPayload record) s).Inv :=
        accumulate_inv hI (by rw [hlen]; exact hrecord.1) (by rw [hlen]; exact hroom)
      rw [← accumulate_readBytes _ hI, ← accumulate_fill] at hbuf
      rw [writeAll_cons_accumulate hv hrecord hroom]
      exact ih (s := returnResult .accepted (accumulate (swappedPayload record) s)) hI' hv hrest
        (by rw [returnResult_fill, accumulate_fill_declared]; omega) hrange hs hbuf hx
    case neg =>
      have hnothing : records.flatMap swappedPayload = [] :=
        List.eq_nil_of_length_eq_zero (by rw [flatMap_swappedPayload_length]; omega)
      rw [hnothing, List.append_nil] at hbuf
      subst hbuf
      rw [writeAll_cons_of_accepted (exec_write_flush_exact hI hv hrecord (by omega) hrange hs hx) rfl]
      refine writeAll_of_empty_payloads ?_ ?_ rfl hrest (by omega)
      · exact hv
      · exact Nat.zero_lt_succ 1023

/-- Settles O47: the unit is the staged bytes and the swapped payloads, and the writes complete it. -/
theorem writesOfExactlyOneUnitFlushOnce : Obligations.WritesOfExactlyOneUnitFlushOnce := by
  intro records s seps rest hI hv hw hsum hrange hseps data xs hx
  exact ⟨_, writeAll_unit hI hv hw hsum hrange hseps rfl hx, rfl, rfl, rfl, rfl, hv, rfl, rfl⟩

end Sys2Proof.Machine
